-- ==== Sys2Proof/Word.lean ====
section
/-! DEFINITION. The two word types of CRS256: the byte (a field element, R110) and the 32-bit word (a CSR, R24). -/

namespace Sys2Proof

/-- A field element, one byte of buffer memory or one 8-bit table entry (R7, R110). -/
abbrev Byte := BitVec 8

/-- The contents of a CSR, or a command word (R22, R90). -/
abbrev Word := BitVec 32

end Sys2Proof
end

