-- ==== Sys2Proof/Config.lean ====
section
/-! DEFINITION. What an implementation fixes (R7) and the values the spec leaves unspecified. A free value is an opaque
constant: nothing can evaluate it, so a claim holds whatever it is. -/

namespace Sys2Proof

/-- The OPEN parameter of R7 and R60, held so that every value is legal: the highest buffer-memory address. -/
structure Config where
  memTop : BitVec 32
deriving DecidableEq, Repr

/-- MEM_BYTES, always in 1 to 2^32 (R60). -/
def Config.memBytes (c : Config) : Nat := c.memTop.toNat + 1

/-- Free value: an EXP entry while the table store is unspecified (R40, I1); the first argument is the state's counter (log 5). -/
opaque Config.unbuiltExp : Nat → Nat → Byte

/-- Free value: a LOG entry while the table store is unspecified (R40, I1; log 5). -/
opaque Config.unbuiltLog : Nat → Byte → BitVec 10

/-- Free value: a MULT entry, row first, while the table store is unspecified (R40, I1; log 5). -/
opaque Config.unbuiltMult : Nat → Byte → Byte → Byte

/-- Free value: a DIVT entry, row first, while the table store is unspecified (R40, I1; log 5). -/
opaque Config.unbuiltDivt : Nat → Byte → Byte → Byte

/-- Free value: an INVT entry while the table store is unspecified (R40, I1; log 5). -/
opaque Config.unbuiltInvt : Nat → Byte → Byte

/-- Free value: what a byte of the write set holds after a reset has abandoned the command (R261, I8; log 6); arguments: the
state's counter and the address. -/
opaque Config.abandonedByte : Nat → Nat → Byte

end Sys2Proof
end

