-- ==== Sys2Proof/Machine/State.lean ====
section
/-! DEFINITION. The state of the machine as plain data, the reasons a step can stop, and the state after reset. -/

namespace Sys2Proof.Machine

/-- Why a step stops with a fault. -/
inductive Fault where
  /-- Raised by a host buffer-memory access that is not inside `[0, MEM_BYTES)`: the address does not exist (R60). Safe: the
  model stops (log 10). The core never raises it (R64). -/
  | noSuchAddress
deriving DecidableEq, Repr

/-- Why a step is refused. -/
inductive Refusal where
  /-- Raised by `exec` for a command that has no meaning yet. Safe: nothing is said of the command. -/
  | notModelled (mnemonic : String)
  /-- Raised by a host CSR access that is not a 32-bit access at a multiple of 4 in 0x00 to 0x3C: "The model refuses such an
  access" (R22). Safe (log 9). -/
  | outsideCsrProtocol
  /-- Raised by ENCODE and DECODE when their buffers overlap: "A model refuses such a command: it gives the run no meaning"
  (R76, log 7), and by DECODE when an install reaches a payload still to be read (I6, D37, log 19). Safe. -/
  | overlappingBuffers
  /-- Raised by a host access to the read or write set of the command in flight: "A model refuses such a run" (R79). Safe (log 8). -/
  | buffersInUse
deriving DecidableEq, Repr

/-- The error kinds of R230, without code 0 (success). -/
inductive ErrorKind where
  | invalidParameters
  | nullData
  | uninitializedContext
  | insufficientBlocks
  | matrixOperation
  | blockBuffer
  | addressRange
  | illegalCommand
deriving DecidableEq, Repr

/-- The fields of STATUS (R26). BUSY is also the engine phase: IDLE when 0 (R44). -/
structure Status where
  busy : Bool
  done : Bool
  init : Bool
  wign : Bool
  err  : BitVec 4
deriving DecidableEq, Repr

/-- The table store of R40. "After an INIT completes, the store is a pure function of the polynomial index that INIT used. A model
can therefore represent the store as that index and compute entries on demand." -/
inductive Store where
  /-- Every entry is unspecified (R46); `epoch` picks the free values its entries read as (log 5). -/
  | unspecified (epoch : Nat)
  /-- Built by INIT from polynomial index `idx` (R113). -/
  | built (idx : Fin 16)
deriving DecidableEq, Repr

/-- Buffer memory (R60): the bytes that differ from what an unlisted address reads as, by rising address. -/
abbrev Memory := List Host.Cell

/-- A value the host has read (R100). -/
inductive HostValue where
  | word (v : Word)
  | bytes (l : List Byte)
deriving DecidableEq, Repr

/-- A host action (R100). A CSR access also says how many bytes wide it is, since R22 allows one width only. -/
inductive HostAction where
  /-- `WR off, v`. -/
  | wr (off width : Nat) (v : Word)
  /-- `RD off -> name`. -/
  | rd (off width : Nat) (name : String)
  /-- `MEMW a, [b0, b1, ...]`. -/
  | memw (a : Nat) (data : List Byte)
  /-- `MEMR a, n -> name`. -/
  | memr (a n : Nat) (name : String)
  /-- `WAIT`: repeats `RD 0x04 -> s` until `s[0] = 0`. -/
  | wait
deriving DecidableEq, Repr

/-- Whose step comes next: "Each is a host access, a core complete, or a reset, and no two are simultaneous" (R275). -/
inductive Turn where
  | host
  | core
  | reset
deriving DecidableEq, Repr

/-- The machine. The CSRs are those of R24; CMD is the readback of R25; of CTRL only IE exists (R32) and of POLY bits 8:0 (R41). -/
structure State where
  cmd        : Word
  status     : Status
  ie         : Bool
  result     : Word
  k          : Word
  m          : Word
  blockBytes : Word
  n          : Word
  src        : Word
  dst        : Word
  nblk       : Word
  poly       : BitVec 9
  store      : Store
  mem        : Memory
  /-- The OPEN parameter MEM_BYTES; no step changes it (log 4). -/
  cfg        : Config
  /-- The model's own field: who moves next, in order (log 1). -/
  turns      : List Turn
  /-- The model's own field: what the host still has to do (R100, log 11). -/
  host       : List HostAction
  /-- The model's own field: what the host has read, by name (R100, log 11). -/
  bindings   : List (String × HostValue)
  /-- The model's own field: the counter the free values are applied to (log 5, log 6). -/
  free       : Nat
deriving DecidableEq, Repr

/-- STATUS after reset: every field 0 (R46). -/
def Status.reset : Status := { busy := false, done := false, init := false, wign := false, err := 0 }

/-- The machine right after reset (R46, R260): every CSR 0, the table store unspecified, no byte of memory written, no turn
taken and no host action placed. MEM_BYTES is 0x10000, as in the start state of the spec's programs (log 4). -/
def State.reset : State where
  cmd := 0
  status := Status.reset
  ie := false
  result := 0
  k := 0
  m := 0
  blockBytes := 0
  n := 0
  src := 0
  dst := 0
  nblk := 0
  poly := 0
  store := .unspecified 0
  mem := []
  cfg := { memTop := 0xFFFF }
  turns := []
  host := []
  bindings := []
  free := 1

end Sys2Proof.Machine
end

