-- ==== Sys2Proof/Machine/Gf.lean ====
section
/-! DEFINITION. The GF(256) tables as INIT builds them (R111 to R116), entry by entry, and the reads of the table store (R10, R40). -/

namespace Sys2Proof.Machine

/-- The polynomial list `GEN_POLY` (R111). -/
def genPoly : List Nat :=
  [0x8e, 0x95, 0x96, 0xa6, 0xaf, 0xb1, 0xb2, 0xb4, 0xb8, 0xc3, 0xc6, 0xd4, 0xe1, 0xe7, 0xf3, 0xfa]

/-- "Default index is 3" (R111). -/
def defaultPolyIndex : Fin 16 := 3

/-- `poly = (GEN_POLY[idx] << 1) | 1` (R112). -/
def polyNat (idx : Fin 16) : Nat := (genPoly.getD idx.val 0) <<< 1 ||| 1

/-- The polynomial as CSR POLY holds it, bits 8:0 (R41). -/
def polyOf (idx : Fin 16) : BitVec 9 := BitVec.ofNat 9 (polyNat idx)

/-- One step of the EXP loop: "`next = exp[j-1] << 1`; if `next ≥ 256`: `next ^= poly`", on exact integers (R114, R9). -/
def expNext (poly cur : Nat) : Nat := if 256 ≤ cur <<< 1 then cur <<< 1 ^^^ poly else cur <<< 1

/-- `EXP[j]` for j in [0, 254], the entries the EXP loop writes (R114). -/
def expPower (poly : Nat) : Nat → Nat
  | 0 => 1
  | j + 1 => expNext poly (expPower poly j)

/-- `EXP[j]`, an 8-bit entry, for every index; the table has entries 0 to 1020 (R114, R117). -/
def expEntry (idx : Fin 16) (j : Nat) : Byte :=
  if j ≤ 254 then BitVec.ofNat 8 (expPower (polyNat idx) j)
  else if j = 255 then BitVec.ofNat 8 (expPower (polyNat idx) 0)
  else if j ≤ 509 then BitVec.ofNat 8 (expPower (polyNat idx) (j % 255))
  else if j = 510 then 1
  else 0

/-- The writes `LOG[EXP[j]] <- j` of the EXP loop, read back at `x`: `left` iterations remain, `cur` is the next EXP entry and
`last` the index of the last one so far that was `x` (R114). -/
def logScan (poly x : Nat) : (left cur last : Nat) → Nat
  | 0, _, last => last
  | left + 1, cur, last =>
    if cur = x then logScan poly x left (expNext poly cur) (254 - left) else logScan poly x left (expNext poly cur) last

/-- `LOG[x]`, a 10-bit entry: LOG[0] = 512, LOG[1] = 255, the others written by the EXP loop (R114, R118). -/
def logEntry (idx : Fin 16) (x : Byte) : BitVec 10 :=
  if x = 0 then 512
  else if x = 1 then 255
  else BitVec.ofNat 10 (logScan (polyNat idx) x.toNat 254 (expNext (polyNat idx) 1) 0)

/-- `MULT[y][x]` (R115). -/
def multEntry (idx : Fin 16) (y x : Byte) : Byte :=
  if y = 0 then 0
  else if x = 0 then 0
  else expEntry idx (((logEntry idx x).toNat + (logEntry idx y).toNat) % 255)

/-- `DIVT[y][x]`, with `logYn = 255 - logY` (R115). -/
def divtEntry (idx : Fin 16) (y x : Byte) : Byte :=
  if y = 0 then 0
  else if x = 0 then 0
  else expEntry idx (((logEntry idx x).toNat + (255 - (logEntry idx y).toNat)) % 255)

/-- `INVT[x] = DIVT[x][1]` (R116). -/
def invtEntry (idx : Fin 16) (x : Byte) : Byte := divtEntry idx x 1

/-- Reads `EXP[j]` of the table store. -/
def Store.exp (st : Store) (j : Nat) : Byte :=
  match st with
  | .unspecified e => Config.unbuiltExp e j
  | .built idx => expEntry idx j

/-- Reads `LOG[x]` of the table store. -/
def Store.log (st : Store) (x : Byte) : BitVec 10 :=
  match st with
  | .unspecified e => Config.unbuiltLog e x
  | .built idx => logEntry idx x

/-- Reads `MULT[y][x]` of the table store. -/
def Store.mult (st : Store) (y x : Byte) : Byte :=
  match st with
  | .unspecified e => Config.unbuiltMult e y x
  | .built idx => multEntry idx y x

/-- Reads `DIVT[y][x]` of the table store. -/
def Store.divt (st : Store) (y x : Byte) : Byte :=
  match st with
  | .unspecified e => Config.unbuiltDivt e y x
  | .built idx => divtEntry idx y x

/-- Reads `INVT[x]` of the table store. -/
def Store.invt (st : Store) (x : Byte) : Byte :=
  match st with
  | .unspecified e => Config.unbuiltInvt e x
  | .built idx => invtEntry idx x

/-- `gf_add(x, y) = x ^ y` (R10); its laws are those of R126. -/
def gfAdd (x y : Byte) : Byte := x ^^^ y

/-- `gf_mul(x, y) = MULT[y][x]` (R10, R17); over a built store the product of GF(2)[x]/(poly), with the laws of R126. -/
def gfMul (st : Store) (x y : Byte) : Byte := st.mult y x

/-- `gf_div(x, y) = DIVT[y][x]` (R10); over a built store it undoes `gf_mul` (R126). -/
def gfDiv (st : Store) (x y : Byte) : Byte := st.divt y x

/-- `gf_inv(x) = INVT[x]` (R10); over a built store the inverse of R126. -/
def gfInv (st : Store) (x : Byte) : Byte := st.invt x

/-- Adds `coef · d` into `acc` as ENCODE and DECODE do: skip when coef is 0, plain XOR when it is 1, else
`acc ^ MULT[coef][d]` (R161, R207). -/
def gfAccumulate (st : Store) (coef d acc : Byte) : Byte :=
  if coef = 0 then acc else if coef = 1 then acc ^^^ d else acc ^^^ gfMul st d coef

end Sys2Proof.Machine
end

