-- ==== Sys2Proof/Machine/Matrix.lean ====
section
/-! DEFINITION. Byte matrices, the entries of the Cauchy matrix (R150) and the Gauss-Jordan inverter `gf_invert` (R181, R182). -/

namespace Sys2Proof.Machine

/-- A matrix of field elements, a list of rows. -/
abbrev Mat := List (List Byte)

/-- Element [r][c]. -/
def Mat.get (a : Mat) (r c : Nat) : Byte := (a.getD r []).getD c 0

/-- The `rows` × `cols` matrix whose element [r][c] is `f r c`. -/
def Mat.build (rows cols : Nat) (f : Nat → Nat → Byte) : Mat :=
  (List.range rows).map fun r => (List.range cols).map fun c => f r c

/-- `M[i][j] = INVT[(k + i) ^ j]`, the XOR of two bytes (R150). -/
def cauchyEntry (st : Store) (k i j : Nat) : Byte := gfInv st (gfAdd (BitVec.ofNat 8 (k + i)) (BitVec.ofNat 8 j))

/-- `aug`: the matrix with the identity appended, n × 2n (R181). -/
def augment (n : Nat) (a0 : Mat) : Mat :=
  Mat.build n (2 * n) fun r c => if c < n then a0.get r c else if c = n + r then 1 else 0

/-- "the **lowest** row index p ≥ i with `aug[p][i] ≠ 0`" (R182). -/
def pivotRow (n : Nat) (aug : Mat) (i : Nat) : Option Nat :=
  (List.range n).find? fun p => decide (i ≤ p) && aug.get p i != 0

/-- Rows `i` and `p` swapped; nothing changes when `p = i` (R181). -/
def swapRows (n i p : Nat) (aug : Mat) : Mat :=
  Mat.build n (2 * n) fun r c => if r = i then aug.get p c else if r = p then aug.get i c else aug.get r c

/-- Row `i` multiplied by `INVT[aug[i][i]]` (R181). -/
def scaleRow (st : Store) (n i : Nat) (aug : Mat) : Mat :=
  Mat.build n (2 * n) fun r c => if r = i then gfMul st (aug.get i c) (gfInv st (aug.get i i)) else aug.get r c

/-- From every other row, row `i` times that row's entry in column `i` is subtracted (R181). -/
def eliminate (st : Store) (n i : Nat) (aug : Mat) : Mat :=
  Mat.build n (2 * n) fun r c =>
    if r = i then aug.get r c
    else if aug.get r i = 0 then aug.get r c
    else gfAdd (aug.get r c) (gfMul st (aug.get i c) (aug.get r i))

/-- The work on column `i`; none when no pivot exists (R181). -/
def gaussStep (st : Store) (n i : Nat) (aug : Mat) : Option Mat :=
  match pivotRow n aug i with
  | none => none
  | some p => some (eliminate st n i (scaleRow st n i (swapRows n i p aug)))

/-- Columns `i`, `i + 1`, and on, `left` of them. -/
def gaussFrom (st : Store) (n : Nat) : (left i : Nat) → Mat → Option Mat
  | 0, _, aug => some aug
  | left + 1, i, aug =>
    match gaussStep st n i aug with
    | none => none
    | some next => gaussFrom st n left (i + 1) next

/-- `gf_invert` (R181): the right n columns after all n columns are done, none when the matrix is singular. -/
def gfInvert (st : Store) (n : Nat) (a0 : Mat) : Option Mat :=
  match gaussFrom st n n 0 (augment n a0) with
  | none => none
  | some aug => some (Mat.build n n fun r c => aug.get r (n + c))

end Sys2Proof.Machine
end

