-- ==== Sys2Proof/Machine/Flags.lean ====
section
/-! DEFINITION. The computations on the STATUS fields (R26 to R31), the error codes (R230) and IRQ (R45). -/

namespace Sys2Proof.Machine

/-- The code of an error kind in STATUS.ERR (R230). -/
def ErrorKind.code : ErrorKind → BitVec 4
  | .invalidParameters => 1
  | .nullData => 2
  | .uninitializedContext => 3
  | .insufficientBlocks => 4
  | .matrixOperation => 5
  | .blockBuffer => 6
  | .addressRange => 7
  | .illegalCommand => 8

/-- A flag as a bit of a CSR: its value at bit `i`. -/
def flagBit (b : Bool) (i : Nat) : Nat := if b then 2 ^ i else 0

/-- What a read of STATUS returns: BUSY 0, DONE 1, INIT 2, WIGN 3, ERR 7:4, the rest 0 (R26). -/
def Status.word (st : Status) : Word :=
  BitVec.ofNat 32 (flagBit st.busy 0 + flagBit st.done 1 + flagBit st.init 2 + flagBit st.wign 3 + st.err.toNat * 2 ^ 4)

/-- STATUS at accept: BUSY set, DONE and ERR cleared (R232). -/
def Status.accept (st : Status) : Status := { st with busy := true, done := false, err := 0 }

/-- STATUS at complete: ERR written, BUSY cleared, DONE set (R233). -/
def Status.complete (code : BitVec 4) (st : Status) : Status := { st with busy := false, done := true, err := code }

/-- STATUS when an INIT has built the tables (R29, R113). -/
def Status.initialized (st : Status) : Status := { st with init := true }

/-- STATUS when a CSR write was ignored because BUSY = 1 (R42). -/
def Status.writeIgnored (st : Status) : Status := { st with wign := true }

/-- STATUS after a host write of `v` to it: a 1 at bit 1 clears DONE, a 1 at bit 3 clears WIGN, nothing else changes (R26). -/
def Status.hostWrite (v : Word) (st : Status) : Status :=
  { st with done := st.done && !v.getLsbD 1, wign := st.wign && !v.getLsbD 3 }

/-- The interrupt output: `IRQ = csr[CTRL].IE & csr[STATUS].DONE` (R45, R234). -/
def State.irq (s : State) : Bool := s.ie && s.status.done

end Sys2Proof.Machine
end

