-- ==== Sys2Proof/Machine/Ops.lean ====
section
/-! DEFINITION. The named operations over memory and registers: memory reads and writes (R12, R65), accept (R232), the normal
end of a command and its end by an error (R233), the reset of the registers (R46). -/

namespace Sys2Proof.Machine

/-- What a byte that is not listed reads as: 0 (log 3). -/
def Memory.unlisted : Byte := 0

/-- The canonical form from address `lo` on: addresses strictly rising and no entry equal to `Memory.unlisted`. -/
def Memory.wfFrom (lo : Nat) : Memory → Bool
  | [] => true
  | (a, b) :: rest => decide (lo ≤ a) && b != Memory.unlisted && Memory.wfFrom (a + 1) rest

/-- The canonical form of memory: equal memories are equal lists. -/
def Memory.wf (mem : Memory) : Bool := Memory.wfFrom 0 mem

/-- Every listed address is below `top`: it exists (R60). -/
def Memory.below (top : Nat) (mem : Memory) : Bool := mem.all fun c => c.1 < top

/-- `MemRead(a, 1)` (R12). -/
def Memory.read : Memory → Nat → Byte
  | [], _ => Memory.unlisted
  | (a', b) :: rest, a => if a = a' then b else Memory.read rest a

/-- The list `rest` with `(a, b)` before it, unless `b` is what an unlisted byte reads as. -/
def Memory.put (a : Nat) (b : Byte) (rest : Memory) : Memory := if b = Memory.unlisted then rest else (a, b) :: rest

/-- `MemWrite(a, 1, b)` (R12), keeping the canonical form. -/
def Memory.write : Memory → Nat → Byte → Memory
  | [], a, b => Memory.put a b []
  | (a', b') :: rest, a, b =>
    if a < a' then Memory.put a b ((a', b') :: rest)
    else if a = a' then Memory.put a b rest
    else (a', b') :: Memory.write rest a b

/-- One-byte writes, in order (R67). -/
def Memory.writeAll (mem : Memory) (ws : List Host.Cell) : Memory := ws.foldl (fun m w => m.write w.1 w.2) mem

/-- The one-byte writes that put `data` at `a` and up. -/
def cellsAt (a : Nat) : List Byte → List Host.Cell
  | [] => []
  | b :: rest => (a, b) :: cellsAt (a + 1) rest

/-- The `n` bytes at `a` and up. -/
def Memory.readBytes (mem : Memory) (a n : Nat) : List Byte := (List.range n).map fun q => mem.read (a + q)

/-- `MemRead(a, n)`, "composed little-endian: the byte at `addr` is bits [7:0]" (R12, R65). -/
def Memory.readLE (mem : Memory) (a : Nat) : Nat → Nat
  | 0 => 0
  | n + 1 => (mem.read a).toNat + 2 ^ 8 * Memory.readLE mem (a + 1) n

/-- Accept of command word `w` (R232): readback, BUSY, DONE and ERR; nothing else changes. -/
def State.accept (w : Word) (s : State) : State := { s with cmd := w, status := s.status.accept }

/-- `complete(v)`: the command ends with no error and RESULT = v (R13, R233). -/
def State.complete (v : Word) (s : State) : State := { s with result := v, status := s.status.complete 0 }

/-- `raise E`: the command ends with error kind `e` and RESULT = `r`, the `result_on_error` of R233. It is the one way a
command reports an error; there is no trap (R235) and no roll-back of memory (R13). -/
def State.raise (e : ErrorKind) (r : Word) (s : State) : State :=
  { s with result := r, status := s.status.complete e.code }

/-- INIT's writes to the table store, POLY and STATUS.INIT (R113). -/
def State.buildTables (idx : Fin 16) (s : State) : State :=
  { s with store := .built idx, poly := polyOf idx, status := s.status.initialized }

/-- A command's writes to buffer memory. -/
def State.writeAll (ws : List Host.Cell) (s : State) : State := { s with mem := s.mem.writeAll ws }

/-- The reset values of the CSRs, STATUS, the table store and the engine phase (R46); memory, the parameter MEM_BYTES and the
host are not part of the coprocessor. The counter moves on, so that a later unspecified store has new free values. -/
def State.resetRegisters (s : State) : State :=
  { s with
    cmd := 0, status := Status.reset, ie := false, result := 0, k := 0, m := 0, blockBytes := 0, n := 0, src := 0, dst := 0,
    nblk := 0, poly := 0, store := .unspecified s.free, free := s.free + 1 }

/-- The outcome of a command that ends with no error. -/
def finish (v : Word) (s : State) : Host.Outcome State Fault Refusal := .next (s.complete v)

/-- The outcome of a command that ends with an error; `r` is the RESULT on error. -/
def failWith (e : ErrorKind) (r : Word) (s : State) : Host.Outcome State Fault Refusal := .next (s.raise e r)

/-- The first error in the list whose condition holds: "reports the first that holds" (R231). -/
def firstError : List (Bool × ErrorKind) → Option ErrorKind
  | [] => none
  | (c, e) :: rest => if c then some e else firstError rest

/-- A command's body after its checks: the first error ends it with RESULT 0 and no other effect (R231, R233). -/
def checked (check : Option ErrorKind) (s : State) (body : Host.Outcome State Fault Refusal) :
    Host.Outcome State Fault Refusal :=
  match check with
  | some e => failWith e 0 s
  | none => body

end Sys2Proof.Machine
end

