-- ==== Sys2Proof/Syntax.lean ====
section
/-! DEFINITION. The commands of CRS256, one constructor per row of spec/opcode_table.json (R92, R93). -/

namespace Sys2Proof

/-- A command (R92). Operand bytes are field elements; PIDX and IDX are indexes (R91), so they are numbers, and
`Instr.wf` says which of them a command word can hold. -/
inductive Instr where
  /-- INIT, default form: polynomial index 3 (R93). -/
  | init
  /-- INIT p, explicit form: polynomial index PIDX = p (R93); the table's INIT_p. -/
  | initP (p : Nat)
  /-- ADD x, y (R120). -/
  | add (x y : Byte)
  /-- MUL x, y (R121). -/
  | mul (x y : Byte)
  /-- DIV x, y: x / y (R122). -/
  | div (x y : Byte)
  /-- INV x (R123). -/
  | inv (x : Byte)
  /-- EXP idx (R124). -/
  | exp (idx : Nat)
  /-- LOG x (R125). -/
  | log (x : Byte)
  /-- CAUCHY (R151). -/
  | cauchy
  /-- ENCODE (R161). -/
  | encode
  /-- INVERT (R181). -/
  | invert
  /-- DECODE (R202). -/
  | decode
deriving DecidableEq, Repr

end Sys2Proof
end

