-- ==== Sys2Proof/Machine/Operands.lean ====
section
/-! DEFINITION. The operands of the block commands: buffer ranges and layouts (R69 to R72), the checks of each command in the
order of R231, the non-overlap assumptions (R76) and the read and write sets (R75). All arithmetic is exact (R9, R62). -/

namespace Sys2Proof.Machine

/-- The addresses `[base, base + len)`. -/
structure Range where
  base : Nat
  len  : Nat
deriving DecidableEq, Repr

/-- The address `a` lies in the range. -/
def Range.has (r : Range) (a : Nat) : Bool := decide (r.base ≤ a) && decide (a < r.base + r.len)

/-- The range lies in `[0, MEM_BYTES)`; "A range of length 0 is always in range" (R64). -/
def Range.fits (r : Range) (memBytes : Nat) : Bool := r.len == 0 || decide (r.base + r.len ≤ memBytes)

/-- The two ranges share no address. -/
def Range.disjoint (r q : Range) : Bool :=
  r.len == 0 || q.len == 0 || decide (r.base + r.len ≤ q.base) || decide (q.base + q.len ≤ r.base)

/-- Some range of the list has the address `a`. -/
def anyHas (rs : List Range) (a : Nat) : Bool := rs.any fun r => r.has a

/-- A range out of `[0, MEM_BYTES)` (R62, R64). -/
def State.outOfRange (s : State) (r : Range) : Bool := !r.fits s.cfg.memBytes

/-- STATUS.INIT = 0, the cause of UninitializedContext (R230). -/
def State.uninitialized (s : State) : Bool := !s.status.init

/-- "`k ≥ 1`, `m ≥ 1`, `k + m ≤ 256`" does not hold, on exact integers (R9). -/
def State.badBlockCounts (s : State) : Bool := decide (s.k.toNat < 1) || decide (s.m.toNat < 1) || decide (256 < s.k.toNat + s.m.toNat)

/-- "`block_bytes > 0 ∧ block_bytes % 8 == 0`" does not hold (R36). -/
def State.badBlockBytes (s : State) : Bool := s.blockBytes.toNat == 0 || s.blockBytes.toNat % 8 != 0

/-- The null address, 0, stands for an absent buffer (R63). -/
def isNull (a : Word) : Bool := a == 0

/-- The check of MUL, DIV, INV and LOG: UninitializedContext only (R121 to R125). -/
def tableCheck (s : State) : Option ErrorKind := firstError [(s.uninitialized, .uninitializedContext)]

/-- The checks of EXP: IDX first, then INIT (R124, R231). -/
def expCheck (idx : Nat) (s : State) : Option ErrorKind :=
  firstError [(decide (1020 < idx), .invalidParameters), (s.uninitialized, .uninitializedContext)]

/-- CAUCHY's output, `[DST, DST + M·K)` (R75). -/
def State.cauchyOutput (s : State) : Range := ⟨s.dst.toNat, s.m.toNat * s.k.toNat⟩

/-- The checks of CAUCHY (R151). -/
def cauchyCheck (s : State) : Option ErrorKind :=
  firstError
    [(s.badBlockCounts, .invalidParameters), (isNull s.dst, .nullData), (s.uninitialized, .uninitializedContext),
     (s.outOfRange s.cauchyOutput, .addressRange)]

/-- ENCODE's data blocks, `[SRC, SRC + K·BB)` (R71, R75). -/
def State.encodeInput (s : State) : Range := ⟨s.src.toNat, s.k.toNat * s.blockBytes.toNat⟩

/-- ENCODE's recovery buffer, `[DST, DST + M·BB)` (R71, R75). -/
def State.encodeOutput (s : State) : Range := ⟨s.dst.toNat, s.m.toNat * s.blockBytes.toNat⟩

/-- The checks of ENCODE (R160). -/
def encodeCheck (s : State) : Option ErrorKind :=
  firstError
    [(s.badBlockCounts || s.badBlockBytes, .invalidParameters), (isNull s.src || isNull s.dst, .nullData),
     (s.uninitialized, .uninitializedContext),
     (s.outOfRange s.encodeInput || s.outOfRange s.encodeOutput, .addressRange)]

/-- ENCODE breaks its assumption of R76: the read set and the write set are not disjoint. -/
def State.encodeOverlaps (s : State) : Bool := !s.encodeInput.disjoint s.encodeOutput

/-- Address of byte `p` of data block `j` (R71). -/
def State.dataByteAddr (s : State) (j p : Nat) : Nat := s.src.toNat + j * s.blockBytes.toNat + p

/-- Address of byte `p` of recovery block `i` (R71). -/
def State.recoveryByteAddr (s : State) (i p : Nat) : Nat := s.dst.toNat + i * s.blockBytes.toNat + p

/-- INVERT's input, `[SRC, SRC + N·N)` (R75). -/
def State.invertInput (s : State) : Range := ⟨s.src.toNat, s.n.toNat * s.n.toNat⟩

/-- INVERT's output, `[DST, DST + N·N)` (R75). -/
def State.invertOutput (s : State) : Range := ⟨s.dst.toNat, s.n.toNat * s.n.toNat⟩

/-- The checks of INVERT (R180). -/
def invertCheck (s : State) : Option ErrorKind :=
  firstError
    [(decide (s.n.toNat < 1) || decide (256 < s.n.toNat), .invalidParameters), (isNull s.src || isNull s.dst, .nullData),
     (s.uninitialized, .uninitializedContext),
     (s.outOfRange s.invertInput || s.outOfRange s.invertOutput, .addressRange)]

/-- A DECODE block descriptor as the validation pass reads it (R69, R201). -/
structure Descriptor where
  addr    : Nat
  row     : Nat
  present : Bool
deriving DecidableEq, Repr

/-- Address of descriptor `i` of the table at `tab`: `d_s = SRC + 8·s` (R69). -/
def descriptorAddr (tab i : Nat) : Nat := tab + 8 * i

/-- Descriptor `i` of the table at `tab`: ADDR little-endian at +0, ROW at +4, PRESENT = bit 0 of FLAGS at +5 (R69, R201). -/
def Memory.descriptor (mem : Memory) (tab i : Nat) : Descriptor where
  addr := mem.readLE (descriptorAddr tab i) 4
  row := (mem.read (descriptorAddr tab i + 4)).toNat
  present := (mem.read (descriptorAddr tab i + 5)).getLsbD 0

/-- The descriptor table, NBLK descriptors from SRC (R69, R201). -/
def State.descriptors (s : State) : List Descriptor :=
  (List.range s.nblk.toNat).map fun i => s.mem.descriptor s.src.toNat i

/-- DECODE's table, `[SRC, SRC + 8·NBLK)` (R75). -/
def State.tableRange (s : State) : Range := ⟨s.src.toNat, 8 * s.nblk.toNat⟩

/-- `tab + 8*nb > MEM_BYTES` (R201): the table ends past memory. The test is R201's own for every NBLK, also 0, where R64's
sentence on ranges of length 0 differs once SRC is above MEM_BYTES (log 15). -/
def State.tablePastEnd (s : State) : Bool := decide (s.cfg.memBytes < s.src.toNat + 8 * s.nblk.toNat)

/-- A descriptor's payload, `[ADDR, ADDR + BB)` (R69). -/
def Descriptor.payload (bb : Nat) (d : Descriptor) : Range := ⟨d.addr, bb⟩

/-- The parameter checks of DECODE (R200). -/
def decodeParamCheck (s : State) : Option ErrorKind :=
  firstError
    [(s.badBlockCounts || s.badBlockBytes, .invalidParameters), (isNull s.src, .nullData),
     (s.uninitialized, .uninitializedContext)]

/-- The checks of DECODE's validation pass: the table, then every payload, present or empty (R201). -/
def decodeRangeCheck (s : State) : Option ErrorKind :=
  firstError
    [(s.tablePastEnd, .addressRange),
     (s.descriptors.any fun d => s.outOfRange (d.payload s.blockBytes.toNat), .addressRange)]

/-- The first of two checks that fails. -/
def orElseCheck (first second : Option ErrorKind) : Option ErrorKind :=
  match first with
  | some e => some e
  | none => second

/-- All checks of DECODE before its steps (R200, R201, R231). -/
def decodeCheck (s : State) : Option ErrorKind := orElseCheck (decodeParamCheck s) (decodeRangeCheck s)

/-- No two of the ranges share an address. -/
def pairwiseDisjoint : List Range → Bool
  | [] => true
  | r :: rest => (rest.all fun q => r.disjoint q) && pairwiseDisjoint rest

/-- The payload ranges of the present descriptors. -/
def presentPayloads (bb : Nat) (ds : List Descriptor) : List Range :=
  (ds.filter fun d => d.present).map fun d => d.payload bb

/-- The payload ranges of the empty descriptors (PRESENT = 0). -/
def emptyPayloads (bb : Nat) (ds : List Descriptor) : List Range :=
  (ds.filter fun d => !d.present).map fun d => d.payload bb

/-- DECODE breaks its assumption of R76: "the payload ranges of the empty slots are pairwise disjoint, and disjoint from the
descriptor table and from every present payload". -/
def State.decodeOverlaps (s : State) : Bool :=
  !(pairwiseDisjoint (emptyPayloads s.blockBytes.toNat s.descriptors) &&
    ((emptyPayloads s.blockBytes.toNat s.descriptors).all fun e =>
      (s.tableRange :: presentPayloads s.blockBytes.toNat s.descriptors).all fun r => e.disjoint r))

/-- The ROW and FLAGS bytes of descriptor `i`, at +4 and +5 (R75). -/
def rowAndFlags (tab i : Nat) : Range := ⟨descriptorAddr tab i + 4, 2⟩

/-- The slots of the empty descriptors, in table order. -/
def emptySlots (ds : List Descriptor) : List Nat :=
  (List.range ds.length).filter fun i => !(ds.getD i ⟨0, 0, true⟩).present

/-- The ranges `rs` if the check passes, none otherwise: "A command that fails before its range check passes accesses no
memory" (R75). -/
def rangesIf (check : Option ErrorKind) (rs : List Range) : List Range :=
  match check with
  | some _ => []
  | none => rs

/-- The read set of a command (R75). DECODE reads the table once its parameters and the table's range have passed. -/
def readSet (i : Instr) (s : State) : List Range :=
  match i with
  | .init => []
  | .initP _ => []
  | .add _ _ => []
  | .mul _ _ => []
  | .div _ _ => []
  | .inv _ => []
  | .exp _ => []
  | .log _ => []
  | .cauchy => []
  | .encode => rangesIf (encodeCheck s) [s.encodeInput]
  | .invert => rangesIf (invertCheck s) [s.invertInput]
  | .decode =>
    rangesIf (orElseCheck (decodeParamCheck s) (firstError [(s.tablePastEnd, .addressRange)])) [s.tableRange] ++
      rangesIf (decodeCheck s) (presentPayloads s.blockBytes.toNat s.descriptors)

/-- The write set of a command (R75). -/
def writeSet (i : Instr) (s : State) : List Range :=
  match i with
  | .init => []
  | .initP _ => []
  | .add _ _ => []
  | .mul _ _ => []
  | .div _ _ => []
  | .inv _ => []
  | .exp _ => []
  | .log _ => []
  | .cauchy => rangesIf (cauchyCheck s) [s.cauchyOutput]
  | .encode => rangesIf (encodeCheck s) [s.encodeOutput]
  | .invert => rangesIf (invertCheck s) [s.invertOutput]
  | .decode =>
    rangesIf (decodeCheck s)
      ((emptySlots s.descriptors).map (rowAndFlags s.src.toNat) ++ emptyPayloads s.blockBytes.toNat s.descriptors)

end Sys2Proof.Machine
end

