-- ==== Sys2Proof/Machine/CauchyGen.lean ====
section
/-! DEFINITION. The Cauchy matrix generator: CAUCHY (R151). -/

namespace Sys2Proof.Machine

/-- The writes of an `rows` × `cols` matrix, row-major at `base` (R72). -/
def matrixCells (base rows cols : Nat) (f : Nat → Nat → Byte) : List Host.Cell :=
  (List.range rows).flatMap fun r => (List.range cols).map fun c => (base + r * cols + c, f r c)

/-- CAUCHY's writes: the M × K Cauchy matrix at DST (R151). -/
def State.cauchyCells (s : State) : List Host.Cell :=
  matrixCells s.dst.toNat s.m.toNat s.k.toNat fun i j => cauchyEntry s.store s.k.toNat i j

/-- CAUCHY (R151). -/
def execCauchy (s : State) : Host.Outcome State Fault Refusal :=
  checked (cauchyCheck s) s (finish 0 (s.writeAll s.cauchyCells))

end Sys2Proof.Machine
end

