-- ==== Sys2Proof/Machine/Decoder.lean ====
section
/-! DEFINITION. The Reed-Solomon decoder: DECODE (R200 to R207). Payload bytes are those at accept. R76 keeps present payloads
apart from the payloads that DECODE writes, not from the ROW and FLAGS bytes it writes: `State.installReachesPayload` is the
case it leaves open, which is refused (log 19). Descriptors are those the validation pass read. -/

namespace Sys2Proof.Machine

/-- A present descriptor that carries row `row`. -/
def Descriptor.carries (row : Nat) (d : Descriptor) : Bool := d.present && d.row == row

/-- `missing[i]`: no present descriptor has row `i` (R203). -/
def rowMissing (ds : List Descriptor) (i : Nat) : Bool := !ds.any fun d => d.carries i

/-- `missing_indices`, in increasing order (R203). -/
def missingRows (k : Nat) (ds : List Descriptor) : List Nat := (List.range k).filter fun i => rowMissing ds i

/-- The data rows that are not missing, in increasing order. -/
def presentRows (k : Nat) (ds : List Descriptor) : List Nat := (List.range k).filter fun i => !rowMissing ds i

/-- The payload address of data row `l`: that of the lowest present descriptor with that row, `dataslot[l]` (R203). -/
def dataAddr (ds : List Descriptor) (l : Nat) : Nat :=
  match ds.find? fun d => d.carries l with
  | some d => d.addr
  | none => 0

/-- A recovery row collected by step 3: `rec[t]` and the payload address of `recslot[t]` (R205). -/
structure Recovery where
  row  : Nat
  addr : Nat
deriving DecidableEq, Repr

/-- The descriptor holds a recovery row that is not collected yet (R205). -/
def Descriptor.collectable (k m : Nat) (got : List Recovery) (d : Descriptor) : Bool :=
  d.present && decide (k ≤ d.row) && decide (d.row < k + m) && !got.any fun r => r.row == d.row - k

/-- Step 3: scan the descriptors in order until `mc` distinct recovery rows are collected (R205). -/
def collectRecovery (k m mc : Nat) : List Descriptor → List Recovery → List Recovery
  | [], got => got
  | d :: rest, got =>
    if got.length = mc then got
    else if d.collectable k m got then collectRecovery k m mc rest (got ++ [⟨d.row - k, d.addr⟩])
    else collectRecovery k m mc rest got

/-- The recovery rows that DECODE uses. -/
def recoveryRows (k m : Nat) (ds : List Descriptor) : List Recovery :=
  collectRecovery k m (missingRows k ds).length ds []

/-- `rec[t]` and `recslot[t]`. -/
def recoveryAt (rs : List Recovery) (t : Nat) : Recovery := rs.getD t ⟨0, 0⟩

/-- `S[t][u] = M[rec[t]][missing_indices[u]]` (R206). -/
def submatrix (st : Store) (k : Nat) (rs : List Recovery) (missing : List Nat) : Mat :=
  Mat.build missing.length missing.length fun t u => cauchyEntry st k (recoveryAt rs t).row (missing.getD u 0)

/-- Byte `p` of `rt`: the t-th recovery payload less the contribution of every present data block (R207). -/
def residualByte (st : Store) (mem : Memory) (k : Nat) (ds : List Descriptor) (r : Recovery) (p : Nat) : Byte :=
  (presentRows k ds).foldl
    (fun acc l => gfAccumulate st (cauchyEntry st k r.row l) (mem.read (dataAddr ds l + p)) acc) (mem.read (r.addr + p))

/-- Byte `p` of `acc` for missing column `u`: `S_inv[u][t] · rt` added up over t (R207, C7). -/
def rebuiltByte (st : Store) (mem : Memory) (k : Nat) (ds : List Descriptor) (rs : List Recovery) (sinv : Mat) (u p : Nat) :
    Byte :=
  (List.range rs.length).foldl
    (fun acc t => gfAccumulate st (sinv.get u t) (residualByte st mem k ds (recoveryAt rs t) p) acc) 0

/-- One install (R207): the payload through the slot's ADDR, then ROW and FLAGS = 0x01. -/
def installCells (tab slot addr row : Nat) (payload : List Byte) : List Host.Cell :=
  cellsAt addr payload ++ [(descriptorAddr tab slot + 4, BitVec.ofNat 8 row), (descriptorAddr tab slot + 5, 0x01)]

/-- The slot that missing column `u` is installed in: "Block u goes into the u-th empty slot of the table at accept" (R207). -/
def installSlot (ds : List Descriptor) (u : Nat) : Nat := (emptySlots ds).getD u 0

/-- How many blocks can be installed: one for each missing row, as long as there are empty slots (R207). -/
def installCount (k : Nat) (ds : List Descriptor) : Nat := min (missingRows k ds).length (emptySlots ds).length

/-- The payloads that step 6 reads: those of the data rows that are not missing, and those of the collected recovery rows (R207). -/
def State.payloadsRead (s : State) : List Range :=
  ((presentRows s.k.toNat s.descriptors).map fun l => ⟨dataAddr s.descriptors l, s.blockBytes.toNat⟩) ++
    (recoveryRows s.k.toNat s.m.toNat s.descriptors).map fun r => ⟨r.addr, s.blockBytes.toNat⟩

/-- The ROW or FLAGS byte of an install lies in a payload that is read again for a later block. R76 does not exclude it; R207
would read the installed byte and R208 the byte at accept (log 19). -/
def State.installReachesPayload (s : State) : Bool :=
  (List.range (installCount s.k.toNat s.descriptors - 1)).any fun u =>
    s.payloadsRead.any fun r => !(rowAndFlags s.src.toNat (installSlot s.descriptors u)).disjoint r

/-- The payload rebuilt for missing column `u`, from the bytes at accept: where R207 would read others, the command is refused
(log 19). -/
def State.rebuiltPayload (s : State) (sinv : Mat) (u : Nat) : List Byte :=
  (List.range s.blockBytes.toNat).map fun p =>
    rebuiltByte s.store s.mem s.k.toNat s.descriptors (recoveryRows s.k.toNat s.m.toNat s.descriptors) sinv u p

/-- The writes of the install of missing column `u` (R207). -/
def State.installCellsAt (s : State) (sinv : Mat) (u : Nat) : List Host.Cell :=
  installCells s.src.toNat (installSlot s.descriptors u) (s.descriptors.getD (installSlot s.descriptors u) ⟨0, 0, true⟩).addr
    ((missingRows s.k.toNat s.descriptors).getD u 0) (s.rebuiltPayload sinv u)

/-- All the writes of DECODE, in the order of the installs (R207). -/
def State.decodeCells (s : State) (sinv : Mat) : List Host.Cell :=
  (List.range (installCount s.k.toNat s.descriptors)).flatMap fun u => s.installCellsAt sinv u

/-- Step 6: install what fits; BlockBuffer, with the installs kept and counted, when the empty slots run out (R207). Refused,
as I6 and D37 say of outputs over inputs, when an install reaches a payload still to be read (log 19). -/
def decodeInstall (s : State) (sinv : Mat) : Host.Outcome State Fault Refusal :=
  if s.installReachesPayload then .refused .overlappingBuffers
  else if (emptySlots s.descriptors).length < (missingRows s.k.toNat s.descriptors).length then
    failWith .blockBuffer (BitVec.ofNat 32 (installCount s.k.toNat s.descriptors)) (s.writeAll (s.decodeCells sinv))
  else finish (BitVec.ofNat 32 (installCount s.k.toNat s.descriptors)) (s.writeAll (s.decodeCells sinv))

/-- Steps 4 and 5: invert the submatrix (R206). -/
def decodeSolve (s : State) : Host.Outcome State Fault Refusal :=
  match gfInvert s.store (missingRows s.k.toNat s.descriptors).length
      (submatrix s.store s.k.toNat (recoveryRows s.k.toNat s.m.toNat s.descriptors) (missingRows s.k.toNat s.descriptors)) with
  | none => failWith .matrixOperation 0 s
  | some sinv => decodeInstall s sinv

/-- Steps 1 to 3: nothing missing ends the command (R204); too few recovery rows is InsufficientBlocks (R205). -/
def decodeBody (s : State) : Host.Outcome State Fault Refusal :=
  if (missingRows s.k.toNat s.descriptors).length = 0 then finish 0 s
  else if (recoveryRows s.k.toNat s.m.toNat s.descriptors).length < (missingRows s.k.toNat s.descriptors).length then
    failWith .insufficientBlocks 0 s
  else decodeSolve s

/-- DECODE (R200 to R207); refused when its buffers overlap (R76), also when no row is missing (log 16). -/
def execDecode (s : State) : Host.Outcome State Fault Refusal :=
  checked (decodeCheck s) s (if s.decodeOverlaps then .refused .overlappingBuffers else decodeBody s)

end Sys2Proof.Machine
end

