-- ==== Sys2Proof/Machine/Encoder.lean ====
section
/-! DEFINITION. The Reed-Solomon encoder: ENCODE (R160, R161). -/

namespace Sys2Proof.Machine

/-- Byte `p` of recovery block `i`: the zeroed byte with the k columns accumulated into it in order (R161). The data bytes are
those at accept, which R76 keeps apart from the recovery buffer. -/
def State.parityByte (s : State) (i p : Nat) : Byte :=
  (List.range s.k.toNat).foldl
    (fun acc j => gfAccumulate s.store (cauchyEntry s.store s.k.toNat i j) (s.mem.read (s.dataByteAddr j p)) acc) 0

/-- ENCODE's writes: recovery block after recovery block (R161, R71). -/
def State.encodeCells (s : State) : List Host.Cell :=
  matrixCells s.dst.toNat s.m.toNat s.blockBytes.toNat fun i p => s.parityByte i p

/-- ENCODE (R160, R161); refused when its buffers overlap (R76). -/
def execEncode (s : State) : Host.Outcome State Fault Refusal :=
  checked (encodeCheck s) s
    (if s.encodeOverlaps then .refused .overlappingBuffers else finish 0 (s.writeAll s.encodeCells))

end Sys2Proof.Machine
end

