-- ==== Sys2Proof/Machine/Inverter.lean ====
section
/-! DEFINITION. The Gauss-Jordan inverter: INVERT (R180, R181). -/

namespace Sys2Proof.Machine

/-- The N × N input matrix, row-major at SRC (R72), all of it read before any write (R181). -/
def State.invertMatrix (s : State) : Mat :=
  Mat.build s.n.toNat s.n.toNat fun r c => s.mem.read (s.src.toNat + r * s.n.toNat + c)

/-- The writes of INVERT: the inverse `b`, row-major at DST (R181). -/
def State.invertCells (s : State) (b : Mat) : List Host.Cell :=
  matrixCells s.dst.toNat s.n.toNat s.n.toNat fun r c => b.get r c

/-- INVERT after its checks: MatrixOperation, with no byte of DST written, when the matrix is singular (R181). It reads INVT and
MULT as R181's pseudocode does, although R184 says that INVERT does not read the table store (DEDUCED, log 20). -/
def invertBody (s : State) : Host.Outcome State Fault Refusal :=
  match gfInvert s.store s.n.toNat s.invertMatrix with
  | none => failWith .matrixOperation 0 s
  | some b => finish 0 (s.writeAll (s.invertCells b))

/-- INVERT (R180, R181); SRC and DST may overlap in any way (R76). -/
def execInvert (s : State) : Host.Outcome State Fault Refusal := checked (invertCheck s) s (invertBody s)

end Sys2Proof.Machine
end

