-- ==== Sys2Proof/Machine/Scalar.lean ====
section
/-! DEFINITION. The GF(256) arithmetic family: INIT, ADD, MUL, DIV, INV, EXP, LOG (R113, R120 to R125). -/

namespace Sys2Proof.Machine

/-- The polynomial index of the explicit form: PIDX is a four-bit field (R91), so a well-formed `p` is below 16. -/
def polyIndexOf (p : Nat) : Fin 16 := Fin.ofNat 16 p

/-- INIT from index `idx`: build the tables, POLY, STATUS.INIT; RESULT = poly (R113). -/
def initWith (idx : Fin 16) (s : State) : Host.Outcome State Fault Refusal :=
  finish ((polyOf idx).setWidth 32) (s.buildTables idx)

/-- INIT, default form (R113). -/
def execInit (s : State) : Host.Outcome State Fault Refusal := initWith defaultPolyIndex s

/-- INIT p, explicit form (R113). -/
def execInitP (p : Nat) (s : State) : Host.Outcome State Fault Refusal := initWith (polyIndexOf p) s

/-- ADD (R120): needs no INIT. -/
def execAdd (x y : Byte) (s : State) : Host.Outcome State Fault Refusal := finish ((gfAdd x y).setWidth 32) s

/-- MUL (R121). -/
def execMul (x y : Byte) (s : State) : Host.Outcome State Fault Refusal :=
  checked (tableCheck s) s (finish ((gfMul s.store x y).setWidth 32) s)

/-- DIV (R122): division by zero raises no error. -/
def execDiv (x y : Byte) (s : State) : Host.Outcome State Fault Refusal :=
  checked (tableCheck s) s (finish ((gfDiv s.store x y).setWidth 32) s)

/-- INV (R123). -/
def execInv (x : Byte) (s : State) : Host.Outcome State Fault Refusal :=
  checked (tableCheck s) s (finish ((gfInv s.store x).setWidth 32) s)

/-- EXP (R124). -/
def execExp (idx : Nat) (s : State) : Host.Outcome State Fault Refusal :=
  checked (expCheck idx s) s (finish ((s.store.exp idx).setWidth 32) s)

/-- LOG (R125): a 10-bit entry, zero-extended. -/
def execLog (x : Byte) (s : State) : Host.Outcome State Fault Refusal :=
  checked (tableCheck s) s (finish ((s.store.log x).setWidth 32) s)

end Sys2Proof.Machine
end

