-- ==== Sys2Proof/Machine/Dispatch.lean ====
section
/-! DEFINITION. The meaning of every command: `exec i s` is the core's complete step of command `i` (R233, R275). -/

namespace Sys2Proof.Machine

def exec (i : Instr) (s : State) : Host.Outcome State Fault Refusal :=
  match i with
  | .init => Sys2Proof.Machine.execInit s
  | .initP p => Sys2Proof.Machine.execInitP p s
  | .add x y => Sys2Proof.Machine.execAdd x y s
  | .mul x y => Sys2Proof.Machine.execMul x y s
  | .div x y => Sys2Proof.Machine.execDiv x y s
  | .inv x => Sys2Proof.Machine.execInv x s
  | .exp idx => Sys2Proof.Machine.execExp idx s
  | .log x => Sys2Proof.Machine.execLog x s
  | .cauchy => Sys2Proof.Machine.execCauchy s
  | .encode => Sys2Proof.Machine.execEncode s
  | .invert => Sys2Proof.Machine.execInvert s
  | .decode => Sys2Proof.Machine.execDecode s

end Sys2Proof.Machine
end

