-- ==== Sys2Proof/WellFormed.lean ====
section
/-! DEFINITION. Which terms of `Instr` a command word can hold (R91, R99). -/

namespace Sys2Proof

/-- "`INIT p`, with p from 0 to 15" (R99): PIDX has four bits. -/
def polyIndexFits (p : Nat) : Bool := p < 16

/-- "`EXP i` takes i from 0 to 65535" (R99): IDX has sixteen bits. -/
def expIndexFits (idx : Nat) : Bool := idx < 65536

/-- The operands fit their fields. -/
def Instr.wf : Instr → Bool
  | .init => true
  | .initP p => polyIndexFits p
  | .add _ _ => true
  | .mul _ _ => true
  | .div _ _ => true
  | .inv _ => true
  | .exp idx => expIndexFits idx
  | .log _ => true
  | .cauchy => true
  | .encode => true
  | .invert => true
  | .decode => true

end Sys2Proof
end

