-- ==== Sys2Proof/Decode.lean ====
section
/-! DEFINITION. From a command word to a command (R98) and back (R93 to R95). -/

namespace Sys2Proof

/-- Why a command word is illegal (R96). -/
inductive IllegalWord where
  /-- Bits 31:29 are not 0 (R91). -/
  | reservedBits
  /-- A field that R92 says must be 0 is not 0. -/
  | fieldMustBeZero
  /-- OPC is one of the reserved values of R92. -/
  | reservedOpcode
deriving DecidableEq, Repr

/-- `v[hi:lo]`, "the bit field from bit `hi` down to bit `lo`, inclusive, read as an unsigned number" (R8). -/
def bits (w : Word) (hi lo : Nat) : Nat := w.toNat / 2 ^ lo % 2 ^ (hi + 1 - lo)

/-- The operand byte X, `cmd[15:8]` (R91). -/
def operandX (w : Word) : Byte := BitVec.ofNat 8 (bits w 15 8)

/-- The operand byte Y, `cmd[23:16]` (R91). -/
def operandY (w : Word) : Byte := BitVec.ofNat 8 (bits w 23 16)

/-- The INIT forms: "each index has exactly one spelling other than index 3, which has two" (R93). -/
def decodeInit (w : Word) : Except IllegalWord Instr :=
  if bits w 23 8 ≠ 0 then .error .fieldMustBeZero
  else if bits w 28 28 = 0 then
    if bits w 27 24 ≠ 0 then .error .fieldMustBeZero else .ok .init
  else .ok (.initP (bits w 27 24))

/-- The form {0x00, Y, X, OPC} (R94). -/
def decodeXY (w : Word) (mk : Byte → Byte → Instr) : Except IllegalWord Instr :=
  if bits w 28 24 ≠ 0 then .error .fieldMustBeZero else .ok (mk (operandX w) (operandY w))

/-- The form {0x0000, X, OPC} (R94). -/
def decodeX (w : Word) (mk : Byte → Instr) : Except IllegalWord Instr :=
  if bits w 28 16 ≠ 0 then .error .fieldMustBeZero else .ok (mk (operandX w))

/-- The form {0x00, IDX, OPC} (R94). -/
def decodeIdx (w : Word) : Except IllegalWord Instr :=
  if bits w 28 24 ≠ 0 then .error .fieldMustBeZero else .ok (.exp (bits w 23 8))

/-- The block forms: bits 31:8 are 0 (R95). -/
def decodeBlock (w : Word) (i : Instr) : Except IllegalWord Instr :=
  if bits w 28 8 ≠ 0 then .error .fieldMustBeZero else .ok i

/-- The decode procedure of R98, total on 32-bit words. -/
def decode (w : Word) : Except IllegalWord Instr :=
  if bits w 31 29 ≠ 0 then .error .reservedBits
  else if bits w 7 0 = 0x01 then decodeInit w
  else if bits w 7 0 = 0x10 then decodeXY w .add
  else if bits w 7 0 = 0x11 then decodeXY w .mul
  else if bits w 7 0 = 0x12 then decodeXY w .div
  else if bits w 7 0 = 0x13 then decodeX w .inv
  else if bits w 7 0 = 0x14 then decodeIdx w
  else if bits w 7 0 = 0x15 then decodeX w .log
  else if bits w 7 0 = 0x20 then decodeBlock w .cauchy
  else if bits w 7 0 = 0x30 then decodeBlock w .encode
  else if bits w 7 0 = 0x40 then decodeBlock w .invert
  else if bits w 7 0 = 0x50 then decodeBlock w .decode
  else .error .reservedOpcode

/-- A word from its top byte (31:24), its operand field (23:8) and OPC (7:0); the three do not overlap (R91). -/
def commandWord (top operands opc : Nat) : Word := BitVec.ofNat 32 (top * 2 ^ 24 + operands * 2 ^ 8 + opc)

/-- The two operand bytes in place: `{Y, X}` (R91). -/
def pairXY (x y : Byte) : Nat := y.toNat * 2 ^ 8 + x.toNat

/-- The command word of a command (R93 to R95); a well-formed command decodes from it. -/
def encode : Instr → Word
  | .init => commandWord 0x00 0 0x01
  | .initP p => commandWord (0x10 + p) 0 0x01
  | .add x y => commandWord 0x00 (pairXY x y) 0x10
  | .mul x y => commandWord 0x00 (pairXY x y) 0x11
  | .div x y => commandWord 0x00 (pairXY x y) 0x12
  | .inv x => commandWord 0x00 x.toNat 0x13
  | .exp idx => commandWord 0x00 idx 0x14
  | .log x => commandWord 0x00 x.toNat 0x15
  | .cauchy => commandWord 0x00 0 0x20
  | .encode => commandWord 0x00 0 0x30
  | .invert => commandWord 0x00 0 0x40
  | .decode => commandWord 0x00 0 0x50

/-- The `nbits` low bits of `w` as a command word: every bit above them is 0. -/
def tableWord (nbits w : Nat) : Word := BitVec.ofNat 32 (w % 2 ^ nbits)

/-- The command this decoder reads from a word numbered as spec/opcode_table.json numbers it. -/
def decodeTableWord (nbits w : Nat) : Option Instr :=
  match decode (tableWord nbits w) with
  | .ok i => some i
  | .error _ => none

end Sys2Proof
end

