-- ==== Sys2Proof/Machine/Csr.lean ====
section
/-! DEFINITION. The CSR window: the map of R24, reads (R23), writes (R42) and the protocol of R22. -/

namespace Sys2Proof.Machine

/-- The mapped CSRs (R24). -/
inductive Csr where
  | cmd | status | ctrl | result | k | m | blockBytes | n | src | dst | nblk | poly
deriving DecidableEq, Repr

/-- The CSR at a byte offset; 0x30 to 0x3C are unmapped (R23, R24). -/
def csrAt (off : Nat) : Option Csr :=
  if off = 0x00 then some .cmd
  else if off = 0x04 then some .status
  else if off = 0x08 then some .ctrl
  else if off = 0x0C then some .result
  else if off = 0x10 then some .k
  else if off = 0x14 then some .m
  else if off = 0x18 then some .blockBytes
  else if off = 0x1C then some .n
  else if off = 0x20 then some .src
  else if off = 0x24 then some .dst
  else if off = 0x28 then some .nblk
  else if off = 0x2C then some .poly
  else none

/-- "Each access is a 32-bit read or write at a byte offset that is a multiple of 4 in `0x00` to `0x3C`" (R22). -/
def csrAccessAllowed (off width : Nat) : Bool := width == 4 && off % 4 == 0 && decide (off ≤ 0x3C)

/-- What a read of a mapped CSR returns; reserved bits read 0 (R23 to R41). -/
def State.csr (s : State) : Csr → Word
  | .cmd => s.cmd
  | .status => s.status.word
  | .ctrl => BitVec.ofNat 32 (flagBit s.ie 0)
  | .result => s.result
  | .k => s.k
  | .m => s.m
  | .blockBytes => s.blockBytes
  | .n => s.n
  | .src => s.src
  | .dst => s.dst
  | .nblk => s.nblk
  | .poly => s.poly.setWidth 32

/-- What a read at an offset returns: 0 at an unmapped one (R23). -/
def State.readCsr (s : State) (off : Nat) : Word :=
  match csrAt off with
  | some c => s.csr c
  | none => 0

/-- A write to a mapped CSR other than STATUS while BUSY = 0: CMD accepts the word (R232), CTRL keeps bit 0 (R32), RESULT and
POLY are read-only (R33, R41), and a parameter CSR takes every value (R34 to R39). -/
def State.writeIdle (c : Csr) (v : Word) (s : State) : State :=
  match c with
  | .cmd => s.accept v
  | .status => s
  | .ctrl => { s with ie := v.getLsbD 0 }
  | .result => s
  | .k => { s with k := v }
  | .m => { s with m := v }
  | .blockBytes => { s with blockBytes := v }
  | .n => { s with n := v }
  | .src => { s with src := v }
  | .dst => { s with dst := v }
  | .nblk => { s with nblk := v }
  | .poly => s

/-- A write to STATUS, always performed (R26, R42). -/
def State.writeStatus (v : Word) (s : State) : State := { s with status := s.status.hostWrite v }

/-- A write that is ignored because BUSY = 1; it sets WIGN (R42). -/
def State.ignoreWrite (s : State) : State := { s with status := s.status.writeIgnored }

/-- A host write to the CSR window (R23, R42). -/
def State.writeCsr (off : Nat) (v : Word) (s : State) : State :=
  match csrAt off with
  | none => s
  | some c => if c = .status then s.writeStatus v else if s.status.busy then s.ignoreWrite else s.writeIdle c v

end Sys2Proof.Machine
end

