-- ==== Sys2Proof/Machine/HostPort.lean ====
section
/-! DEFINITION. What the world outside the core does: the host's actions (R100), its duties while BUSY (R79), and reset (R260, R261). -/

namespace Sys2Proof.Machine

/-- The read set of the command in flight; none while idle or when the word is illegal (R75, R96). -/
def State.readSetInFlight (s : State) : List Range :=
  if s.status.busy then
    match decode s.cmd with
    | .ok i => readSet i s
    | .error _ => []
  else []

/-- The write set of the command in flight (R75, R96). -/
def State.writeSetInFlight (s : State) : List Range :=
  if s.status.busy then
    match decode s.cmd with
    | .ok i => writeSet i s
    | .error _ => []
  else []

/-- Some byte of `[a, a + n)` lies in one of the ranges. -/
def touches (a n : Nat) (rs : List Range) : Bool := rs.any fun r => !r.disjoint ⟨a, n⟩

/-- The host binds `name` to a value it has read (R100); an earlier value of that name is replaced. -/
def State.bind (name : String) (v : HostValue) (s : State) : State :=
  { s with bindings := (name, v) :: s.bindings.filter fun b => b.1 != name }

/-- `WR off, v` (R100, R22). -/
def hostWrite (off width : Nat) (v : Word) (s : State) : Host.Outcome State Fault Refusal :=
  if csrAccessAllowed off width then .next (s.writeCsr off v) else .refused .outsideCsrProtocol

/-- `RD off -> name` (R100, R22). -/
def hostRead (off width : Nat) (name : String) (s : State) : Host.Outcome State Fault Refusal :=
  if csrAccessAllowed off width then .next (s.bind name (.word (s.readCsr off))) else .refused .outsideCsrProtocol

/-- `MEMW a, data` (R100): not in the read or write set of the command in flight (R79), and inside memory (R60). -/
def hostMemWrite (a : Nat) (data : List Byte) (s : State) : Host.Outcome State Fault Refusal :=
  if s.outOfRange ⟨a, data.length⟩ then .fault .noSuchAddress
  else if touches a data.length (s.readSetInFlight ++ s.writeSetInFlight) then .refused .buffersInUse
  else .next (s.writeAll (cellsAt a data))

/-- `MEMR a, n -> name` (R100): not in the write set of the command in flight (R79), and inside memory (R60). After complete it
returns what the command wrote, also when the host has not yet read a STATUS that shows the completion: there R78 promises
nothing and R266 allows no read (DESIGN CHOICE, log 21). -/
def hostMemRead (a n : Nat) (name : String) (s : State) : Host.Outcome State Fault Refusal :=
  if s.outOfRange ⟨a, n⟩ then .fault .noSuchAddress
  else if touches a n s.writeSetInFlight then .refused .buffersInUse
  else .next (s.bind name (.bytes (s.mem.readBytes a n)))

/-- One poll of `WAIT` (R100): `RD 0x04 -> s`; the action stays until the value read has BUSY = 0. -/
def hostPoll (s : State) (rest : List HostAction) : State :=
  let polled := s.bind "s" (.word (s.readCsr 0x04))
  if s.status.busy then polled else { polled with host := rest }

/-- The host's step: its next action, or nothing when it has none left. -/
def hostTurn (s : State) : Host.Outcome State Fault Refusal :=
  match s.host with
  | [] => .next s
  | .wr off width v :: rest => hostWrite off width v { s with host := rest }
  | .rd off width name :: rest => hostRead off width name { s with host := rest }
  | .memw a data :: rest => hostMemWrite a data { s with host := rest }
  | .memr a n name :: rest => hostMemRead a n name { s with host := rest }
  | .wait :: rest => .next (hostPoll s rest)

/-- `CMD c` is `WR 0x00, enc(c)` (R100). -/
def hostCmd (i : Instr) : HostAction := .wr 0x00 4 (encode i)

/-- `RUN c` is `CMD c; WAIT` (R100). -/
def hostRun (i : Instr) : List HostAction := [hostCmd i, .wait]

/-- The writes that leave every byte of the ranges with a free value. -/
def freeCells (free : Nat) (rs : List Range) : List Host.Cell :=
  rs.flatMap fun r => (List.range r.len).map fun q => (r.base + q, Config.abandonedByte free (r.base + q))

/-- Reset (R260): the registers take their reset values; the bytes of the write set of a command in flight are unspecified, all
others are unchanged (R261). A command that its complete would have refused is abandoned in the same way: the refusals of R76 and
log 19 are made at complete only (DESIGN CHOICE, log 22). -/
def resetTurn (s : State) : State := (s.writeAll (freeCells s.free s.writeSetInFlight)).resetRegisters

end Sys2Proof.Machine
end

