-- ==== Sys2Proof/Machine/Agents.lean ====
section
/-! DEFINITION. The core's step, and whose step it is (R3, R275). -/

namespace Sys2Proof.Machine

/-- The core's only step, the complete of the command in flight (R275): the command word of CMD is decoded and run; an illegal
word completes with IllegalCommand and RESULT 0 (R96). "While idle it does nothing" (R240). -/
def coreTurn (s : State) : Host.Outcome State Fault Refusal :=
  if s.status.busy then
    match decode s.cmd with
    | .ok i => exec i s
    | .error _ => failWith .illegalCommand 0 s
  else .next s

/-- Whose turn it is: the first of the turns still given; when none is left, the core's while a command is in flight, so that
every accepted command completes (the fairness of R275), else the host's. -/
def State.mover (s : State) : Turn :=
  match s.turns with
  | t :: _ => t
  | [] => if s.status.busy then .core else .host

/-- The state with the turn taken from the list. -/
def State.takeTurn (s : State) : State := { s with turns := s.turns.tail }

/-- One model step: "Each is a host access, a core complete, or a reset" (R275). -/
def modelStep (s : State) : Host.Outcome State Fault Refusal :=
  match s.mover with
  | .host => hostTurn s.takeTurn
  | .core => coreTurn s.takeTurn
  | .reset => .next (resetTurn s.takeTurn)

/-- The state with command word `w` accepted (R232) and the next turn the core's: the very next step runs it. -/
def State.present (w : Word) (s : State) : State := { s.accept w with turns := .core :: s.turns }

end Sys2Proof.Machine
end

