-- ==== Sys2Proof/Machine/Step.lean ====
section
/-! DEFINITION. One step of the machine, and how a command word is placed so that the next step runs it (log 17). -/

namespace Sys2Proof.Machine

/-- One step (R275). -/
def step (s : State) : Host.Outcome State Fault Refusal := Sys2Proof.Machine.modelStep s

/-- The state whose next step runs the command word that the `nbits` low bits of `w` give (log 17). -/
def State.withFetchWord (s : State) (nbits w : Nat) : State := s.present (tableWord nbits w)

end Sys2Proof.Machine
end

