-- ==== Sys2Proof/Safety.lean ====
section
/-! DEFINITION. The terms the claims are stated in: the invariant of a safe run, what a command that ended has written, when a
block command may run (R151, R160, R180, R200, R201, R76), and the spec's closed forms and pseudocode that the model does not
itself use (R115, R161, R162, R183, R207, R208). -/

namespace Sys2Proof.Machine

/-! ## Runs -/

/-- What holds of every state of a safe run: memory is canonical and lists only addresses that exist (R60), ERR is a legal code
(R31), STATUS.INIT and POLY agree with the table store (R29, R41), and while a command is in flight DONE and ERR are 0 (R232). -/
structure State.Inv (s : State) : Prop where
  memWf : s.mem.wf = true
  memBelow : s.mem.below s.cfg.memBytes = true
  errLegal : s.status.err.toNat ≤ 8
  storeBuilt : s.status.init = true → ∃ idx, s.store = .built idx ∧ s.poly = polyOf idx
  storeUnbuilt : s.status.init = false → s.poly = 0 ∧ ∃ e, s.store = .unspecified e
  busyClean : s.status.busy = true → s.status.done = false ∧ s.status.err = 0

/-- `s` after a command has ended with RESULT `v` and error code `code`, nothing else changed (R233). -/
def State.ended (s : State) (v : Word) (code : BitVec 4) : State :=
  { s with result := v, status := { s.status with busy := false, done := true, err := code } }

/-- `t` has the host's side, the parameter CSRs, CTRL, the CMD readback and MEM_BYTES of `s`. -/
def sameOutside (s t : State) : Prop :=
  t.cmd = s.cmd ∧ t.ie = s.ie ∧ t.k = s.k ∧ t.m = s.m ∧ t.blockBytes = s.blockBytes ∧ t.n = s.n ∧ t.src = s.src ∧ t.dst = s.dst ∧
    t.nblk = s.nblk ∧ t.cfg = s.cfg ∧ t.turns = s.turns ∧ t.host = s.host ∧ t.bindings = s.bindings ∧ t.free = s.free

/-- Every byte outside `[base, base + len)` reads in `t` as in `s`. -/
def onlyWrites (s t : State) (base len : Nat) : Prop :=
  ∀ a, ¬ (base ≤ a ∧ a < base + len) → t.mem.read a = s.mem.read a

/-! ## The field -/

/-- The sum of `f 0 … f (n - 1)` in the field: XOR over j in [0, n). -/
def xorSum (n : Nat) (f : Nat → Byte) : Byte := (List.range n).foldl (fun acc j => acc ^^^ f j) 0

/-- The product of two polynomials over GF(2), bit i of a byte being the coefficient of x^i (R110); not reduced. -/
def polyProduct (x y : Byte) : BitVec 16 :=
  (List.range 8).foldl (fun acc i => if y.getLsbD i then acc ^^^ (x.setWidth 16 <<< i) else acc) 0

/-- The remainder of a polynomial of degree below 15 modulo the degree-8 polynomial `poly`. -/
def polyRemainder (poly : BitVec 9) (v : BitVec 16) : Byte :=
  ([6, 5, 4, 3, 2, 1, 0].foldl (fun acc i => if acc.getLsbD (8 + i) then acc ^^^ (poly.setWidth 16 <<< i) else acc) v).setWidth 8

/-- The product of the field GF(2)[x]/(poly) by shift and XOR, without tables (R126). -/
def fieldProduct (idx : Fin 16) (x y : Byte) : Byte := polyRemainder (polyOf idx) (polyProduct x y)

/-- The product of the n × n matrices `a` and `b` is the identity. -/
def productIsIdentity (st : Store) (n : Nat) (a b : Nat → Nat → Byte) : Prop :=
  ∀ r, r < n → ∀ c, c < n → xorSum n (fun j => gfMul st (a r j) (b j c)) = if r = c then 1 else 0

/-- "`A0·B = B·A0 = I`, products taken with `gf_mul` and `gf_add`" (R183). -/
def isInverse (st : Store) (n : Nat) (a b : Nat → Nat → Byte) : Prop :=
  productIsIdentity st n a b ∧ productIsIdentity st n b a

/-! ## When a block command may run -/

/-- The source's invariants on k and m, on exact integers (R34, R35). -/
def State.goodBlockCounts (s : State) : Prop := 1 ≤ s.k.toNat ∧ 1 ≤ s.m.toNat ∧ s.k.toNat + s.m.toNat ≤ 256

/-- The source's invariants on block_bytes (R36). -/
def State.goodBlockBytes (s : State) : Prop := 0 < s.blockBytes.toNat ∧ s.blockBytes.toNat % 8 = 0

/-- Two ranges, by base and length, share no address. -/
def apart (b1 l1 b2 l2 : Nat) : Prop := ∀ a, b1 ≤ a → a < b1 + l1 → ¬ (b2 ≤ a ∧ a < b2 + l2)

/-- CAUCHY passes all the checks of R151. -/
def State.cauchyReady (s : State) : Prop :=
  s.goodBlockCounts ∧ s.dst ≠ 0 ∧ s.status.init = true ∧ s.dst.toNat + s.m.toNat * s.k.toNat ≤ s.cfg.memBytes

/-- ENCODE passes all the checks of R160. -/
def State.encodeReady (s : State) : Prop :=
  s.goodBlockCounts ∧ s.goodBlockBytes ∧ s.src ≠ 0 ∧ s.dst ≠ 0 ∧ s.status.init = true ∧
    s.src.toNat + s.k.toNat * s.blockBytes.toNat ≤ s.cfg.memBytes ∧
    s.dst.toNat + s.m.toNat * s.blockBytes.toNat ≤ s.cfg.memBytes

/-- ENCODE meets its assumption of R76. -/
def State.encodeApart (s : State) : Prop :=
  apart s.src.toNat (s.k.toNat * s.blockBytes.toNat) s.dst.toNat (s.m.toNat * s.blockBytes.toNat)

/-- INVERT passes all the checks of R180. -/
def State.invertReady (s : State) : Prop :=
  1 ≤ s.n.toNat ∧ s.n.toNat ≤ 256 ∧ s.src ≠ 0 ∧ s.dst ≠ 0 ∧ s.status.init = true ∧
    s.src.toNat + s.n.toNat * s.n.toNat ≤ s.cfg.memBytes ∧ s.dst.toNat + s.n.toNat * s.n.toNat ≤ s.cfg.memBytes

/-- Descriptor `i` of DECODE's table in the memory of `s` (R69). -/
def State.desc (s : State) (i : Nat) : Descriptor := s.mem.descriptor s.src.toNat i

/-- DECODE passes the checks of R200. -/
def State.decodeParamsReady (s : State) : Prop :=
  s.goodBlockCounts ∧ s.goodBlockBytes ∧ s.src ≠ 0 ∧ s.status.init = true

/-- DECODE's table passes R201's check (log 15 for NBLK = 0). -/
def State.tableInRange (s : State) : Prop := s.src.toNat + 8 * s.nblk.toNat ≤ s.cfg.memBytes

/-- DECODE passes the checks of R200 and R201. -/
def State.decodeReady (s : State) : Prop :=
  s.decodeParamsReady ∧ s.tableInRange ∧
    ∀ i, i < s.nblk.toNat → (s.desc i).addr + s.blockBytes.toNat ≤ s.cfg.memBytes

/-- DECODE meets its assumption of R76. -/
def State.decodeApart (s : State) : Prop :=
  ∀ i, i < s.nblk.toNat → (s.desc i).present = false →
    apart (s.desc i).addr s.blockBytes.toNat s.src.toNat (8 * s.nblk.toNat) ∧
    ∀ j, j < s.nblk.toNat → j ≠ i → apart (s.desc i).addr s.blockBytes.toNat (s.desc j).addr s.blockBytes.toNat

/-- `missing_indices` of DECODE in `s` (R203). -/
def State.missing (s : State) : List Nat := missingRows s.k.toNat s.descriptors

/-- `rec` and `recslot` of DECODE in `s` (R205). -/
def State.recovery (s : State) : List Recovery := recoveryRows s.k.toNat s.m.toNat s.descriptors

/-- The ROW and FLAGS bytes of an install that another follows lie in no payload that step 6 reads (log 19). -/
def State.installsApart (s : State) : Prop :=
  ∀ u, u + 1 < min s.missing.length (emptySlots s.descriptors).length → ∀ d, d = 4 ∨ d = 5 →
    (∀ l, l < s.k.toNat → l ∉ s.missing →
      ¬ (dataAddr s.descriptors l ≤ s.src.toNat + 8 * installSlot s.descriptors u + d ∧
          s.src.toNat + 8 * installSlot s.descriptors u + d < dataAddr s.descriptors l + s.blockBytes.toNat)) ∧
    ∀ r ∈ s.recovery,
      ¬ (r.addr ≤ s.src.toNat + 8 * installSlot s.descriptors u + d ∧
          s.src.toNat + 8 * installSlot s.descriptors u + d < r.addr + s.blockBytes.toNat)

/-- `Sinv` is what `gf_invert` gives for the submatrix S of R206. -/
def State.solvedBy (s : State) (sinv : Mat) : Prop :=
  gfInvert s.store s.missing.length (submatrix s.store s.k.toNat s.recovery s.missing) = some sinv

/-! ## Closed forms and pseudocode of the spec -/

/-- `rt_t[p]` as R208 gives it. -/
def State.residualClosed (s : State) (t p : Nat) : Byte :=
  s.mem.read ((recoveryAt s.recovery t).addr + p) ^^^
    xorSum s.k.toNat fun l =>
      if rowMissing s.descriptors l then 0
      else gfMul s.store (s.mem.read (dataAddr s.descriptors l + p)) (cauchyEntry s.store s.k.toNat (recoveryAt s.recovery t).row l)

/-- `P'_{e_u}[p]` as R208 gives it. -/
def State.rebuiltClosed (s : State) (sinv : Mat) (u p : Nat) : Byte :=
  xorSum s.missing.length fun t => gfMul s.store (s.residualClosed t p) (sinv.get u t)

/-- The innermost loop of ENCODE's pseudocode, over the memory as it is then: one column into one recovery block (R161). -/
def encodeColumn (s : State) (i j : Nat) (mem : Memory) : Memory :=
  let coef := cauchyEntry s.store s.k.toNat i j
  if coef = 0 then mem
  else
    (List.range s.blockBytes.toNat).foldl
      (fun mm p =>
        let d := mm.read (s.src.toNat + j * s.blockBytes.toNat + p)
        let o := mm.read (s.dst.toNat + i * s.blockBytes.toNat + p)
        let v := if coef = 1 then d else s.store.mult coef d
        mm.write (s.dst.toNat + i * s.blockBytes.toNat + p) (o ^^^ v)) mem

/-- ENCODE's pseudocode over memory: zero the recovery buffer, then row by row and column by column (R161). -/
def encodePseudocode (s : State) : Memory :=
  (List.range s.m.toNat).foldl
    (fun mi i => (List.range s.k.toNat).foldl (fun mj j => encodeColumn s i j mj) mi)
    ((List.range (s.m.toNat * s.blockBytes.toNat)).foldl (fun mq q => mq.write (s.dst.toNat + q) 0) s.mem)

/-- Step 6 of DECODE's pseudocode over the memory as it is then, for the missing columns `us` with the slots still empty; it
ends with the memory, the number installed and whether every block found a slot (R207). -/
def installLoop (s : State) (sinv : Mat) : (us empty : List Nat) → Memory → Nat → Memory × Nat × Bool
  | [], _, mem, installed => (mem, installed, true)
  | _ :: _, [], mem, installed => (mem, installed, false)
  | u :: us, e :: es, mem, installed =>
    let acc := (List.range s.blockBytes.toNat).map fun p =>
      rebuiltByte s.store mem s.k.toNat s.descriptors s.recovery sinv u p
    installLoop s sinv us es (mem.writeAll (installCells s.src.toNat e (s.desc e).addr (s.missing.getD u 0) acc)) (installed + 1)

/-- One row of spec/opcode_table.json: a word belongs to it when its masked bits are the row's. -/
structure TableRow where
  mask : Word
  bitsSet : Word
deriving DecidableEq, Repr

/-- The masks and matches of spec/opcode_table.json, in its order. -/
def opcodeTable : List TableRow :=
  [⟨0xFFFFFFFF, 0x00000001⟩, ⟨0xF0FFFFFF, 0x10000001⟩, ⟨0xFF0000FF, 0x00000010⟩, ⟨0xFF0000FF, 0x00000011⟩,
   ⟨0xFF0000FF, 0x00000012⟩, ⟨0xFFFF00FF, 0x00000013⟩, ⟨0xFF0000FF, 0x00000014⟩, ⟨0xFFFF00FF, 0x00000015⟩] ++
  [⟨0xFFFFFFFF, 0x00000020⟩, ⟨0xFFFFFFFF, 0x00000030⟩, ⟨0xFFFFFFFF, 0x00000040⟩, ⟨0xFFFFFFFF, 0x00000050⟩]

/-- The word is one of the row's. -/
def TableRow.holds (row : TableRow) (w : Word) : Bool := w &&& row.mask == row.bitsSet

end Sys2Proof.Machine
end

