-- ==== Sys2Proof/Certificates/Slice0/Obligations.lean ====
section
/-! DEFINITION. The statements for the provers. `State.ended s v c` is `s` with RESULT v, ERR c, BUSY 0 and DONE 1 and nothing
else changed, so an equation that ends in it states a result, its frame and its completion at once. -/

open Sys2Proof Sys2Proof.Machine

/-! ## Encoding (30_encoding.md) -/

/-- Every well-formed command decodes from its own command word, with every operand (R91 to R98). -/
def Obligations.DecodeOfEncode : Prop := ∀ i : Instr, i.wf = true → decode (encode i) = .ok i

/-- A legal word is the encoding of the command it decodes to, and that command is well-formed (R93, R98). -/
def Obligations.EncodeOfDecode : Prop := ∀ (w : Word) (i : Instr), decode w = .ok i → i.wf = true ∧ encode i = w

/-- The legal words are exactly those of the rows of spec/opcode_table.json, and no word belongs to two rows (R92, R96). -/
def Obligations.LegalWordsAreTheTable : Prop :=
  (∀ w : Word, (∃ i, decode w = .ok i) ↔ ∃ row ∈ opcodeTable, row.holds w = true) ∧
    ∀ (w : Word) (a b : Nat) (ra rb : TableRow), opcodeTable[a]? = some ra → opcodeTable[b]? = some rb → ra.holds w = true →
      rb.holds w = true → a = b

/-- R101: the worked encodings, each written out there, the three illegal words, and EXP 1021. -/
def Obligations.WorkedEncodings : Prop :=
  (encode .init = 0x00000001 ∧ encode (.initP 0) = 0x10000001 ∧ encode (.initP 15) = 0x1F000001 ∧
    encode (.add 0x53 0xCA) = 0x00CA5310 ∧ encode (.mul 0x53 0xCA) = 0x00CA5311 ∧ encode (.div 0x53 0xCA) = 0x00CA5312 ∧
    encode (.inv 0x80) = 0x00008013 ∧ encode (.log 0x80) = 0x00008015 ∧ encode (.exp 1020) = 0x0003FC14 ∧
    encode (.exp 1021) = 0x0003FD14 ∧ encode .cauchy = 0x00000020) ∧
  (decode 0x00000001 = .ok .init ∧ decode 0x10000001 = .ok (.initP 0) ∧ decode 0x1F000001 = .ok (.initP 15) ∧
    decode 0x00CA5310 = .ok (.add 0x53 0xCA) ∧ decode 0x00CA5311 = .ok (.mul 0x53 0xCA) ∧
    decode 0x00CA5312 = .ok (.div 0x53 0xCA) ∧ decode 0x00008013 = .ok (.inv 0x80) ∧ decode 0x00008015 = .ok (.log 0x80) ∧
    decode 0x0003FC14 = .ok (.exp 1020) ∧ decode 0x0003FD14 = .ok (.exp 1021) ∧ decode 0x00000020 = .ok .cauchy) ∧
  (decode 0x00000000 = .error .reservedOpcode ∧ decode 0x01000001 = .error .fieldMustBeZero ∧
    decode 0x00000120 = .error .fieldMustBeZero) ∧
  ∀ s : State, exec (.exp 1021) s = .next (s.ended 0 1)

/-- R96: a word is illegal exactly when its OPC is reserved or a field that R92 says must be 0 is not (it is in no row of the
table); it is accepted all the same, and completes with code 8 and RESULT 0 and no other effect. -/
def Obligations.IllegalWordCompletes : Prop :=
  ∀ w : Word, ((∃ e, decode w = .error e) ↔ ∀ row ∈ opcodeTable, row.holds w = false) ∧
    ∀ s : State, (∃ e, decode w = .error e) → s.status.busy = false →
      s.writeCsr 0x00 w = s.accept w ∧ coreTurn (s.accept w) = .next ((s.accept w).ended 0 8)

/-! ## Steps, accept and complete (60_exceptions.md, 70_reset_and_hazards.md) -/

/-- Whose step it is (R275): the listed turn's, which the step takes from the list. At the host's turn the step is the host's, at
a reset turn it is the reset (R260), at the core's turn it is the core's: nothing while idle (R240), the end with code 8 for an
illegal word (R96), and `exec i` when the word in CMD decodes to `i`. What stands for no turn listed is the model's choice: a busy
core moves, else the host (log 1). So is it that a presented command word is run by the very next step, on the state in which
it has just been accepted (log 17). -/
def Obligations.StepRunsTheCommand : Prop :=
  (∀ (s : State) (t : Turn) (rest : List Turn), s.turns = t :: rest → s.mover = t ∧ s.takeTurn = { s with turns := rest }) ∧
  (∀ s : State, s.turns = [] → s.mover = (if s.status.busy then .core else .host) ∧ s.takeTurn = s) ∧
  (∀ s : State,
    (s.mover = .host → step s = hostTurn s.takeTurn) ∧
    (s.mover = .reset → step s = .next (resetTurn s.takeTurn)) ∧
    (s.mover = .core → s.status.busy = false → step s = .next s.takeTurn) ∧
    (s.mover = .core → s.status.busy = true → (∃ e, decode s.cmd = .error e) → step s = .next (s.takeTurn.ended 0 8))) ∧
  (∀ (s : State) (i : Instr), s.status.busy = true → decode s.cmd = .ok i →
    (∀ rest, s.turns = .core :: rest → step s = exec i { s with turns := rest }) ∧ (s.turns = [] → step s = exec i s)) ∧
  ∀ (s : State) (w : Nat) (i : Instr), decodeTableWord 32 w = some i →
    step (s.withFetchWord 32 w) = exec i { s with cmd := BitVec.ofNat 32 w,
                                                  status := { s.status with busy := true, done := false, err := 0 } }

/-- R232: a CMD write while BUSY = 0 sets the readback and BUSY and clears DONE and ERR, nothing else; while BUSY = 1 no command
is accepted. -/
def Obligations.CmdWriteAccepts : Prop :=
  ∀ (s : State) (w : Word),
    (s.status.busy = false →
      s.writeCsr 0x00 w = { s with cmd := w, status := { s.status with busy := true, done := false, err := 0 } }) ∧
    (s.status.busy = true → s.writeCsr 0x00 w = { s with status := { s.status with wign := true } })

/-- R42: while BUSY = 1 a write to any mapped CSR but STATUS changes WIGN only; a STATUS write is always performed; so no host
step changes CMD or a parameter CSR between accept and complete. -/
def Obligations.BusyWritesAreIgnored : Prop :=
  ∀ s : State, s.status.busy = true →
    (∀ off ∈ [0x00, 0x08, 0x0C, 0x10, 0x14, 0x18, 0x1C, 0x20, 0x24, 0x28, 0x2C], ∀ v : Word,
      s.writeCsr off v = { s with status := { s.status with wign := true } }) ∧
    (∀ v : Word, s.writeCsr 0x04 v = { s with status :=
      { s.status with done := s.status.done && !v.getLsbD 1, wign := s.status.wign && !v.getLsbD 3 } }) ∧
    ∀ t : State, hostTurn s = .next t →
      t.cmd = s.cmd ∧ t.ie = s.ie ∧ t.k = s.k ∧ t.m = s.m ∧ t.blockBytes = s.blockBytes ∧ t.n = s.n ∧ t.src = s.src ∧
        t.dst = s.dst ∧ t.nblk = s.nblk ∧ t.result = s.result ∧ t.poly = s.poly ∧ t.status.busy = true

/-- R26: the fields of STATUS where a read finds them, 0 above bit 7, all 0 at reset, and what a write does. A read of CMD returns
the accepted word (R25), of RESULT the result (R33), of CTRL IE at bit 0 (R32), of POLY the polynomial (R41). -/
def Obligations.StatusFields : Prop :=
  (∀ s : State,
    (s.readCsr 0x04).getLsbD 0 = s.status.busy ∧ (s.readCsr 0x04).getLsbD 1 = s.status.done ∧
    (s.readCsr 0x04).getLsbD 2 = s.status.init ∧ (s.readCsr 0x04).getLsbD 3 = s.status.wign ∧
    (s.readCsr 0x04).extractLsb' 4 4 = s.status.err ∧ ∀ i, 8 ≤ i → (s.readCsr 0x04).getLsbD i = false) ∧
  State.reset.readCsr 0x04 = 0 ∧
  (∀ s : State, s.readCsr 0x00 = s.cmd ∧ s.readCsr 0x0C = s.result ∧ (s.readCsr 0x08).getLsbD 0 = s.ie ∧
    s.readCsr 0x2C = s.poly.setWidth 32) ∧
  ∀ (s : State) (v : Word), s.writeCsr 0x04 v = { s with status :=
    { s.status with done := s.status.done && !v.getLsbD 1, wign := s.status.wign && !v.getLsbD 3 } }

/-- R24, R34 to R39: each parameter CSR is read at its own offset; while idle a write there sets it to any 32-bit value and changes
nothing else, so it reads back, and every other CSR, the tables and memory are as they were. -/
def Obligations.ParameterCsrsHoldEveryValue : Prop :=
  (∀ s : State, s.readCsr 0x10 = s.k ∧ s.readCsr 0x14 = s.m ∧ s.readCsr 0x18 = s.blockBytes ∧ s.readCsr 0x1C = s.n ∧
    s.readCsr 0x20 = s.src ∧ s.readCsr 0x24 = s.dst ∧ s.readCsr 0x28 = s.nblk) ∧
  (∀ (s : State) (v : Word), s.status.busy = false →
    s.writeCsr 0x10 v = { s with k := v } ∧ s.writeCsr 0x14 v = { s with m := v } ∧
    s.writeCsr 0x18 v = { s with blockBytes := v } ∧ s.writeCsr 0x1C v = { s with n := v } ∧
    s.writeCsr 0x20 v = { s with src := v } ∧ s.writeCsr 0x24 v = { s with dst := v } ∧
    s.writeCsr 0x28 v = { s with nblk := v }) ∧
  ∀ (s : State) (v : Word), s.status.busy = false →
    ∀ off ∈ [0x10, 0x14, 0x18, 0x1C, 0x20, 0x24, 0x28],
      (s.writeCsr off v).readCsr off = v ∧ (∀ other, other ≠ off → (s.writeCsr off v).readCsr other = s.readCsr other) ∧
        (s.writeCsr off v).mem = s.mem ∧ (s.writeCsr off v).store = s.store ∧ (s.writeCsr off v).status = s.status

/-- R23: an unmapped offset reads 0 and a write to it has no effect, busy or idle; reserved bits of CTRL, STATUS and POLY read 0,
and what is written to them is ignored. A write to RESULT or POLY while idle has no effect, on WIGN neither (R24). -/
def Obligations.UnmappedAndReservedReadZero : Prop :=
  ∀ s : State,
    (∀ off ∈ [0x30, 0x34, 0x38, 0x3C], s.readCsr off = 0 ∧ ∀ v : Word, s.writeCsr off v = s) ∧
    (∀ i, 1 ≤ i → (s.readCsr 0x08).getLsbD i = false) ∧ (∀ i, 8 ≤ i → (s.readCsr 0x04).getLsbD i = false) ∧
    (∀ i, 9 ≤ i → (s.readCsr 0x2C).getLsbD i = false) ∧
    (∀ v : Word, s.status.busy = false → s.writeCsr 0x08 v = { s with ie := v.getLsbD 0 } ∧ s.writeCsr 0x0C v = s ∧
      s.writeCsr 0x2C v = s) ∧
    ∀ v v' : Word, v.getLsbD 1 = v'.getLsbD 1 → v.getLsbD 3 = v'.getLsbD 3 → s.writeCsr 0x04 v = s.writeCsr 0x04 v'

/-- R45: IRQ is CTRL.IE and STATUS.DONE, as the host reads them, in every state. R234: a completing command, whether it fails or
not, leaves IRQ = IE; an accept and a STATUS write with bit 1 set clear it; setting IE while DONE = 1 raises it at once. -/
def Obligations.IrqIsEnabledDone : Prop :=
  (∀ s : State, s.irq = ((s.readCsr 0x08).getLsbD 0 && (s.readCsr 0x04).getLsbD 1)) ∧
  (∀ (s t : State), s.status.busy = true → coreTurn s = .next t → t.irq = s.ie) ∧
  (∀ (s : State) (w : Word), s.status.busy = false → (s.writeCsr 0x00 w).irq = false) ∧
  (∀ (s : State) (v : Word), v.getLsbD 1 = true → (s.writeCsr 0x04 v).irq = false) ∧
  ∀ (s : State) (v : Word), s.status.busy = false → (s.writeCsr 0x08 v).irq = (v.getLsbD 0 && s.status.done)

/-- R22: a host access that is not 32 bits wide at a multiple of 4 in 0x00 to 0x3C is refused; any other CSR access is performed. -/
def Obligations.CsrProtocol : Prop :=
  ∀ (s : State) (off width : Nat) (v : Word) (name : String) (rest : List HostAction), s.mover = .host →
    (¬ (width = 4 ∧ off % 4 = 0 ∧ off ≤ 0x3C) →
      (s.host = .wr off width v :: rest → step s = .refused .outsideCsrProtocol) ∧
      (s.host = .rd off width name :: rest → step s = .refused .outsideCsrProtocol)) ∧
    (width = 4 ∧ off % 4 = 0 ∧ off ≤ 0x3C →
      (s.host = .wr off width v :: rest →
        step s = .next ({ s with turns := s.turns.tail, host := rest }.writeCsr off v)) ∧
      (s.host = .rd off width name :: rest →
        step s = .next { s with turns := s.turns.tail, host := rest,
                                bindings := (name, .word (s.readCsr off)) :: s.bindings.filter fun b => b.1 != name }))

/-- R79 and R60 for the host's memory accesses: one outside memory faults (the model's choice, log 10); a write that touches the sets
of the command in flight, or a read that touches its write set, is refused; any other is performed: a write changes the bytes it
names only, a read changes its binding only. An access of length 0 is performed at every address and changes no byte of memory
(logs 8 and 10). That an access
is performed is the model's choice in three cases: after complete, before the host has observed it (log 21); on the buffers of a
command in flight that is going to fail, whose sets are empty (log 16); and while an ENCODE or DECODE is in flight that complete
would refuse (log 22). -/
def Obligations.HostMemoryAccess : Prop :=
  (∀ (s : State) (a : Nat) (data : List Byte) (rest : List HostAction), s.mem.wf = true → s.host = .memw a data :: rest →
    data ≠ [] →
    (s.cfg.memBytes < a + data.length → hostTurn s = .fault .noSuchAddress) ∧
    (a + data.length ≤ s.cfg.memBytes →
      ((∃ q, q < data.length ∧ anyHas (s.readSetInFlight ++ s.writeSetInFlight) (a + q) = true) →
        hostTurn s = .refused .buffersInUse) ∧
      ((∀ q, q < data.length → anyHas (s.readSetInFlight ++ s.writeSetInFlight) (a + q) = false) →
        ∃ mem', hostTurn s = .next { s with host := rest, mem := mem' } ∧
          (∀ q (h : q < data.length), mem'.read (a + q) = data[q]) ∧
          ∀ c, ¬ (a ≤ c ∧ c < a + data.length) → mem'.read c = s.mem.read c))) ∧
  (∀ (s : State) (a : Nat) (name : String) (rest : List HostAction),
    (s.host = .memw a [] :: rest → hostTurn s = .next { s with host := rest }) ∧
    (s.host = .memr a 0 name :: rest →
      hostTurn s = .next { s with
        host := rest, bindings := (name, .bytes []) :: s.bindings.filter fun b => b.1 != name })) ∧
  ∀ (s : State) (a n : Nat) (name : String) (rest : List HostAction), s.host = .memr a n name :: rest → 1 ≤ n →
    (s.cfg.memBytes < a + n → hostTurn s = .fault .noSuchAddress) ∧
    (a + n ≤ s.cfg.memBytes →
      ((∃ q, q < n ∧ anyHas s.writeSetInFlight (a + q) = true) → hostTurn s = .refused .buffersInUse) ∧
      ((∀ q, q < n → anyHas s.writeSetInFlight (a + q) = false) →
        hostTurn s = .next { s with
          host := rest
          bindings := (name, .bytes ((List.range n).map fun q => s.mem.read (a + q))) :: s.bindings.filter fun b => b.1 != name }))

/-- R46: after reset every CSR reads 0, every STATUS field and IRQ are 0, the tables are unspecified; an idle machine's memory is
unchanged. It holds of the reset state and of a reset in any state. -/
def Obligations.ResetValues : Prop :=
  (∀ off, State.reset.readCsr off = 0) ∧ State.reset.irq = false ∧ State.reset.status = ⟨false, false, false, false, 0⟩ ∧
    (∃ e, State.reset.store = .unspecified e) ∧
  ∀ s : State, (∀ off, (resetTurn s).readCsr off = 0) ∧ (resetTurn s).irq = false ∧
    (resetTurn s).status = ⟨false, false, false, false, 0⟩ ∧ (∃ e, (resetTurn s).store = .unspecified e) ∧
    (s.status.busy = false → (resetTurn s).mem = s.mem)

/-- R261: a reset while BUSY abandons the command, be it legal or not (no DONE, RESULT 0, idle), and bytes outside its write set are
unchanged; an illegal word has no write set, so no byte changes. The model's choice: the set is empty for a command that fails
its checks (log 16), and a command that complete would refuse is abandoned like any other (log 22). -/
def Obligations.ResetAbandonsTheCommand : Prop :=
  ∀ s : State, s.status.busy = true →
    (resetTurn s).status.busy = false ∧ (resetTurn s).status.done = false ∧ (resetTurn s).result = 0 ∧
      (∀ a, anyHas s.writeSetInFlight a = false → (resetTurn s).mem.read a = s.mem.read a) ∧
      (∀ i, decode s.cmd = .ok i → s.writeSetInFlight = writeSet i s) ∧
      ((∃ e, decode s.cmd = .error e) → (resetTurn s).mem = s.mem)

/-- The invariant of a safe run holds at reset. -/
def Obligations.ResetIsSafe : Prop := State.reset.Inv

/-- Every step keeps the invariant: canonical memory inside MEM_BYTES, a legal ERR, INIT and POLY in agreement with the table
store, DONE and ERR 0 while busy. -/
def Obligations.StepKeepsInvariant : Prop := ∀ s t : State, s.Inv → step s = .next t → t.Inv

/-- What a command changes (R233, R236): BUSY, DONE and ERR as complete says; WIGN, the host, CTRL, CMD and the parameter CSRs
are untouched; POLY, the tables and INIT change only under INIT. -/
def Obligations.CommandFrame : Prop :=
  ∀ (i : Instr) (s t : State), exec i s = .next t →
    sameOutside s t ∧ t.status.busy = false ∧ t.status.done = true ∧ t.status.err.toNat ≤ 8 ∧ t.status.wign = s.status.wign ∧
      ((i ≠ .init ∧ ∀ p, i ≠ .initP p) → t.poly = s.poly ∧ t.store = s.store ∧ t.status.init = s.status.init)

/-- A command writes bytes of its write set only (R68, R75), and both its sets lie inside memory (R64). -/
def Obligations.CommandStaysInItsSets : Prop :=
  ∀ (i : Instr) (s : State),
    (∀ a, anyHas (readSet i s) a = true ∨ anyHas (writeSet i s) a = true → a < s.cfg.memBytes) ∧
    ∀ t, exec i s = .next t → ∀ a, anyHas (writeSet i s) a = false → t.mem.read a = s.mem.read a

/-- On an error memory is left alone and RESULT is 0, except after BlockBuffer, which only DECODE raises (R230, R231). -/
def Obligations.OnlyBlockBufferLeavesWrites : Prop :=
  ∀ (i : Instr) (s t : State), exec i s = .next t → t.status.err ≠ 0 →
    (t.status.err ≠ 6 → t.mem = s.mem ∧ t.result = 0) ∧ (t.status.err = 6 → i = .decode)

/-- R29: a completing INIT sets INIT; no step but a reset clears it; no step but a completing INIT sets it; and while it is 0 a
command that needs the tables fails with code 3 once its earlier checks pass. -/
def Obligations.InitBit : Prop :=
  (∀ (s t : State) (p : Nat), exec .init s = .next t ∨ exec (.initP p) s = .next t → t.status.init = true) ∧
  (∀ s t : State, step s = .next t → s.mover ≠ .reset → s.status.init = true → t.status.init = true) ∧
  (∀ s t : State, step s = .next t → s.status.init = false → t.status.init = true →
    s.mover = .core ∧ s.status.busy = true ∧ (decode s.cmd = .ok .init ∨ ∃ p, decode s.cmd = .ok (.initP p))) ∧
  ∀ s : State, s.status.init = false →
    (∀ x y : Byte, exec (.mul x y) s = .next (s.ended 0 3) ∧ exec (.div x y) s = .next (s.ended 0 3) ∧
      exec (.inv x) s = .next (s.ended 0 3) ∧ exec (.log x) s = .next (s.ended 0 3)) ∧
    (∀ idx, idx ≤ 1020 → exec (.exp idx) s = .next (s.ended 0 3)) ∧
    (s.goodBlockCounts → s.dst ≠ 0 → exec .cauchy s = .next (s.ended 0 3)) ∧
    (s.goodBlockCounts → s.goodBlockBytes → s.src ≠ 0 → s.dst ≠ 0 → exec .encode s = .next (s.ended 0 3)) ∧
    (1 ≤ s.n.toNat → s.n.toNat ≤ 256 → s.src ≠ 0 → s.dst ≠ 0 → exec .invert s = .next (s.ended 0 3)) ∧
    (s.goodBlockCounts → s.goodBlockBytes → s.src ≠ 0 → exec .decode s = .next (s.ended 0 3))

/-- R27: BUSY rises at an accept, a host write to CMD, and only there; it falls at a complete, and else only at a reset; while it is
0 the core changes nothing. -/
def Obligations.BusyFromAcceptToComplete : Prop :=
  (∀ (s : State) (w : Word), s.status.busy = false → (s.writeCsr 0x00 w).status.busy = true) ∧
  (∀ s : State, s.status.busy = false → coreTurn s = .next s) ∧
  ∀ s t : State, step s = .next t →
    (s.status.busy = false → t.status.busy = true →
      s.mover = .host ∧ ∃ w rest, s.host = .wr 0x00 4 w :: rest ∧ t.cmd = w ∧ t.status.done = false ∧ t.status.err = 0) ∧
    (s.status.busy = true → t.status.busy = false → s.mover = .core ∨ s.mover = .reset) ∧
    (s.status.busy = true → s.mover = .core → t.status.busy = false ∧ t.status.done = true)

/-- Who writes what: RESULT changes only at a complete or a reset (R33); ERR only at accept, where it becomes 0, at a complete, where
it is at most 8, or at a reset (R31); the table store and POLY only at a completing INIT or a reset (R40, R41, R46); MEM_BYTES
never (R60). -/
def Obligations.RegisterWriters : Prop :=
  ∀ s t : State, step s = .next t →
    (t.result ≠ s.result → s.mover = .reset ∨ (s.mover = .core ∧ s.status.busy = true)) ∧
    (t.status.err ≠ s.status.err →
      s.mover = .reset ∨ (s.mover = .core ∧ s.status.busy = true ∧ t.status.err.toNat ≤ 8) ∨
        (s.mover = .host ∧ t.status.busy = true ∧ t.status.err = 0)) ∧
    (t.store ≠ s.store ∨ t.poly ≠ s.poly → s.mover = .reset ∨
      (s.mover = .core ∧ s.status.busy = true ∧ (decode s.cmd = .ok .init ∨ ∃ p, decode s.cmd = .ok (.initP p)))) ∧
    t.cfg = s.cfg

/-- LATENCY has no effect on a command (R77, R78, R81, R275): a host step taken while it is in flight changes neither its RESULT
nor its ERR, nor the tables, nor any byte it writes, and the command leaves the other bytes as that host step left them. -/
def Obligations.LatencyDoesNotMatter : Prop :=
  ∀ (s s1 t : State) (i : Instr), s.mem.wf = true → s.status.busy = true → decode s.cmd = .ok i → hostTurn s = .next s1 →
    exec i s = .next t →
    ∃ t1, exec i s1 = .next t1 ∧ t1.result = t.result ∧ t1.status.err = t.status.err ∧ t1.store = t.store ∧ t1.poly = t.poly ∧
      ∀ a, t1.mem.read a = if anyHas (writeSet i s) a then t.mem.read a else s1.mem.read a

/-- WAIT ends (R100, R275): from any state in flight whose command is not refused, unless a reset is among the turns, the poll is
over, with BUSY = 0, at most two steps after the listed turns; that a busy core moves once no turn is listed is the model's choice
(log 1). -/
def Obligations.WaitEnds : Prop :=
  ∀ (s : State) (rest : List HostAction), s.status.busy = true → s.host = .wait :: rest → (∀ x ∈ s.turns, x ≠ .reset) →
    (∃ t, coreTurn s = .next t) →
    ∃ n t, n ≤ s.turns.length + 2 ∧ Host.Core.run Sys2Proof.core n s = .next t ∧ t.status.busy = false ∧ t.host = rest

/-! ## The tables (40_gf_arithmetic.md) -/

/-- The sixteen polynomials of R112, each with bits 8 and 0 set, and that 2 generates the multiplicative group under every one:
EXP[0..254] are 255 distinct non-zero bytes. -/
def Obligations.SixteenPrimitivePolynomials : Prop :=
  ((List.finRange 16).map fun idx => (polyOf idx).toNat) =
    [0x11D, 0x12B, 0x12D, 0x14D, 0x15F, 0x163, 0x165, 0x169, 0x171, 0x187, 0x18D, 0x1A9, 0x1C3, 0x1CF, 0x1E7, 0x1F5] ∧
  ∀ idx : Fin 16, (polyOf idx).getLsbD 8 = true ∧ (polyOf idx).getLsbD 0 = true ∧
    ∀ a b, a ≤ 254 → b ≤ 254 → expEntry idx a ≠ 0 ∧ (expEntry idx a = expEntry idx b → a = b)

/-- The EXP and LOG tables after INIT, for every polynomial index (R117, R118). -/
def Obligations.ExpAndLogTables : Prop :=
  ∀ idx : Fin 16,
    (expEntry idx 255 = expEntry idx 0 ∧ expEntry idx 510 = 1 ∧ (∀ j, j ≤ 510 → expEntry idx j = expEntry idx (j % 255)) ∧
      ∀ j, 511 ≤ j → j ≤ 1020 → expEntry idx j = 0) ∧
    logEntry idx 0 = 512 ∧ (∀ j, 1 ≤ j → j ≤ 255 → (logEntry idx (expEntry idx j)).toNat = j) ∧
      (logEntry idx 1).toNat = 255 ∧ ∀ x : Byte, logEntry idx x ≠ 0 ∧ (x ≠ 0 → (logEntry idx x).toNat ≤ 255)

/-- R119: MULT, DIVT and INVT after INIT. -/
def Obligations.ProductAndQuotientTables : Prop :=
  ∀ idx : Fin 16, (∀ x : Byte, multEntry idx 0 x = 0 ∧ divtEntry idx 0 x = 0 ∧ multEntry idx x 0 = 0 ∧ divtEntry idx x 0 = 0) ∧
    (∀ x y : Byte, x ≠ 0 → y ≠ 0 →
      multEntry idx y x = expEntry idx (((logEntry idx x).toNat + (logEntry idx y).toNat) % 255) ∧
      divtEntry idx y x = expEntry idx (((logEntry idx x).toNat + 255 - (logEntry idx y).toNat) % 255)) ∧
    ∀ x : Byte, invtEntry idx x = divtEntry idx x 1

/-- R126: the laws the tables satisfy after every INIT, and that `gf_mul` is the product of the field GF(2)[x]/(poly), associative,
commutative and distributing over `gf_add`. -/
def Obligations.TableLaws : Prop :=
  ∀ idx : Fin 16,
    (∀ x : Byte, gfMul (.built idx) x 0 = 0 ∧ gfMul (.built idx) 0 x = 0 ∧ gfMul (.built idx) x 1 = x ∧ gfAdd x x = 0 ∧
      gfAdd x 0 = x) ∧
    (∀ x : Byte, x ≠ 0 → gfMul (.built idx) x (gfInv (.built idx) x) = 1 ∧ gfInv (.built idx) (gfInv (.built idx) x) = x ∧
      expEntry idx (logEntry idx x).toNat = x) ∧
    (∀ x y : Byte, y ≠ 0 →
      gfDiv (.built idx) (gfMul (.built idx) x y) y = x ∧ gfMul (.built idx) (gfDiv (.built idx) x y) y = x) ∧
    logEntry idx 0 = 512 ∧ expEntry idx 0 = 1 ∧ expEntry idx 255 = 1 ∧
    (∀ x y z : Byte, gfAdd x y = gfAdd y x ∧ gfAdd (gfAdd x y) z = gfAdd x (gfAdd y z)) ∧
    ∀ x y z : Byte,
      gfMul (.built idx) x y = fieldProduct idx x y ∧ gfMul (.built idx) x y = gfMul (.built idx) y x ∧
      gfMul (.built idx) (gfMul (.built idx) x y) z = gfMul (.built idx) x (gfMul (.built idx) y z) ∧
      gfMul (.built idx) x (gfAdd y z) = gfAdd (gfMul (.built idx) x y) (gfMul (.built idx) x z)

/-- MULT is the product of the field GF(2)[x]/(poly), computed by shift and XOR without tables (R115, R126). -/
def Obligations.MultIsTheFieldProduct : Prop :=
  ∀ (idx : Fin 16) (x y : Byte), multEntry idx y x = fieldProduct idx x y

/-! ## The scalar commands -/

/-- R113: INIT in both forms, in every state: the encodings, the table store, POLY, INIT and RESULT; it never fails, and a second
INIT of the same index leaves the store as it is. -/
def Obligations.InitBuildsTheTables : Prop :=
  encode .init = 0x00000001 ∧ (∀ p, p < 16 → encode (.initP p) = BitVec.ofNat 32 (0x10000001 + p * 2 ^ 24)) ∧
  (∀ s : State, exec .init s = .next { s with
      store := .built 3, poly := 0x14D, result := 0x14D,
      status := { s.status with busy := false, done := true, init := true, err := 0 } }) ∧
  (∀ (s : State) (p : Nat) (h : p < 16), exec (.initP p) s = .next { s with
      store := .built ⟨p, h⟩, poly := polyOf ⟨p, h⟩, result := (polyOf ⟨p, h⟩).setWidth 32,
      status := { s.status with busy := false, done := true, init := true, err := 0 } }) ∧
  (∀ (s t : State), exec .init s = .next t → t.readCsr 0x2C = 0x14D ∧ ∃ u, exec .init t = .next u ∧ u.store = t.store) ∧
  ∃ t, exec .init State.reset = .next t ∧ t.readCsr 0x04 = 6 ∧ t.readCsr 0x0C = 0x14D

/-- R120: ADD, in every state, with or without INIT. -/
def Obligations.AddResult : Prop :=
  (∀ (x y : Byte), encode (.add x y) = BitVec.ofNat 32 (y.toNat <<< 16 ||| x.toNat <<< 8 ||| 0x10)) ∧
  (∀ (s : State) (x y : Byte), exec (.add x y) s = .next (s.ended ((x ^^^ y).setWidth 32) 0)) ∧
  (∀ (s : State) (x : Byte), exec (.add x x) s = .next (s.ended 0 0) ∧ exec (.add x 0) s = .next (s.ended (x.setWidth 32) 0)) ∧
  ∀ s : State, exec (.add 0x53 0xCA) s = .next (s.ended 0x99 0)

/-- R121: MUL, with its encoding, error, corner cases and examples. -/
def Obligations.MulResult : Prop :=
  (∀ (x y : Byte), encode (.mul x y) = BitVec.ofNat 32 (y.toNat <<< 16 ||| x.toNat <<< 8 ||| 0x11)) ∧
  (∀ (s : State) (x y : Byte), s.status.init = true → exec (.mul x y) s = .next (s.ended ((s.store.mult y x).setWidth 32) 0)) ∧
  (∀ (s : State) (x y : Byte), s.status.init = false → exec (.mul x y) s = .next (s.ended 0 3)) ∧
  (∀ (s : State) (idx : Fin 16) (x y : Byte), s.status.init = true → s.store = .built idx →
    exec (.mul x 0) s = .next (s.ended 0 0) ∧ exec (.mul 0 x) s = .next (s.ended 0 0) ∧
    exec (.mul x 1) s = .next (s.ended (x.setWidth 32) 0) ∧ exec (.mul x y) s = exec (.mul y x) s) ∧
  ∀ s : State, s.status.init = true → s.store = .built 3 →
    exec (.mul 0x53 0xCA) s = .next (s.ended 0x94 0) ∧ exec (.mul 0x80 0x02) s = .next (s.ended 0x4D 0)

/-- R122: DIV, with its encoding, error, corner cases and examples; division by zero raises no error. -/
def Obligations.DivResult : Prop :=
  (∀ (x y : Byte), encode (.div x y) = BitVec.ofNat 32 (y.toNat <<< 16 ||| x.toNat <<< 8 ||| 0x12)) ∧
  (∀ (s : State) (x y : Byte), s.status.init = true → exec (.div x y) s = .next (s.ended ((s.store.divt y x).setWidth 32) 0)) ∧
  (∀ (s : State) (x y : Byte), s.status.init = false → exec (.div x y) s = .next (s.ended 0 3)) ∧
  (∀ (s : State) (idx : Fin 16) (x : Byte), s.status.init = true → s.store = .built idx →
    exec (.div x 0) s = .next (s.ended 0 0) ∧ exec (.div 0 x) s = .next (s.ended 0 0) ∧
    exec (.div x 1) s = .next (s.ended (x.setWidth 32) 0) ∧ (x ≠ 0 → exec (.div x x) s = .next (s.ended 1 0))) ∧
  ∀ s : State, s.status.init = true → s.store = .built 3 →
    exec (.div 0x53 0xCA) s = .next (s.ended 0x44 0) ∧ exec (.div 0x53 0x00) s = .next (s.ended 0 0)

/-- R123: INV, with its encoding, error, corner cases and examples. -/
def Obligations.InvResult : Prop :=
  (∀ x : Byte, encode (.inv x) = BitVec.ofNat 32 (x.toNat <<< 8 ||| 0x13)) ∧
  (∀ (s : State) (x : Byte), s.status.init = true → exec (.inv x) s = .next (s.ended ((s.store.invt x).setWidth 32) 0)) ∧
  (∀ (s : State) (x : Byte), s.status.init = false → exec (.inv x) s = .next (s.ended 0 3)) ∧
  (∀ (s : State) (idx : Fin 16) (x : Byte), s.status.init = true → s.store = .built idx →
    exec (.inv 0) s = .next (s.ended 0 0) ∧ exec (.inv 1) s = .next (s.ended 1 0) ∧
    (x ≠ 0 → exec (.inv (s.store.invt x)) s = .next (s.ended (x.setWidth 32) 0))) ∧
  ∀ s : State, s.status.init = true → s.store = .built 3 →
    exec (.inv 0x02) s = .next (s.ended 0xA6 0) ∧ exec (.inv 0x80) s = .next (s.ended 0x93 0)

/-- R124: EXP, with its encoding, errors in order, corner cases and examples. -/
def Obligations.ExpResult : Prop :=
  (∀ idx, idx < 65536 → encode (.exp idx) = BitVec.ofNat 32 (idx <<< 8 ||| 0x14)) ∧
  (∀ (s : State) (idx : Nat), idx ≤ 1020 → s.status.init = true →
    exec (.exp idx) s = .next (s.ended ((s.store.exp idx).setWidth 32) 0)) ∧
  (∀ (s : State) (idx : Nat), 1020 < idx → exec (.exp idx) s = .next (s.ended 0 1)) ∧
  (∀ (s : State) (idx : Nat), idx ≤ 1020 → s.status.init = false → exec (.exp idx) s = .next (s.ended 0 3)) ∧
  (∀ (s : State) (p : Fin 16), s.status.init = true → s.store = .built p →
    exec (.exp 0) s = .next (s.ended 1 0) ∧ exec (.exp 255) s = .next (s.ended 1 0) ∧ exec (.exp 510) s = .next (s.ended 1 0) ∧
    ∀ j, 511 ≤ j → j ≤ 1020 → exec (.exp j) s = .next (s.ended 0 0)) ∧
  ∀ s : State, s.status.init = true → s.store = .built 3 →
    exec (.exp 8) s = .next (s.ended 0x4D 0) ∧ exec (.exp 300) s = .next (s.ended 0xA4 0) ∧
      exec (.exp 1020) s = .next (s.ended 0 0)

/-- R125: LOG, with its encoding, error, corner cases and examples. -/
def Obligations.LogResult : Prop :=
  (∀ x : Byte, encode (.log x) = BitVec.ofNat 32 (x.toNat <<< 8 ||| 0x15)) ∧
  (∀ (s : State) (x : Byte), s.status.init = true → exec (.log x) s = .next (s.ended ((s.store.log x).setWidth 32) 0)) ∧
  (∀ (s : State) (x : Byte), s.status.init = false → exec (.log x) s = .next (s.ended 0 3)) ∧
  (∀ (s : State) (idx : Fin 16), s.status.init = true → s.store = .built idx →
    exec (.log 0) s = .next (s.ended 512 0) ∧ exec (.log 1) s = .next (s.ended 255 0) ∧
    exec (.log 2) s = .next (s.ended 1 0) ∧ ∀ (x : Byte) (t : State), exec (.log x) s = .next t → t.result.toNat ≤ 512) ∧
  ∀ s : State, s.status.init = true → s.store = .built 3 →
    exec (.log 0x80) s = .next (s.ended 7 0) ∧ exec (.log 0x00) s = .next (s.ended 0x200 0)

/-! ## CAUCHY (41_cauchy.md) -/

/-- The checks of CAUCHY in their order, each ending the command with no memory written (R151, R231). -/
def Obligations.CauchyChecks : Prop :=
  ∀ s : State, (¬ s.goodBlockCounts → exec .cauchy s = .next (s.ended 0 1)) ∧
    (s.goodBlockCounts → s.dst = 0 → exec .cauchy s = .next (s.ended 0 2)) ∧
    (s.goodBlockCounts → s.dst ≠ 0 → s.status.init = false → exec .cauchy s = .next (s.ended 0 3)) ∧
    (s.goodBlockCounts → s.dst ≠ 0 → s.status.init = true → s.cfg.memBytes < s.dst.toNat + s.m.toNat * s.k.toNat →
      exec .cauchy s = .next (s.ended 0 7))

/-- CAUCHY, its checks passed, completes with RESULT 0; element [i][j] of the matrix stands at DST + i·K + j, and after an INIT it
is not zero; no byte outside the matrix changes, and nothing but memory, RESULT and STATUS does (R150, R151). -/
def Obligations.CauchyWritesTheMatrix : Prop :=
  ∀ s : State, s.cauchyReady → s.mem.wf = true →
    ∃ t, exec .cauchy s = .next t ∧ t = ({ s with mem := t.mem } : State).ended 0 0 ∧
      (∀ i, i < s.m.toNat → ∀ j, j < s.k.toNat →
        t.mem.read (s.dst.toNat + i * s.k.toNat + j) =
          gfInv s.store (gfAdd (BitVec.ofNat 8 (s.k.toNat + i)) (BitVec.ofNat 8 j)) ∧
        ((∃ idx, s.store = .built idx) → t.mem.read (s.dst.toNat + i * s.k.toNat + j) ≠ 0)) ∧
      onlyWrites s t s.dst.toNat (s.m.toNat * s.k.toNat)

/-- R152: every square submatrix of the Cauchy matrix, on distinct rows and distinct columns, is invertible, and `gf_invert` of it
never finds it singular. -/
def Obligations.CauchySubmatricesInvert : Prop :=
  ∀ (idx : Fin 16) (k m : Nat) (rows cols : List Nat), k + m ≤ 256 → rows.Nodup → cols.Nodup → (∀ r ∈ rows, r < m) →
    (∀ c ∈ cols, c < k) → rows.length = cols.length →
    ∃ b, gfInvert (.built idx) rows.length
        (Mat.build rows.length rows.length fun t u => cauchyEntry (.built idx) k (rows.getD t 0) (cols.getD u 0)) = some b ∧
      isInverse (.built idx) rows.length (fun t u => cauchyEntry (.built idx) k (rows.getD t 0) (cols.getD u 0)) b.get

/-! ## ENCODE (42_encoder.md) -/

/-- R160: the checks of ENCODE in their order, each ending the command with no memory written. -/
def Obligations.EncodeChecks : Prop :=
  ∀ s : State, (¬ (s.goodBlockCounts ∧ s.goodBlockBytes) → exec .encode s = .next (s.ended 0 1)) ∧
    (s.goodBlockCounts → s.goodBlockBytes →
      (s.src = 0 ∨ s.dst = 0 → exec .encode s = .next (s.ended 0 2)) ∧
      (s.src ≠ 0 → s.dst ≠ 0 → s.status.init = false → exec .encode s = .next (s.ended 0 3)) ∧
      (s.src ≠ 0 → s.dst ≠ 0 → s.status.init = true →
        s.cfg.memBytes < s.src.toNat + s.k.toNat * s.blockBytes.toNat ∨
          s.cfg.memBytes < s.dst.toNat + s.m.toNat * s.blockBytes.toNat →
        exec .encode s = .next (s.ended 0 7)))

/-- ENCODE's closed form (R162): the checks passed and the buffers apart, it completes with RESULT 0; byte p of recovery block i is
the sum over the data blocks of data byte p times the Cauchy coefficient; every byte outside the recovery buffer is unchanged. -/
def Obligations.EncodeClosedForm : Prop :=
  ∀ (s : State) (idx : Fin 16), s.encodeReady → s.encodeApart → s.mem.wf = true → s.store = .built idx →
    ∃ t, exec .encode s = .next t ∧ t = ({ s with mem := t.mem } : State).ended 0 0 ∧
      (∀ i, i < s.m.toNat → ∀ p, p < s.blockBytes.toNat →
        t.mem.read (s.dst.toNat + i * s.blockBytes.toNat + p) =
          xorSum s.k.toNat fun j =>
            gfMul s.store (s.mem.read (s.src.toNat + j * s.blockBytes.toNat + p)) (cauchyEntry s.store s.k.toNat i j)) ∧
      onlyWrites s t s.dst.toNat (s.m.toNat * s.blockBytes.toNat)

/-- ENCODE leaves exactly the memory that its pseudocode leaves, which zeroes the recovery buffer and then reads and writes it byte
by byte (R161), whenever the buffers are apart. -/
def Obligations.EncodeIsItsPseudocode : Prop :=
  ∀ s : State, s.encodeReady → s.encodeApart → s.mem.wf = true →
    exec .encode s = .next (({ s with mem := encodePseudocode s } : State).ended 0 0)

/-- With k = m = 1 the recovery block equals the data block, and all-zero data gives all-zero recovery blocks (R163). -/
def Obligations.EncodeCornerCases : Prop :=
  ∀ (s t : State) (idx : Fin 16), s.encodeReady → s.encodeApart → s.mem.wf = true → s.store = .built idx →
    exec .encode s = .next t →
    (s.k = 1 → s.m = 1 → ∀ p, p < s.blockBytes.toNat → t.mem.read (s.dst.toNat + p) = s.mem.read (s.src.toNat + p)) ∧
    ((∀ q, q < s.k.toNat * s.blockBytes.toNat → s.mem.read (s.src.toNat + q) = 0) →
      ∀ q, q < s.m.toNat * s.blockBytes.toNat → t.mem.read (s.dst.toNat + q) = 0)

/-- R76: an ENCODE or DECODE that passes its checks but breaks its assumption is refused; CAUCHY and INVERT, which assume nothing,
always complete, whatever overlaps. -/
def Obligations.OverlapIsRefused : Prop :=
  (∀ s : State, s.encodeReady → ¬ s.encodeApart → exec .encode s = .refused .overlappingBuffers) ∧
  (∀ s : State, s.decodeReady → ¬ s.decodeApart → exec .decode s = .refused .overlappingBuffers) ∧
  ∀ s : State, (∃ t, exec .cauchy s = .next t) ∧ ∃ t, exec .invert s = .next t

/-! ## INVERT (43_inverter.md) -/

/-- R180: the checks of INVERT in their order, each ending the command with no memory written. -/
def Obligations.InvertChecks : Prop :=
  ∀ s : State, (¬ (1 ≤ s.n.toNat ∧ s.n.toNat ≤ 256) → exec .invert s = .next (s.ended 0 1)) ∧
    (1 ≤ s.n.toNat → s.n.toNat ≤ 256 →
      (s.src = 0 ∨ s.dst = 0 → exec .invert s = .next (s.ended 0 2)) ∧
      (s.src ≠ 0 → s.dst ≠ 0 → s.status.init = false → exec .invert s = .next (s.ended 0 3)) ∧
      (s.src ≠ 0 → s.dst ≠ 0 → s.status.init = true →
        s.cfg.memBytes < s.src.toNat + s.n.toNat * s.n.toNat ∨ s.cfg.memBytes < s.dst.toNat + s.n.toNat * s.n.toNat →
        exec .invert s = .next (s.ended 0 7)))

/-- R183: `gf_invert` answers singular exactly when the matrix has no inverse; otherwise it answers an inverse, and the only one. -/
def Obligations.GaussJordanIsCorrect : Prop :=
  ∀ (idx : Fin 16) (n : Nat) (a : Mat),
    (gfInvert (.built idx) n a = none ↔ ¬ ∃ b, isInverse (.built idx) n a.get b) ∧
    ∀ b, gfInvert (.built idx) n a = some b → isInverse (.built idx) n a.get b.get ∧
      ∀ b', isInverse (.built idx) n a.get b' → ∀ r, r < n → ∀ c, c < n → b' r c = b.get r c

/-- INVERT, its checks passed, completes: it writes the inverse of the matrix at SRC row-major at DST, whatever overlaps, and no
other byte; a matrix without an inverse ends it with MatrixOperation and no byte written (R181, R184). -/
def Obligations.InvertWritesTheInverse : Prop :=
  ∀ (s : State) (idx : Fin 16) (a : Nat → Nat → Byte), s.invertReady → s.mem.wf = true → s.store = .built idx →
    (∀ r c, a r c = s.mem.read (s.src.toNat + r * s.n.toNat + c)) →
    (∀ b, isInverse s.store s.n.toNat a b →
      ∃ t, exec .invert s = .next t ∧ t = ({ s with mem := t.mem } : State).ended 0 0 ∧
        (∀ r, r < s.n.toNat → ∀ c, c < s.n.toNat → t.mem.read (s.dst.toNat + r * s.n.toNat + c) = b r c) ∧
        onlyWrites s t s.dst.toNat (s.n.toNat * s.n.toNat)) ∧
    ((¬ ∃ b, isInverse s.store s.n.toNat a b) → exec .invert s = .next (s.ended 0 5))

/-! ## DECODE (44_decoder.md) -/

/-- R200: the parameter checks of DECODE in their order, each ending the command with no memory written. -/
def Obligations.DecodeParameterChecks : Prop :=
  ∀ s : State, (¬ (s.goodBlockCounts ∧ s.goodBlockBytes) → exec .decode s = .next (s.ended 0 1)) ∧
    (s.goodBlockCounts → s.goodBlockBytes → s.src = 0 → exec .decode s = .next (s.ended 0 2)) ∧
    (s.goodBlockCounts → s.goodBlockBytes → s.src ≠ 0 → s.status.init = false → exec .decode s = .next (s.ended 0 3))

/-- DECODE's validation pass (R201, R69): the fields of a descriptor, and AddressRange when the table, or any payload, present or
empty, runs past MEM_BYTES. A table of no descriptors from SRC at most MEM_BYTES passes, and ends in InsufficientBlocks (R210);
for one from SRC above MEM_BYTES the model follows R62 and R201's formula over R64's sentence on length 0 (log 15). -/
def Obligations.DecodeValidation : Prop :=
  (∀ (s : State) (i : Nat), s.desc i =
    { addr := (s.mem.read (s.src.toNat + 8 * i)).toNat + 2 ^ 8 * (s.mem.read (s.src.toNat + 8 * i + 1)).toNat +
        2 ^ 16 * (s.mem.read (s.src.toNat + 8 * i + 2)).toNat + 2 ^ 24 * (s.mem.read (s.src.toNat + 8 * i + 3)).toNat,
      row := (s.mem.read (s.src.toNat + 8 * i + 4)).toNat,
      present := (s.mem.read (s.src.toNat + 8 * i + 5)).getLsbD 0 }) ∧
  ∀ s : State, s.decodeParamsReady →
    (s.cfg.memBytes < s.src.toNat + 8 * s.nblk.toNat → exec .decode s = .next (s.ended 0 7)) ∧
    (∀ i, i < s.nblk.toNat → s.cfg.memBytes < (s.desc i).addr + s.blockBytes.toNat → exec .decode s = .next (s.ended 0 7)) ∧
    (s.nblk = 0 → s.src.toNat ≤ s.cfg.memBytes → exec .decode s = .next (s.ended 0 4))

/-- R203: the missing rows, in increasing order, and the data slot of a row that is not missing. -/
def Obligations.MissingRows : Prop :=
  ∀ s : State,
    (∀ i, i ∈ s.missing ↔ i < s.k.toNat ∧ ¬ ∃ e, e < s.nblk.toNat ∧ (s.desc e).present = true ∧ (s.desc e).row = i) ∧
    s.missing.Pairwise (· < ·) ∧
    ∀ l, l < s.k.toNat → l ∉ s.missing →
      ∃ e, e < s.nblk.toNat ∧ (s.desc e).present = true ∧ (s.desc e).row = l ∧ dataAddr s.descriptors l = (s.desc e).addr ∧
        ∀ e', e' < e → ¬ ((s.desc e').present = true ∧ (s.desc e').row = l)

/-- R204: with no data row missing DECODE completes with RESULT 0 and writes nothing. -/
def Obligations.NothingMissingWritesNothing : Prop :=
  ∀ s : State, s.decodeReady → s.decodeApart →
    (∀ i, i < s.k.toNat → ∃ e, e < s.nblk.toNat ∧ (s.desc e).present = true ∧ (s.desc e).row = i) →
    exec .decode s = .next (s.ended 0 0)

/-- R205: the recovery rows are taken from slots in table order, each present with a row in [k, k + m); the rows are distinct and at
most as many as the missing ones; a descriptor with such a row is passed over only if its row is already taken, or once enough are
taken; with too few the command fails with InsufficientBlocks. -/
def Obligations.RecoveryRows : Prop :=
  ∀ s : State,
    (∃ slots : List Nat, slots.Pairwise (· < ·) ∧
      (∀ e ∈ slots, e < s.nblk.toNat ∧ (s.desc e).present = true ∧ s.k.toNat ≤ (s.desc e).row ∧
        (s.desc e).row < s.k.toNat + s.m.toNat) ∧
      s.recovery = slots.map (fun e => ⟨(s.desc e).row - s.k.toNat, (s.desc e).addr⟩) ∧
      (slots.map fun e => (s.desc e).row).Nodup ∧ slots.length ≤ s.missing.length ∧
      ∀ e, e < s.nblk.toNat → (s.desc e).present = true → s.k.toNat ≤ (s.desc e).row →
        (s.desc e).row < s.k.toNat + s.m.toNat → (slots.length < s.missing.length ∨ ∃ l ∈ slots, e < l) →
        ∃ e' ∈ slots, e' ≤ e ∧ (s.desc e').row = (s.desc e).row) ∧
    (s.decodeReady → s.decodeApart → s.recovery.length < s.missing.length → exec .decode s = .next (s.ended 0 4))

/-- "Fewer than k present blocks: the command always fails with InsufficientBlocks" (R210), once its checks have passed. -/
def Obligations.FewerThanKPresentFails : Prop :=
  ∀ s : State, s.decodeReady → s.decodeApart → (s.descriptors.filter fun d => d.present).length < s.k.toNat →
    exec .decode s = .next (s.ended 0 4)

/-- MatrixOperation is unreachable in DECODE, for any descriptor table (R206). -/
def Obligations.DecodeIsNeverSingular : Prop :=
  ∀ (s t : State) (idx : Fin 16), s.store = .built idx → exec .decode s = .next t → t.status.err ≠ 5

/-- DECODE's closed form (R206, R207, R208): with its checks passed, its buffers apart, no install on a payload still to be read
(the model's choice, log 19) and enough recovery rows, it completes: S has an inverse, and one block is installed for each
missing row as far as empty slots reach: payload, ROW and FLAGS as R208 gives them, every other byte unchanged; RESULT counts
the installs, and ERR is BlockBuffer exactly when a slot was lacking. -/
def Obligations.DecodeClosedForm : Prop :=
  ∀ (s : State) (idx : Fin 16) (c : Nat), s.decodeReady → s.decodeApart → s.installsApart → s.mem.wf = true → s.store = .built idx →
    s.missing ≠ [] → s.missing.length ≤ s.recovery.length → c = min s.missing.length (emptySlots s.descriptors).length →
    ∃ sinv t, isInverse s.store s.missing.length
        (fun a b => cauchyEntry s.store s.k.toNat (recoveryAt s.recovery a).row (s.missing.getD b 0)) sinv.get ∧
      exec .decode s = .next t ∧
      t = ({ s with mem := t.mem } : State).ended (BitVec.ofNat 32 c)
            (if (emptySlots s.descriptors).length < s.missing.length then 6 else 0) ∧
      (∀ u, u < c →
        (∀ p, p < s.blockBytes.toNat →
          t.mem.read ((s.desc (installSlot s.descriptors u)).addr + p) = s.rebuiltClosed sinv u p) ∧
        t.mem.read (s.src.toNat + 8 * installSlot s.descriptors u + 4) = BitVec.ofNat 8 (s.missing.getD u 0) ∧
        t.mem.read (s.src.toNat + 8 * installSlot s.descriptors u + 5) = 0x01) ∧
      ∀ a, (∀ u, u < c →
          ¬ ((s.desc (installSlot s.descriptors u)).addr ≤ a ∧
              a < (s.desc (installSlot s.descriptors u)).addr + s.blockBytes.toNat) ∧
          a ≠ s.src.toNat + 8 * installSlot s.descriptors u + 4 ∧ a ≠ s.src.toNat + 8 * installSlot s.descriptors u + 5) →
        t.mem.read a = s.mem.read a

/-- DECODE leaves exactly the memory that step 6 of its pseudocode leaves, which reads the payloads again for every block, after the
earlier installs (R207), whenever the buffers are apart and no install reaches a payload still to be read; where one does, DECODE
is refused, which is the model's choice (I6, D37, log 19). -/
def Obligations.DecodeIsItsPseudocode : Prop :=
  ∀ (s : State) (sinv : Mat), s.decodeReady → s.decodeApart → s.mem.wf = true → s.missing ≠ [] →
    s.missing.length ≤ s.recovery.length → s.solvedBy sinv →
    (s.installsApart → exec .decode s =
      let out := installLoop s sinv (List.range s.missing.length) (emptySlots s.descriptors) s.mem 0
      .next (({ s with mem := out.1 } : State).ended (BitVec.ofNat 32 out.2.1) (if out.2.2 then 0 else 6))) ∧
    (¬ s.installsApart → exec .decode s = .refused .overlappingBuffers)

/-- R209: if every present data descriptor holds its data block and every present recovery descriptor the block ENCODE made of them
(R162), a DECODE that completes with ERR = 0 leaves, for every missing row, exactly one present descriptor with that row, in a
slot that was empty, and its payload is the original data block. -/
def Obligations.DecodeRestoresTheData : Prop :=
  ∀ (s t : State) (idx : Fin 16) (data : Nat → Nat → Byte), s.mem.wf = true → s.store = .built idx →
    (∀ e, e < s.nblk.toNat → (s.desc e).present = true → (s.desc e).row < s.k.toNat →
      ∀ p, p < s.blockBytes.toNat → s.mem.read ((s.desc e).addr + p) = data (s.desc e).row p) →
    (∀ e, e < s.nblk.toNat → (s.desc e).present = true → s.k.toNat ≤ (s.desc e).row →
      (s.desc e).row < s.k.toNat + s.m.toNat → ∀ p, p < s.blockBytes.toNat →
        s.mem.read ((s.desc e).addr + p) =
          xorSum s.k.toNat fun j => gfMul s.store (data j p) (cauchyEntry s.store s.k.toNat ((s.desc e).row - s.k.toNat) j)) →
    exec .decode s = .next t → t.status.err = 0 →
    ∀ i ∈ s.missing, ∃ e, e < s.nblk.toNat ∧ (s.desc e).present = false ∧ (t.desc e).present = true ∧ (t.desc e).row = i ∧
      (t.desc e).addr = (s.desc e).addr ∧ (∀ p, p < s.blockBytes.toNat → t.mem.read ((t.desc e).addr + p) = data i p) ∧
      ∀ e', e' < s.nblk.toNat → (t.desc e').present = true → (t.desc e').row = i → e' = e

/-- A second DECODE on the same table finds no missing row and leaves memory as it is (R269). -/
def Obligations.DecodeAgainChangesNothing : Prop :=
  ∀ s t : State, s.mem.wf = true → exec .decode s = .next t → t.status.err = 0 → exec .decode t = .next (t.ended 0 0)
end

