-- ==== Sys2Proof/Laws/State.lean ====
section
/-! SUPPORT. What each update of the state leaves in each field: one lemma per field per update, true by rfl. -/

namespace Sys2Proof.Machine

variable (s : State)

@[simp] theorem accept_cmd (w : Word) : (s.accept w).cmd = w := rfl
@[simp] theorem accept_status (w : Word) : (s.accept w).status = s.status.accept := rfl
@[simp] theorem accept_ie (w : Word) : (s.accept w).ie = s.ie := rfl
@[simp] theorem accept_result (w : Word) : (s.accept w).result = s.result := rfl
@[simp] theorem accept_k (w : Word) : (s.accept w).k = s.k := rfl
@[simp] theorem accept_m (w : Word) : (s.accept w).m = s.m := rfl
@[simp] theorem accept_blockBytes (w : Word) : (s.accept w).blockBytes = s.blockBytes := rfl
@[simp] theorem accept_n (w : Word) : (s.accept w).n = s.n := rfl
@[simp] theorem accept_src (w : Word) : (s.accept w).src = s.src := rfl
@[simp] theorem accept_dst (w : Word) : (s.accept w).dst = s.dst := rfl
@[simp] theorem accept_nblk (w : Word) : (s.accept w).nblk = s.nblk := rfl
@[simp] theorem accept_poly (w : Word) : (s.accept w).poly = s.poly := rfl
@[simp] theorem accept_store (w : Word) : (s.accept w).store = s.store := rfl
@[simp] theorem accept_mem (w : Word) : (s.accept w).mem = s.mem := rfl
@[simp] theorem accept_cfg (w : Word) : (s.accept w).cfg = s.cfg := rfl
@[simp] theorem accept_turns (w : Word) : (s.accept w).turns = s.turns := rfl
@[simp] theorem accept_host (w : Word) : (s.accept w).host = s.host := rfl
@[simp] theorem accept_bindings (w : Word) : (s.accept w).bindings = s.bindings := rfl
@[simp] theorem accept_free (w : Word) : (s.accept w).free = s.free := rfl

@[simp] theorem complete_cmd (v : Word) : (s.complete v).cmd = s.cmd := rfl
@[simp] theorem complete_status (v : Word) : (s.complete v).status = s.status.complete 0 := rfl
@[simp] theorem complete_ie (v : Word) : (s.complete v).ie = s.ie := rfl
@[simp] theorem complete_result (v : Word) : (s.complete v).result = v := rfl
@[simp] theorem complete_k (v : Word) : (s.complete v).k = s.k := rfl
@[simp] theorem complete_m (v : Word) : (s.complete v).m = s.m := rfl
@[simp] theorem complete_blockBytes (v : Word) : (s.complete v).blockBytes = s.blockBytes := rfl
@[simp] theorem complete_n (v : Word) : (s.complete v).n = s.n := rfl
@[simp] theorem complete_src (v : Word) : (s.complete v).src = s.src := rfl
@[simp] theorem complete_dst (v : Word) : (s.complete v).dst = s.dst := rfl
@[simp] theorem complete_nblk (v : Word) : (s.complete v).nblk = s.nblk := rfl
@[simp] theorem complete_poly (v : Word) : (s.complete v).poly = s.poly := rfl
@[simp] theorem complete_store (v : Word) : (s.complete v).store = s.store := rfl
@[simp] theorem complete_mem (v : Word) : (s.complete v).mem = s.mem := rfl
@[simp] theorem complete_cfg (v : Word) : (s.complete v).cfg = s.cfg := rfl
@[simp] theorem complete_turns (v : Word) : (s.complete v).turns = s.turns := rfl
@[simp] theorem complete_host (v : Word) : (s.complete v).host = s.host := rfl
@[simp] theorem complete_bindings (v : Word) : (s.complete v).bindings = s.bindings := rfl
@[simp] theorem complete_free (v : Word) : (s.complete v).free = s.free := rfl

@[simp] theorem raise_cmd (e : ErrorKind) (r : Word) : (s.raise e r).cmd = s.cmd := rfl
@[simp] theorem raise_status (e : ErrorKind) (r : Word) : (s.raise e r).status = s.status.complete e.code := rfl
@[simp] theorem raise_ie (e : ErrorKind) (r : Word) : (s.raise e r).ie = s.ie := rfl
@[simp] theorem raise_result (e : ErrorKind) (r : Word) : (s.raise e r).result = r := rfl
@[simp] theorem raise_k (e : ErrorKind) (r : Word) : (s.raise e r).k = s.k := rfl
@[simp] theorem raise_m (e : ErrorKind) (r : Word) : (s.raise e r).m = s.m := rfl
@[simp] theorem raise_blockBytes (e : ErrorKind) (r : Word) : (s.raise e r).blockBytes = s.blockBytes := rfl
@[simp] theorem raise_n (e : ErrorKind) (r : Word) : (s.raise e r).n = s.n := rfl
@[simp] theorem raise_src (e : ErrorKind) (r : Word) : (s.raise e r).src = s.src := rfl
@[simp] theorem raise_dst (e : ErrorKind) (r : Word) : (s.raise e r).dst = s.dst := rfl
@[simp] theorem raise_nblk (e : ErrorKind) (r : Word) : (s.raise e r).nblk = s.nblk := rfl
@[simp] theorem raise_poly (e : ErrorKind) (r : Word) : (s.raise e r).poly = s.poly := rfl
@[simp] theorem raise_store (e : ErrorKind) (r : Word) : (s.raise e r).store = s.store := rfl
@[simp] theorem raise_mem (e : ErrorKind) (r : Word) : (s.raise e r).mem = s.mem := rfl
@[simp] theorem raise_cfg (e : ErrorKind) (r : Word) : (s.raise e r).cfg = s.cfg := rfl
@[simp] theorem raise_turns (e : ErrorKind) (r : Word) : (s.raise e r).turns = s.turns := rfl
@[simp] theorem raise_host (e : ErrorKind) (r : Word) : (s.raise e r).host = s.host := rfl
@[simp] theorem raise_bindings (e : ErrorKind) (r : Word) : (s.raise e r).bindings = s.bindings := rfl
@[simp] theorem raise_free (e : ErrorKind) (r : Word) : (s.raise e r).free = s.free := rfl

@[simp] theorem buildTables_cmd (idx : Fin 16) : (s.buildTables idx).cmd = s.cmd := rfl
@[simp] theorem buildTables_status (idx : Fin 16) : (s.buildTables idx).status = s.status.initialized := rfl
@[simp] theorem buildTables_ie (idx : Fin 16) : (s.buildTables idx).ie = s.ie := rfl
@[simp] theorem buildTables_result (idx : Fin 16) : (s.buildTables idx).result = s.result := rfl
@[simp] theorem buildTables_k (idx : Fin 16) : (s.buildTables idx).k = s.k := rfl
@[simp] theorem buildTables_m (idx : Fin 16) : (s.buildTables idx).m = s.m := rfl
@[simp] theorem buildTables_blockBytes (idx : Fin 16) : (s.buildTables idx).blockBytes = s.blockBytes := rfl
@[simp] theorem buildTables_n (idx : Fin 16) : (s.buildTables idx).n = s.n := rfl
@[simp] theorem buildTables_src (idx : Fin 16) : (s.buildTables idx).src = s.src := rfl
@[simp] theorem buildTables_dst (idx : Fin 16) : (s.buildTables idx).dst = s.dst := rfl
@[simp] theorem buildTables_nblk (idx : Fin 16) : (s.buildTables idx).nblk = s.nblk := rfl
@[simp] theorem buildTables_poly (idx : Fin 16) : (s.buildTables idx).poly = polyOf idx := rfl
@[simp] theorem buildTables_store (idx : Fin 16) : (s.buildTables idx).store = .built idx := rfl
@[simp] theorem buildTables_mem (idx : Fin 16) : (s.buildTables idx).mem = s.mem := rfl
@[simp] theorem buildTables_cfg (idx : Fin 16) : (s.buildTables idx).cfg = s.cfg := rfl
@[simp] theorem buildTables_turns (idx : Fin 16) : (s.buildTables idx).turns = s.turns := rfl
@[simp] theorem buildTables_host (idx : Fin 16) : (s.buildTables idx).host = s.host := rfl
@[simp] theorem buildTables_bindings (idx : Fin 16) : (s.buildTables idx).bindings = s.bindings := rfl
@[simp] theorem buildTables_free (idx : Fin 16) : (s.buildTables idx).free = s.free := rfl

@[simp] theorem writeAll_cmd (ws : List Host.Cell) : (s.writeAll ws).cmd = s.cmd := rfl
@[simp] theorem writeAll_status (ws : List Host.Cell) : (s.writeAll ws).status = s.status := rfl
@[simp] theorem writeAll_ie (ws : List Host.Cell) : (s.writeAll ws).ie = s.ie := rfl
@[simp] theorem writeAll_result (ws : List Host.Cell) : (s.writeAll ws).result = s.result := rfl
@[simp] theorem writeAll_k (ws : List Host.Cell) : (s.writeAll ws).k = s.k := rfl
@[simp] theorem writeAll_m (ws : List Host.Cell) : (s.writeAll ws).m = s.m := rfl
@[simp] theorem writeAll_blockBytes (ws : List Host.Cell) : (s.writeAll ws).blockBytes = s.blockBytes := rfl
@[simp] theorem writeAll_n (ws : List Host.Cell) : (s.writeAll ws).n = s.n := rfl
@[simp] theorem writeAll_src (ws : List Host.Cell) : (s.writeAll ws).src = s.src := rfl
@[simp] theorem writeAll_dst (ws : List Host.Cell) : (s.writeAll ws).dst = s.dst := rfl
@[simp] theorem writeAll_nblk (ws : List Host.Cell) : (s.writeAll ws).nblk = s.nblk := rfl
@[simp] theorem writeAll_poly (ws : List Host.Cell) : (s.writeAll ws).poly = s.poly := rfl
@[simp] theorem writeAll_store (ws : List Host.Cell) : (s.writeAll ws).store = s.store := rfl
@[simp] theorem writeAll_mem (ws : List Host.Cell) : (s.writeAll ws).mem = s.mem.writeAll ws := rfl
@[simp] theorem writeAll_cfg (ws : List Host.Cell) : (s.writeAll ws).cfg = s.cfg := rfl
@[simp] theorem writeAll_turns (ws : List Host.Cell) : (s.writeAll ws).turns = s.turns := rfl
@[simp] theorem writeAll_host (ws : List Host.Cell) : (s.writeAll ws).host = s.host := rfl
@[simp] theorem writeAll_bindings (ws : List Host.Cell) : (s.writeAll ws).bindings = s.bindings := rfl
@[simp] theorem writeAll_free (ws : List Host.Cell) : (s.writeAll ws).free = s.free := rfl

@[simp] theorem resetRegisters_cmd : s.resetRegisters.cmd = 0 := rfl
@[simp] theorem resetRegisters_status : s.resetRegisters.status = Status.reset := rfl
@[simp] theorem resetRegisters_ie : s.resetRegisters.ie = false := rfl
@[simp] theorem resetRegisters_result : s.resetRegisters.result = 0 := rfl
@[simp] theorem resetRegisters_k : s.resetRegisters.k = 0 := rfl
@[simp] theorem resetRegisters_m : s.resetRegisters.m = 0 := rfl
@[simp] theorem resetRegisters_blockBytes : s.resetRegisters.blockBytes = 0 := rfl
@[simp] theorem resetRegisters_n : s.resetRegisters.n = 0 := rfl
@[simp] theorem resetRegisters_src : s.resetRegisters.src = 0 := rfl
@[simp] theorem resetRegisters_dst : s.resetRegisters.dst = 0 := rfl
@[simp] theorem resetRegisters_nblk : s.resetRegisters.nblk = 0 := rfl
@[simp] theorem resetRegisters_poly : s.resetRegisters.poly = 0 := rfl
@[simp] theorem resetRegisters_store : s.resetRegisters.store = .unspecified s.free := rfl
@[simp] theorem resetRegisters_mem : s.resetRegisters.mem = s.mem := rfl
@[simp] theorem resetRegisters_cfg : s.resetRegisters.cfg = s.cfg := rfl
@[simp] theorem resetRegisters_turns : s.resetRegisters.turns = s.turns := rfl
@[simp] theorem resetRegisters_host : s.resetRegisters.host = s.host := rfl
@[simp] theorem resetRegisters_bindings : s.resetRegisters.bindings = s.bindings := rfl
@[simp] theorem resetRegisters_free : s.resetRegisters.free = s.free + 1 := rfl

@[simp] theorem writeStatus_cmd (v : Word) : (s.writeStatus v).cmd = s.cmd := rfl
@[simp] theorem writeStatus_status (v : Word) : (s.writeStatus v).status = s.status.hostWrite v := rfl
@[simp] theorem writeStatus_ie (v : Word) : (s.writeStatus v).ie = s.ie := rfl
@[simp] theorem writeStatus_result (v : Word) : (s.writeStatus v).result = s.result := rfl
@[simp] theorem writeStatus_k (v : Word) : (s.writeStatus v).k = s.k := rfl
@[simp] theorem writeStatus_m (v : Word) : (s.writeStatus v).m = s.m := rfl
@[simp] theorem writeStatus_blockBytes (v : Word) : (s.writeStatus v).blockBytes = s.blockBytes := rfl
@[simp] theorem writeStatus_n (v : Word) : (s.writeStatus v).n = s.n := rfl
@[simp] theorem writeStatus_src (v : Word) : (s.writeStatus v).src = s.src := rfl
@[simp] theorem writeStatus_dst (v : Word) : (s.writeStatus v).dst = s.dst := rfl
@[simp] theorem writeStatus_nblk (v : Word) : (s.writeStatus v).nblk = s.nblk := rfl
@[simp] theorem writeStatus_poly (v : Word) : (s.writeStatus v).poly = s.poly := rfl
@[simp] theorem writeStatus_store (v : Word) : (s.writeStatus v).store = s.store := rfl
@[simp] theorem writeStatus_mem (v : Word) : (s.writeStatus v).mem = s.mem := rfl
@[simp] theorem writeStatus_cfg (v : Word) : (s.writeStatus v).cfg = s.cfg := rfl
@[simp] theorem writeStatus_turns (v : Word) : (s.writeStatus v).turns = s.turns := rfl
@[simp] theorem writeStatus_host (v : Word) : (s.writeStatus v).host = s.host := rfl
@[simp] theorem writeStatus_bindings (v : Word) : (s.writeStatus v).bindings = s.bindings := rfl
@[simp] theorem writeStatus_free (v : Word) : (s.writeStatus v).free = s.free := rfl

@[simp] theorem ignoreWrite_cmd : s.ignoreWrite.cmd = s.cmd := rfl
@[simp] theorem ignoreWrite_status : s.ignoreWrite.status = s.status.writeIgnored := rfl
@[simp] theorem ignoreWrite_ie : s.ignoreWrite.ie = s.ie := rfl
@[simp] theorem ignoreWrite_result : s.ignoreWrite.result = s.result := rfl
@[simp] theorem ignoreWrite_k : s.ignoreWrite.k = s.k := rfl
@[simp] theorem ignoreWrite_m : s.ignoreWrite.m = s.m := rfl
@[simp] theorem ignoreWrite_blockBytes : s.ignoreWrite.blockBytes = s.blockBytes := rfl
@[simp] theorem ignoreWrite_n : s.ignoreWrite.n = s.n := rfl
@[simp] theorem ignoreWrite_src : s.ignoreWrite.src = s.src := rfl
@[simp] theorem ignoreWrite_dst : s.ignoreWrite.dst = s.dst := rfl
@[simp] theorem ignoreWrite_nblk : s.ignoreWrite.nblk = s.nblk := rfl
@[simp] theorem ignoreWrite_poly : s.ignoreWrite.poly = s.poly := rfl
@[simp] theorem ignoreWrite_store : s.ignoreWrite.store = s.store := rfl
@[simp] theorem ignoreWrite_mem : s.ignoreWrite.mem = s.mem := rfl
@[simp] theorem ignoreWrite_cfg : s.ignoreWrite.cfg = s.cfg := rfl
@[simp] theorem ignoreWrite_turns : s.ignoreWrite.turns = s.turns := rfl
@[simp] theorem ignoreWrite_host : s.ignoreWrite.host = s.host := rfl
@[simp] theorem ignoreWrite_bindings : s.ignoreWrite.bindings = s.bindings := rfl
@[simp] theorem ignoreWrite_free : s.ignoreWrite.free = s.free := rfl

@[simp] theorem bind_cmd (name : String) (v : HostValue) : (s.bind name v).cmd = s.cmd := rfl
@[simp] theorem bind_status (name : String) (v : HostValue) : (s.bind name v).status = s.status := rfl
@[simp] theorem bind_ie (name : String) (v : HostValue) : (s.bind name v).ie = s.ie := rfl
@[simp] theorem bind_result (name : String) (v : HostValue) : (s.bind name v).result = s.result := rfl
@[simp] theorem bind_k (name : String) (v : HostValue) : (s.bind name v).k = s.k := rfl
@[simp] theorem bind_m (name : String) (v : HostValue) : (s.bind name v).m = s.m := rfl
@[simp] theorem bind_blockBytes (name : String) (v : HostValue) : (s.bind name v).blockBytes = s.blockBytes := rfl
@[simp] theorem bind_n (name : String) (v : HostValue) : (s.bind name v).n = s.n := rfl
@[simp] theorem bind_src (name : String) (v : HostValue) : (s.bind name v).src = s.src := rfl
@[simp] theorem bind_dst (name : String) (v : HostValue) : (s.bind name v).dst = s.dst := rfl
@[simp] theorem bind_nblk (name : String) (v : HostValue) : (s.bind name v).nblk = s.nblk := rfl
@[simp] theorem bind_poly (name : String) (v : HostValue) : (s.bind name v).poly = s.poly := rfl
@[simp] theorem bind_store (name : String) (v : HostValue) : (s.bind name v).store = s.store := rfl
@[simp] theorem bind_mem (name : String) (v : HostValue) : (s.bind name v).mem = s.mem := rfl
@[simp] theorem bind_cfg (name : String) (v : HostValue) : (s.bind name v).cfg = s.cfg := rfl
@[simp] theorem bind_turns (name : String) (v : HostValue) : (s.bind name v).turns = s.turns := rfl
@[simp] theorem bind_host (name : String) (v : HostValue) : (s.bind name v).host = s.host := rfl
@[simp] theorem bind_bindings (name : String) (v : HostValue) : (s.bind name v).bindings = (name, v) :: s.bindings.filter fun b => b.1 != name := rfl
@[simp] theorem bind_free (name : String) (v : HostValue) : (s.bind name v).free = s.free := rfl

@[simp] theorem takeTurn_cmd : s.takeTurn.cmd = s.cmd := rfl
@[simp] theorem takeTurn_status : s.takeTurn.status = s.status := rfl
@[simp] theorem takeTurn_ie : s.takeTurn.ie = s.ie := rfl
@[simp] theorem takeTurn_result : s.takeTurn.result = s.result := rfl
@[simp] theorem takeTurn_k : s.takeTurn.k = s.k := rfl
@[simp] theorem takeTurn_m : s.takeTurn.m = s.m := rfl
@[simp] theorem takeTurn_blockBytes : s.takeTurn.blockBytes = s.blockBytes := rfl
@[simp] theorem takeTurn_n : s.takeTurn.n = s.n := rfl
@[simp] theorem takeTurn_src : s.takeTurn.src = s.src := rfl
@[simp] theorem takeTurn_dst : s.takeTurn.dst = s.dst := rfl
@[simp] theorem takeTurn_nblk : s.takeTurn.nblk = s.nblk := rfl
@[simp] theorem takeTurn_poly : s.takeTurn.poly = s.poly := rfl
@[simp] theorem takeTurn_store : s.takeTurn.store = s.store := rfl
@[simp] theorem takeTurn_mem : s.takeTurn.mem = s.mem := rfl
@[simp] theorem takeTurn_cfg : s.takeTurn.cfg = s.cfg := rfl
@[simp] theorem takeTurn_turns : s.takeTurn.turns = s.turns.tail := rfl
@[simp] theorem takeTurn_host : s.takeTurn.host = s.host := rfl
@[simp] theorem takeTurn_bindings : s.takeTurn.bindings = s.bindings := rfl
@[simp] theorem takeTurn_free : s.takeTurn.free = s.free := rfl

@[simp] theorem ended_cmd (v : Word) (c : BitVec 4) : (s.ended v c).cmd = s.cmd := rfl
@[simp] theorem ended_status (v : Word) (c : BitVec 4) : (s.ended v c).status = { s.status with busy := false, done := true, err := c } := rfl
@[simp] theorem ended_ie (v : Word) (c : BitVec 4) : (s.ended v c).ie = s.ie := rfl
@[simp] theorem ended_result (v : Word) (c : BitVec 4) : (s.ended v c).result = v := rfl
@[simp] theorem ended_k (v : Word) (c : BitVec 4) : (s.ended v c).k = s.k := rfl
@[simp] theorem ended_m (v : Word) (c : BitVec 4) : (s.ended v c).m = s.m := rfl
@[simp] theorem ended_blockBytes (v : Word) (c : BitVec 4) : (s.ended v c).blockBytes = s.blockBytes := rfl
@[simp] theorem ended_n (v : Word) (c : BitVec 4) : (s.ended v c).n = s.n := rfl
@[simp] theorem ended_src (v : Word) (c : BitVec 4) : (s.ended v c).src = s.src := rfl
@[simp] theorem ended_dst (v : Word) (c : BitVec 4) : (s.ended v c).dst = s.dst := rfl
@[simp] theorem ended_nblk (v : Word) (c : BitVec 4) : (s.ended v c).nblk = s.nblk := rfl
@[simp] theorem ended_poly (v : Word) (c : BitVec 4) : (s.ended v c).poly = s.poly := rfl
@[simp] theorem ended_store (v : Word) (c : BitVec 4) : (s.ended v c).store = s.store := rfl
@[simp] theorem ended_mem (v : Word) (c : BitVec 4) : (s.ended v c).mem = s.mem := rfl
@[simp] theorem ended_cfg (v : Word) (c : BitVec 4) : (s.ended v c).cfg = s.cfg := rfl
@[simp] theorem ended_turns (v : Word) (c : BitVec 4) : (s.ended v c).turns = s.turns := rfl
@[simp] theorem ended_host (v : Word) (c : BitVec 4) : (s.ended v c).host = s.host := rfl
@[simp] theorem ended_bindings (v : Word) (c : BitVec 4) : (s.ended v c).bindings = s.bindings := rfl
@[simp] theorem ended_free (v : Word) (c : BitVec 4) : (s.ended v c).free = s.free := rfl

variable (st : Status)

@[simp] theorem status_accept_busy : st.accept.busy = true := rfl
@[simp] theorem status_accept_done : st.accept.done = false := rfl
@[simp] theorem status_accept_init : st.accept.init = st.init := rfl
@[simp] theorem status_accept_wign : st.accept.wign = st.wign := rfl
@[simp] theorem status_accept_err : st.accept.err = 0 := rfl

@[simp] theorem status_complete_busy (c : BitVec 4) : (st.complete c).busy = false := rfl
@[simp] theorem status_complete_done (c : BitVec 4) : (st.complete c).done = true := rfl
@[simp] theorem status_complete_init (c : BitVec 4) : (st.complete c).init = st.init := rfl
@[simp] theorem status_complete_wign (c : BitVec 4) : (st.complete c).wign = st.wign := rfl
@[simp] theorem status_complete_err (c : BitVec 4) : (st.complete c).err = c := rfl

@[simp] theorem status_initialized_busy : st.initialized.busy = st.busy := rfl
@[simp] theorem status_initialized_done : st.initialized.done = st.done := rfl
@[simp] theorem status_initialized_init : st.initialized.init = true := rfl
@[simp] theorem status_initialized_wign : st.initialized.wign = st.wign := rfl
@[simp] theorem status_initialized_err : st.initialized.err = st.err := rfl

@[simp] theorem status_writeIgnored_busy : st.writeIgnored.busy = st.busy := rfl
@[simp] theorem status_writeIgnored_done : st.writeIgnored.done = st.done := rfl
@[simp] theorem status_writeIgnored_init : st.writeIgnored.init = st.init := rfl
@[simp] theorem status_writeIgnored_wign : st.writeIgnored.wign = true := rfl
@[simp] theorem status_writeIgnored_err : st.writeIgnored.err = st.err := rfl

@[simp] theorem status_hostWrite_busy (v : Word) : (st.hostWrite v).busy = st.busy := rfl
@[simp] theorem status_hostWrite_done (v : Word) : (st.hostWrite v).done = (st.done && !v.getLsbD 1) := rfl
@[simp] theorem status_hostWrite_init (v : Word) : (st.hostWrite v).init = st.init := rfl
@[simp] theorem status_hostWrite_wign (v : Word) : (st.hostWrite v).wign = (st.wign && !v.getLsbD 3) := rfl
@[simp] theorem status_hostWrite_err (v : Word) : (st.hostWrite v).err = st.err := rfl

/-- The two ways a command ends are one update with two codes (R233). -/
theorem complete_eq_ended (v : Word) : s.complete v = s.ended v 0 := rfl

theorem raise_eq_ended (e : ErrorKind) (r : Word) : s.raise e r = s.ended r e.code := rfl

end Sys2Proof.Machine
end

