-- ==== Sys2Proof/Laws/Csr.lean ====
section
/-! SUPPORT. The CSR map read backwards, and what an access to a mapped CSR is. -/

namespace Sys2Proof.Machine

/-- One line of the map. -/
theorem of_ite_some {p : Prop} [Decidable p] {α : Type} {a c : α} {x : Option α} (h : (if p then some a else x) = some c) :
    (p ∧ a = c) ∨ x = some c := by
  split at h
  · exact .inl ⟨‹p›, Option.some.inj h⟩
  · exact .inr h

/-- The offset of a mapped CSR (R24). -/
def Csr.offset : Csr → Nat
  | .cmd => 0x00
  | .status => 0x04
  | .ctrl => 0x08
  | .result => 0x0C
  | .k => 0x10
  | .m => 0x14
  | .blockBytes => 0x18
  | .n => 0x1C
  | .src => 0x20
  | .dst => 0x24
  | .nblk => 0x28
  | .poly => 0x2C

theorem csrAt_eq_some {off : Nat} {c : Csr} : csrAt off = some c ↔ off = c.offset := by
  constructor
  · intro h
    unfold csrAt at h
    iterate 12
      rcases of_ite_some h with ⟨rfl, rfl⟩ | h
      · rfl
    cases h
  · rintro rfl
    cases c <;> rfl

theorem csrAt_inj {off off' : Nat} {c : Csr} (h : csrAt off = some c) (h' : csrAt off' = some c) : off = off' :=
  (csrAt_eq_some.mp h).trans (csrAt_eq_some.mp h').symm

theorem readCsr_mapped {off : Nat} {c : Csr} {s : State} (h : csrAt off = some c) : s.readCsr off = s.csr c := by
  simp only [State.readCsr, h]

theorem writeCsr_idle {off : Nat} {c : Csr} {s : State} (v : Word) (h : csrAt off = some c) (hc : c ≠ .status)
    (hb : s.status.busy = false) : s.writeCsr off v = s.writeIdle c v := by
  simp only [State.writeCsr, h, hb, if_neg hc, Bool.false_eq_true, if_false]

theorem writeCsr_busy {off : Nat} {c : Csr} {s : State} (v : Word) (h : csrAt off = some c) (hc : c ≠ .status)
    (hb : s.status.busy = true) : s.writeCsr off v = s.ignoreWrite := by
  simp only [State.writeCsr, h, hb, if_neg hc, if_true]

/-- Everything a host write to the CSR window can do (R42). -/
theorem writeCsr_cases (s : State) (off : Nat) (v : Word) :
    (csrAt off = none ∧ s.writeCsr off v = s) ∨ (csrAt off = some .status ∧ s.writeCsr off v = s.writeStatus v) ∨
      (s.status.busy = true ∧ s.writeCsr off v = s.ignoreWrite) ∨
      ∃ c, csrAt off = some c ∧ c ≠ .status ∧ s.status.busy = false ∧ s.writeCsr off v = s.writeIdle c v := by
  cases h : csrAt off with
  | none => exact .inl ⟨rfl, by simp only [State.writeCsr, h]⟩
  | some c =>
    by_cases hc : c = .status
    · subst hc
      exact .inr (.inl ⟨rfl, by simp only [State.writeCsr, h, if_true]⟩)
    · cases hb : s.status.busy with
      | true => exact .inr (.inr (.inl ⟨rfl, writeCsr_busy v h hc hb⟩))
      | false => exact .inr (.inr (.inr ⟨c, rfl, hc, rfl, writeCsr_idle v h hc hb⟩))

end Sys2Proof.Machine
end

