-- ==== Sys2Proof/Laws/Memory.lean ====
section
/-! SUPPORT. The laws of buffer memory: a read after a write, the frame of a write, and that every operation keeps the canonical
form and the bound on addresses. -/

namespace Sys2Proof.Machine

/-! ## Canonical form -/

theorem Memory.wfFrom_mono {lo lo' : Nat} {mem : Memory} (h : lo' ≤ lo) (hw : Memory.wfFrom lo mem = true) :
    Memory.wfFrom lo' mem = true := by
  cases mem with
  | nil => rfl
  | cons c rest =>
    simp only [Memory.wfFrom, Bool.and_eq_true, decide_eq_true_eq] at hw ⊢
    exact ⟨⟨by omega, hw.1.2⟩, hw.2⟩

theorem Memory.put_wf {lo a : Nat} {b : Byte} {rest : Memory} (hlo : lo ≤ a) (hw : Memory.wfFrom (a + 1) rest = true) :
    Memory.wfFrom lo (Memory.put a b rest) = true := by
  unfold Memory.put
  split
  · exact Memory.wfFrom_mono (by omega) hw
  · simp only [Memory.wfFrom, Bool.and_eq_true, decide_eq_true_eq]
    exact ⟨⟨hlo, by simpa using ‹_›⟩, hw⟩

theorem Memory.write_wfFrom {lo a : Nat} {b : Byte} {mem : Memory} (hlo : lo ≤ a) (hw : Memory.wfFrom lo mem = true) :
    Memory.wfFrom lo (mem.write a b) = true := by
  induction mem generalizing lo with
  | nil => exact Memory.put_wf hlo rfl
  | cons c rest ih =>
    obtain ⟨a', b'⟩ := c
    simp only [Memory.wfFrom, Bool.and_eq_true, decide_eq_true_eq] at hw
    simp only [Memory.write]
    split
    · refine Memory.put_wf hlo ?_
      simp only [Memory.wfFrom, Bool.and_eq_true, decide_eq_true_eq]
      exact ⟨⟨by omega, hw.1.2⟩, hw.2⟩
    · split
      · subst_vars
        exact Memory.put_wf hlo hw.2
      · simp only [Memory.wfFrom, Bool.and_eq_true, decide_eq_true_eq]
        exact ⟨hw.1, ih (by omega) hw.2⟩

theorem Memory.write_wf {mem : Memory} (a : Nat) (b : Byte) (hw : mem.wf = true) : (mem.write a b).wf = true :=
  Memory.write_wfFrom (Nat.zero_le a) hw

theorem Memory.writeAll_wf {mem : Memory} (ws : List Host.Cell) (hw : mem.wf = true) : (mem.writeAll ws).wf = true := by
  induction ws generalizing mem with
  | nil => exact hw
  | cons w rest ih => exact ih (Memory.write_wf w.1 w.2 hw)

/-! ## Reads -/

/-- An address below every listed one is unlisted. -/
theorem Memory.read_of_wfFrom {lo a : Nat} {mem : Memory} (hw : Memory.wfFrom lo mem = true) (h : a < lo) :
    mem.read a = Memory.unlisted := by
  induction mem generalizing lo with
  | nil => rfl
  | cons c rest ih =>
    obtain ⟨a', b'⟩ := c
    simp only [Memory.wfFrom, Bool.and_eq_true, decide_eq_true_eq] at hw
    simp only [Memory.read]
    rw [if_neg (by omega)]
    exact ih hw.2 (by omega)

theorem Memory.read_put {a c : Nat} {b : Byte} {rest : Memory} (hw : Memory.wfFrom (a + 1) rest = true) :
    (Memory.put a b rest).read c = if c = a then b else rest.read c := by
  unfold Memory.put
  split
  · split
    · subst_vars
      exact Memory.read_of_wfFrom hw (by omega)
    · rfl
  · rfl

theorem Memory.read_write_from {lo a c : Nat} {b : Byte} {mem : Memory} (hw : Memory.wfFrom lo mem = true) :
    (mem.write a b).read c = if c = a then b else mem.read c := by
  induction mem generalizing lo with
  | nil => exact Memory.read_put rfl
  | cons cell rest ih =>
    obtain ⟨a', b'⟩ := cell
    simp only [Memory.wfFrom, Bool.and_eq_true, decide_eq_true_eq] at hw
    simp only [Memory.write]
    split
    · refine Memory.read_put ?_
      simp only [Memory.wfFrom, Bool.and_eq_true, decide_eq_true_eq]
      exact ⟨⟨by omega, hw.1.2⟩, hw.2⟩
    · split
      · subst_vars
        rw [Memory.read_put hw.2]
        simp only [Memory.read]
        split <;> rfl
      · simp only [Memory.read]
        split
        · rw [if_neg (by omega)]
        · exact ih hw.2

/-- A read after a write: the value written at that address, every other address as before. -/
theorem Memory.read_write {mem : Memory} (hw : mem.wf = true) (a c : Nat) (b : Byte) :
    (mem.write a b).read c = if c = a then b else mem.read c := Memory.read_write_from hw

/-- The frame of a write, for every memory, canonical or not. -/
theorem Memory.read_write_ne {mem : Memory} {a c : Nat} (b : Byte) (h : c ≠ a) : (mem.write a b).read c = mem.read c := by
  have put : ∀ rest : Memory, (Memory.put a b rest).read c = rest.read c := by
    intro rest
    unfold Memory.put
    split
    · rfl
    · simp [Memory.read, h]
  induction mem with
  | nil => exact put []
  | cons cell rest ih =>
    obtain ⟨a', b'⟩ := cell
    simp only [Memory.write]
    split
    · exact put _
    · split
      · subst_vars
        rw [put]
        simp [Memory.read, h]
      · simp only [Memory.read]
        rw [ih]

/-- The frame of a list of writes. -/
theorem Memory.read_writeAll_of_forall_ne {mem : Memory} {ws : List Host.Cell} {c : Nat} (h : ∀ w ∈ ws, w.1 ≠ c) :
    (mem.writeAll ws).read c = mem.read c := by
  induction ws generalizing mem with
  | nil => rfl
  | cons w rest ih =>
    have step := ih (mem := mem.write w.1 w.2) fun x hx => h x (List.mem_cons_of_mem _ hx)
    exact step.trans (Memory.read_write_ne _ fun e => h w (List.mem_cons_self ..) e.symm)

theorem Memory.writeAll_append (mem : Memory) (ws vs : List Host.Cell) :
    mem.writeAll (ws ++ vs) = (mem.writeAll ws).writeAll vs := List.foldl_append ..

/-- The value a list of writes leaves where all its writes to an address agree. -/
theorem Memory.read_writeAll_of_mem {mem : Memory} {ws : List Host.Cell} {c : Nat} {b : Byte} (hw : mem.wf = true)
    (hmem : (c, b) ∈ ws) (hall : ∀ w ∈ ws, w.1 = c → w.2 = b) : (mem.writeAll ws).read c = b := by
  induction ws generalizing mem with
  | nil => cases hmem
  | cons w rest ih =>
    by_cases hr : (c, b) ∈ rest
    · exact ih (Memory.write_wf _ _ hw) hr fun x hx => hall x (List.mem_cons_of_mem _ hx)
    · have hwc : (c, b) = w := (List.mem_cons.mp hmem).resolve_right hr
      subst hwc
      have frame : ∀ x ∈ rest, x.1 ≠ c := fun x hx e =>
        hr (by have := hall x (List.mem_cons_of_mem _ hx) e; rw [← e, ← this]; exact hx)
      have := Memory.read_writeAll_of_forall_ne (mem := mem.write c b) frame
      exact this.trans (by rw [Memory.read_write hw, if_pos rfl])

/-- Two canonical memories that read alike are equal. -/
theorem Memory.wfFrom_ext {lo : Nat} {a b : Memory} (ha : Memory.wfFrom lo a = true) (hb : Memory.wfFrom lo b = true)
    (h : ∀ c, a.read c = b.read c) : a = b := by
  induction a generalizing lo b with
  | nil =>
    cases b with
    | nil => rfl
    | cons y b =>
      have := h y.1
      simp only [Memory.wfFrom, Bool.and_eq_true, bne_iff_ne] at hb
      simp only [Memory.read, if_true] at this
      exact absurd this.symm hb.1.2
  | cons x a ih =>
    obtain ⟨xa, xb⟩ := x
    have ha' := ha
    simp only [Memory.wfFrom, Bool.and_eq_true, bne_iff_ne, decide_eq_true_eq] at ha'
    cases b with
    | nil =>
      have := h xa
      simp only [Memory.read, if_true] at this
      exact absurd this ha'.1.2
    | cons y b =>
      obtain ⟨ya, yb⟩ := y
      have hb' := hb
      simp only [Memory.wfFrom, Bool.and_eq_true, bne_iff_ne, decide_eq_true_eq] at hb'
      have lowA : ∀ c, c < xa → Memory.read ((xa, xb) :: a) c = Memory.unlisted := fun c hc => by
        rw [Memory.read, if_neg (by omega)]
        exact Memory.read_of_wfFrom ha'.2 (by omega)
      have lowB : ∀ c, c < ya → Memory.read ((ya, yb) :: b) c = Memory.unlisted := fun c hc => by
        rw [Memory.read, if_neg (by omega)]
        exact Memory.read_of_wfFrom hb'.2 (by omega)
      have hxy : xa = ya := by
        rcases Nat.lt_trichotomy xa ya with hlt | heq | hlt
        · have := h xa
          rw [lowB xa hlt] at this
          simp only [Memory.read, if_true] at this
          exact absurd this ha'.1.2
        · exact heq
        · have := h ya
          rw [lowA ya hlt] at this
          simp only [Memory.read, if_true] at this
          exact absurd this.symm hb'.1.2
      subst hxy
      have hv : xb = yb := by simpa [Memory.read] using h xa
      subst hv
      have tail : a = b := ih ha'.2 hb'.2 fun c => by
        by_cases hc : c ≤ xa
        · rw [Memory.read_of_wfFrom ha'.2 (by omega), Memory.read_of_wfFrom hb'.2 (by omega)]
        · have := h c
          simpa [Memory.read, show c ≠ xa by omega] using this
      rw [tail]

/-- Equal memories are equal data. -/
theorem Memory.ext_of_read {a b : Memory} (ha : a.wf = true) (hb : b.wf = true) (h : ∀ c, a.read c = b.read c) : a = b :=
  Memory.wfFrom_ext ha hb h

/-! ## Addresses that exist -/

theorem Memory.write_below {mem : Memory} {a top : Nat} (b : Byte) (ha : a < top) (h : mem.below top = true) :
    (mem.write a b).below top = true := by
  have put : ∀ rest : Memory, rest.below top = true → (Memory.put a b rest).below top = true := by
    intro rest hr
    unfold Memory.put
    split
    · exact hr
    · simpa [Memory.below, ha] using hr
  induction mem with
  | nil => exact put [] rfl
  | cons cell rest ih =>
    have hs := h
    simp only [Memory.below, List.all_cons, Bool.and_eq_true] at hs
    simp only [Memory.write]
    split
    · exact put _ h
    · split
      · exact put _ hs.2
      · simp only [Memory.below, List.all_cons, Bool.and_eq_true]
        exact ⟨hs.1, ih hs.2⟩

theorem Memory.writeAll_below {mem : Memory} {ws : List Host.Cell} {top : Nat} (hws : ∀ w ∈ ws, w.1 < top)
    (h : mem.below top = true) : (mem.writeAll ws).below top = true := by
  induction ws generalizing mem with
  | nil => exact h
  | cons w rest ih =>
    exact ih (fun x hx => hws x (List.mem_cons_of_mem _ hx)) (Memory.write_below w.2 (hws w (List.mem_cons_self ..)) h)

/-! ## Lists of cells -/

theorem mem_cellsAt {a : Nat} {data : List Byte} {w : Host.Cell} :
    w ∈ cellsAt a data ↔ ∃ q, ∃ h : q < data.length, w = (a + q, data[q]) := by
  induction data generalizing a with
  | nil => simp [cellsAt]
  | cons b rest ih =>
    simp only [cellsAt, List.mem_cons, ih]
    constructor
    · rintro (rfl | ⟨q, h, rfl⟩)
      · exact ⟨0, by simp, by simp⟩
      · exact ⟨q + 1, by simpa using h, by simp; omega⟩
    · rintro ⟨q, h, rfl⟩
      cases q with
      | zero => exact .inl (by simp)
      | succ q => exact .inr ⟨q, by simpa using h, by simp; omega⟩

theorem mem_matrixCells {base rows cols : Nat} {f : Nat → Nat → Byte} {w : Host.Cell} :
    w ∈ matrixCells base rows cols f ↔ ∃ r, r < rows ∧ ∃ c, c < cols ∧ w = (base + r * cols + c, f r c) := by
  simp only [matrixCells, List.mem_flatMap, List.mem_range, List.mem_map]
  constructor
  · rintro ⟨r, hr, c, hc, rfl⟩
    exact ⟨r, hr, c, hc, rfl⟩
  · rintro ⟨r, hr, c, hc, rfl⟩
    exact ⟨r, hr, c, hc, rfl⟩

/-- Row-major addresses are distinct. -/
theorem rowMajor_inj {cols r c r' c' : Nat} (hc : c < cols) (hc' : c' < cols) (h : r * cols + c = r' * cols + c') :
    r = r' ∧ c = c' := by
  have hr : r = r' := by
    have e := congrArg (· / cols) h
    have pos : 0 < cols := by omega
    simpa [Nat.add_comm, Nat.add_mul_div_right _ _ pos, Nat.div_eq_of_lt hc, Nat.div_eq_of_lt hc'] using e
  subst hr
  exact ⟨rfl, by omega⟩

/-- A row-major address lies inside the matrix. -/
theorem rowMajor_lt {rows cols r c : Nat} (hr : r < rows) (hc : c < cols) : r * cols + c < rows * cols := by
  have : (r + 1) * cols ≤ rows * cols := Nat.mul_le_mul_right _ hr
  rw [Nat.succ_mul] at this
  omega

/-- What a matrix written to memory reads as. -/
theorem Memory.read_matrixCells {mem : Memory} {base rows cols : Nat} {f : Nat → Nat → Byte} (hw : mem.wf = true) {r c : Nat}
    (hr : r < rows) (hc : c < cols) : (mem.writeAll (matrixCells base rows cols f)).read (base + r * cols + c) = f r c := by
  refine Memory.read_writeAll_of_mem hw (mem_matrixCells.mpr ⟨r, hr, c, hc, rfl⟩) ?_
  intro w hw' e
  obtain ⟨r', hr', c', hc', rfl⟩ := mem_matrixCells.mp hw'
  obtain ⟨rfl, rfl⟩ := rowMajor_inj hc' hc (show r' * cols + c' = r * cols + c by simpa [Nat.add_assoc] using e)
  rfl

/-- The frame of a matrix written to memory. -/
theorem Memory.read_matrixCells_outside {mem : Memory} {base rows cols : Nat} {f : Nat → Nat → Byte} {a : Nat}
    (h : ¬ (base ≤ a ∧ a < base + rows * cols)) : (mem.writeAll (matrixCells base rows cols f)).read a = mem.read a := by
  refine Memory.read_writeAll_of_forall_ne fun w hw e => h ?_
  obtain ⟨r, hr, c, hc, rfl⟩ := mem_matrixCells.mp hw
  have := rowMajor_lt hr hc
  simp only at e
  omega

/-- What data written to memory reads as. -/
theorem Memory.read_cellsAt {mem : Memory} {a : Nat} {data : List Byte} (hw : mem.wf = true) {q : Nat} (hq : q < data.length) :
    (mem.writeAll (cellsAt a data)).read (a + q) = data[q] := by
  refine Memory.read_writeAll_of_mem hw (mem_cellsAt.mpr ⟨q, hq, rfl⟩) ?_
  intro w hw' e
  obtain ⟨q', hq', rfl⟩ := mem_cellsAt.mp hw'
  obtain rfl : q' = q := by simpa using e
  rfl

end Sys2Proof.Machine
end

