-- ==== Sys2Proof/Laws/Ops.lean ====
section
/-! SUPPORT. What each shared operation can do: the list of checks, the checks of each block command in explicit terms, the
non-overlap assumptions, and the read and write sets. -/

namespace Sys2Proof.Machine

/-! ## Checks -/

theorem firstError_eq_none {l : List (Bool × ErrorKind)} : firstError l = none ↔ ∀ c ∈ l, c.1 = false := by
  induction l with
  | nil => simp [firstError]
  | cons c rest ih =>
    obtain ⟨b, e⟩ := c
    cases b <;> simp [firstError, ih]

theorem orElseCheck_eq_none {a b : Option ErrorKind} : orElseCheck a b = none ↔ a = none ∧ b = none := by
  cases a <;> simp [orElseCheck]

/-- All that `checked` can do. -/
theorem checked_eq_next {c : Option ErrorKind} {s t : State} {body : Host.Outcome State Fault Refusal} :
    checked c s body = .next t ↔ (∃ e, c = some e ∧ t = s.raise e 0) ∨ (c = none ∧ body = .next t) := by
  cases c with
  | none => simp [checked]
  | some e => simp [checked, failWith, eq_comm]

@[simp] theorem checked_none {s : State} {body : Host.Outcome State Fault Refusal} : checked none s body = body := rfl

@[simp] theorem checked_some {e : ErrorKind} {s : State} {body : Host.Outcome State Fault Refusal} :
    checked (some e) s body = .next (s.raise e 0) := rfl

theorem badBlockCounts_eq_false {s : State} : s.badBlockCounts = false ↔ s.goodBlockCounts := by
  simp only [State.badBlockCounts, State.goodBlockCounts, Bool.or_eq_false_iff, decide_eq_false_iff_not]
  omega

theorem badBlockBytes_eq_false {s : State} : s.badBlockBytes = false ↔ s.goodBlockBytes := by
  simp only [State.badBlockBytes, State.goodBlockBytes, Bool.or_eq_false_iff, beq_eq_false_iff_ne, bne_eq_false_iff_eq]
  omega

theorem isNull_eq_false {a : Word} : isNull a = false ↔ a ≠ 0 := by simp [isNull]

theorem uninitialized_eq_false {s : State} : s.uninitialized = false ↔ s.status.init = true := by
  simp [State.uninitialized]

theorem outOfRange_eq_false {s : State} {r : Range} :
    s.outOfRange r = false ↔ r.len = 0 ∨ r.base + r.len ≤ s.cfg.memBytes := by
  simp [State.outOfRange, Range.fits, or_iff_not_imp_left]

theorem tableCheck_eq_none {s : State} : tableCheck s = none ↔ s.status.init = true := by
  simp [tableCheck, firstError_eq_none, uninitialized_eq_false]

theorem expCheck_eq_none {idx : Nat} {s : State} : expCheck idx s = none ↔ idx ≤ 1020 ∧ s.status.init = true := by
  simp [expCheck, firstError_eq_none, uninitialized_eq_false]

theorem cauchyCheck_eq_none {s : State} : cauchyCheck s = none ↔ s.cauchyReady := by
  simp only [cauchyCheck, firstError_eq_none, List.forall_mem_cons, List.not_mem_nil, false_implies, implies_true, and_true,
    badBlockCounts_eq_false, isNull_eq_false, uninitialized_eq_false, outOfRange_eq_false, State.cauchyOutput, State.cauchyReady]
  constructor
  · rintro ⟨h1, h2, h3, h4⟩
    refine ⟨h1, h2, h3, h4.resolve_left ?_⟩
    have := Nat.mul_pos h1.2.1 h1.1
    omega
  · rintro ⟨h1, h2, h3, h4⟩
    exact ⟨h1, h2, h3, .inr h4⟩

theorem encodeCheck_eq_none {s : State} : encodeCheck s = none ↔ s.encodeReady := by
  simp only [encodeCheck, firstError_eq_none, List.forall_mem_cons, List.not_mem_nil, false_implies, implies_true, and_true,
    Bool.or_eq_false_iff, badBlockCounts_eq_false, badBlockBytes_eq_false, isNull_eq_false, uninitialized_eq_false,
    outOfRange_eq_false, State.encodeInput, State.encodeOutput, State.encodeReady]
  constructor
  · rintro ⟨⟨h1, h2⟩, ⟨h3, h4⟩, h5, h6, h7⟩
    have := Nat.mul_pos h1.1 h2.1
    have := Nat.mul_pos h1.2.1 h2.1
    exact ⟨h1, h2, h3, h4, h5, h6.resolve_left (by omega), h7.resolve_left (by omega)⟩
  · rintro ⟨h1, h2, h3, h4, h5, h6, h7⟩
    exact ⟨⟨h1, h2⟩, ⟨h3, h4⟩, h5, .inr h6, .inr h7⟩

theorem invertCheck_eq_none {s : State} : invertCheck s = none ↔ s.invertReady := by
  simp only [invertCheck, firstError_eq_none, List.forall_mem_cons, List.not_mem_nil, false_implies, implies_true, and_true,
    Bool.or_eq_false_iff, decide_eq_false_iff_not, isNull_eq_false, uninitialized_eq_false,
    outOfRange_eq_false, State.invertInput, State.invertOutput, State.invertReady]
  constructor
  · rintro ⟨⟨h1, h2⟩, ⟨h3, h4⟩, h5, h6, h7⟩
    have h0 : 1 ≤ s.n.toNat := by omega
    have := Nat.mul_pos h0 h0
    exact ⟨h0, by omega, h3, h4, h5, h6.resolve_left (by omega), h7.resolve_left (by omega)⟩
  · rintro ⟨h1, h2, h3, h4, h5, h6, h7⟩
    exact ⟨⟨by omega, by omega⟩, ⟨h3, h4⟩, h5, .inr h6, .inr h7⟩

theorem decodeParamCheck_eq_none {s : State} : decodeParamCheck s = none ↔ s.decodeParamsReady := by
  simp only [decodeParamCheck, firstError_eq_none, List.forall_mem_cons, List.not_mem_nil, false_implies, implies_true, and_true,
    Bool.or_eq_false_iff, badBlockCounts_eq_false, badBlockBytes_eq_false, isNull_eq_false, uninitialized_eq_false,
    State.decodeParamsReady]
  tauto

/-! ## Descriptors -/

@[simp] theorem length_descriptors (s : State) : s.descriptors.length = s.nblk.toNat := by simp [State.descriptors]

theorem getD_descriptors {s : State} {i : Nat} (h : i < s.nblk.toNat) (d : Descriptor) : s.descriptors.getD i d = s.desc i := by
  simp [State.descriptors, State.desc, List.getD, h]

theorem mem_descriptors {s : State} {d : Descriptor} : d ∈ s.descriptors ↔ ∃ i, i < s.nblk.toNat ∧ s.desc i = d := by
  simp [State.descriptors, State.desc]

theorem tablePastEnd_eq_false {s : State} : s.tablePastEnd = false ↔ s.tableInRange := by
  simp [State.tablePastEnd, State.tableInRange]

theorem decodeRangeCheck_eq_none {s : State} (hbb : 0 < s.blockBytes.toNat) :
    decodeRangeCheck s = none ↔ s.tableInRange ∧
      ∀ i, i < s.nblk.toNat → (s.desc i).addr + s.blockBytes.toNat ≤ s.cfg.memBytes := by
  simp only [decodeRangeCheck, firstError_eq_none, List.forall_mem_cons, List.not_mem_nil, false_implies, implies_true, and_true,
    outOfRange_eq_false, tablePastEnd_eq_false, List.any_eq_false, mem_descriptors, Bool.not_eq_true, Descriptor.payload]
  constructor
  · rintro ⟨h1, h2⟩
    exact ⟨h1, fun i hi => (h2 _ ⟨i, hi, rfl⟩).resolve_left (by omega)⟩
  · rintro ⟨h1, h2⟩
    refine ⟨h1, ?_⟩
    rintro _ ⟨i, hi, rfl⟩
    exact .inr (h2 i hi)

theorem decodeCheck_eq_none {s : State} : decodeCheck s = none ↔ s.decodeReady := by
  rw [decodeCheck, orElseCheck_eq_none, decodeParamCheck_eq_none]
  constructor
  · rintro ⟨h1, h2⟩
    exact ⟨h1, (decodeRangeCheck_eq_none h1.2.1.1).mp h2⟩
  · rintro ⟨h1, h2⟩
    exact ⟨h1, (decodeRangeCheck_eq_none h1.2.1.1).mpr h2⟩

theorem mem_emptySlots {s : State} {i : Nat} : i ∈ emptySlots s.descriptors ↔ i < s.nblk.toNat ∧ (s.desc i).present = false := by
  simp only [emptySlots, List.mem_filter, List.mem_range, length_descriptors, Bool.not_eq_true']
  constructor
  · rintro ⟨h1, h2⟩
    exact ⟨h1, by rwa [getD_descriptors h1] at h2⟩
  · rintro ⟨h1, h2⟩
    exact ⟨h1, by rwa [getD_descriptors h1]⟩

/-! ## Ranges -/

theorem range_has {r : Range} {a : Nat} : r.has a = true ↔ r.base ≤ a ∧ a < r.base + r.len := by simp [Range.has]

theorem range_disjoint {r q : Range} : r.disjoint q = true ↔ apart r.base r.len q.base q.len := by
  simp only [Range.disjoint, Bool.or_eq_true, beq_iff_eq, decide_eq_true_eq, apart]
  constructor
  · intro h a h1 h2 h3
    omega
  · intro h
    by_cases h1 : r.len = 0
    · exact .inl (.inl (.inl h1))
    · by_cases h2 : q.len = 0
      · exact .inl (.inl (.inr h2))
      · have h3 := h r.base (by omega) (by omega)
        have h4 := h q.base
        omega

theorem range_disjoint_comm (r q : Range) : r.disjoint q = q.disjoint r := by
  simp only [Range.disjoint]
  cases (r.len == 0) <;> cases (q.len == 0) <;> simp [Bool.or_comm]

theorem anyHas_iff {rs : List Range} {a : Nat} : anyHas rs a = true ↔ ∃ r ∈ rs, r.base ≤ a ∧ a < r.base + r.len := by
  simp [anyHas, range_has]

theorem touches_eq_false {a n : Nat} {rs : List Range} :
    touches a n rs = false ↔ ∀ q, q < n → anyHas rs (a + q) = false := by
  simp only [touches, List.any_eq_false, Bool.not_eq_true', Bool.not_eq_false, range_disjoint, anyHas]
  constructor
  · intro h q hq r hr
    have := h r hr
    intro hh
    rw [range_has] at hh
    exact this (a + q) hh.1 hh.2 ⟨by simp, by simpa using hq⟩
  · intro h r hr c h1 h2 h3
    obtain ⟨q, rfl⟩ := Nat.exists_eq_add_of_le h3.1
    exact h q (by simpa using h3.2) r hr (range_has.mpr ⟨h1, h2⟩)

theorem encodeOverlaps_eq_false {s : State} : s.encodeOverlaps = false ↔ s.encodeApart := by
  simp [State.encodeOverlaps, State.encodeApart, range_disjoint, State.encodeInput, State.encodeOutput]

theorem pairwiseDisjoint_iff {rs : List Range} : pairwiseDisjoint rs = true ↔ rs.Pairwise fun r q => r.disjoint q = true := by
  induction rs with
  | nil => simp [pairwiseDisjoint]
  | cons r rest ih => simp [pairwiseDisjoint, ih]

theorem emptyPayloads_descriptors (s : State) (bb : Nat) : emptyPayloads bb s.descriptors =
    ((List.range s.nblk.toNat).filter fun i => !(s.desc i).present).map fun i => (s.desc i).payload bb := by
  simp only [emptyPayloads, State.descriptors, List.filter_map, List.map_map]
  rfl

theorem presentPayloads_descriptors (s : State) (bb : Nat) : presentPayloads bb s.descriptors =
    ((List.range s.nblk.toNat).filter fun i => (s.desc i).present).map fun i => (s.desc i).payload bb := by
  simp only [presentPayloads, State.descriptors, List.filter_map, List.map_map]
  rfl

theorem mem_emptyPayloads {s : State} {bb : Nat} {r : Range} :
    r ∈ emptyPayloads bb s.descriptors ↔ ∃ i, i < s.nblk.toNat ∧ (s.desc i).present = false ∧ r = ⟨(s.desc i).addr, bb⟩ := by
  simp only [emptyPayloads_descriptors, List.mem_map, List.mem_filter, List.mem_range, Descriptor.payload, Bool.not_eq_true']
  constructor
  · rintro ⟨i, ⟨h1, h2⟩, rfl⟩
    exact ⟨i, h1, h2, rfl⟩
  · rintro ⟨i, h1, h2, rfl⟩
    exact ⟨i, ⟨h1, h2⟩, rfl⟩

theorem mem_presentPayloads {s : State} {bb : Nat} {r : Range} :
    r ∈ presentPayloads bb s.descriptors ↔ ∃ i, i < s.nblk.toNat ∧ (s.desc i).present = true ∧ r = ⟨(s.desc i).addr, bb⟩ := by
  simp only [presentPayloads_descriptors, List.mem_map, List.mem_filter, List.mem_range, Descriptor.payload]
  constructor
  · rintro ⟨i, ⟨h1, h2⟩, rfl⟩
    exact ⟨i, h1, h2, rfl⟩
  · rintro ⟨i, h1, h2, rfl⟩
    exact ⟨i, ⟨h1, h2⟩, rfl⟩

theorem pairwise_filter_range {n : Nat} {p : Nat → Bool} {R : Nat → Nat → Prop} :
    ((List.range n).filter p).Pairwise R ↔ ∀ i j, i < j → j < n → p i = true → p j = true → R i j := by
  rw [List.pairwise_filter, List.pairwise_iff_getElem]
  simp only [List.length_range, List.getElem_range]
  exact ⟨fun h i j hij hj => h i j (by omega) hj hij, fun h i j _ hj hij => h i j hij hj⟩

theorem decodeOverlaps_eq_false {s : State} : s.decodeOverlaps = false ↔ s.decodeApart := by
  simp only [State.decodeOverlaps, Bool.not_eq_false', Bool.and_eq_true, pairwiseDisjoint_iff, List.all_eq_true,
    List.forall_mem_cons, mem_emptyPayloads, mem_presentPayloads]
  rw [emptyPayloads_descriptors, List.pairwise_map, pairwise_filter_range]
  simp only [Bool.not_eq_true']
  constructor
  · rintro ⟨h1, h2⟩ i hi he
    obtain ⟨h3, h4⟩ := h2 _ ⟨i, hi, he, rfl⟩
    refine ⟨by simpa [range_disjoint, State.tableRange] using h3, fun j hj hne => ?_⟩
    by_cases hp : (s.desc j).present
    · simpa [range_disjoint] using h4 _ ⟨j, hj, hp, rfl⟩
    · rcases Nat.lt_or_gt_of_ne hne with hlt | hlt
      · have := h1 j i hlt hi (by simpa using hp) he
        rw [range_disjoint_comm] at this
        exact range_disjoint.mp this
      · exact range_disjoint.mp (h1 i j hlt hj he (by simpa using hp))
  · intro h
    refine ⟨fun i j hij hj hi' hj' => range_disjoint.mpr ((h i (by omega) hi').2 j hj (by omega)), ?_⟩
    rintro _ ⟨i, hi, he, rfl⟩
    refine ⟨range_disjoint.mpr (h i hi he).1, ?_⟩
    rintro _ ⟨j, hj, hp, rfl⟩
    refine range_disjoint.mpr ((h i hi he).2 j hj ?_)
    rintro rfl
    simp [he] at hp

theorem mem_payloadsRead {s : State} {r : Range} : r ∈ s.payloadsRead ↔
    (∃ l, l < s.k.toNat ∧ l ∉ s.missing ∧ r = ⟨dataAddr s.descriptors l, s.blockBytes.toNat⟩) ∨
      ∃ q ∈ s.recovery, r = ⟨q.addr, s.blockBytes.toNat⟩ := by
  simp only [State.payloadsRead, presentRows, List.mem_append, List.mem_map, List.mem_filter, List.mem_range, State.missing,
    missingRows, State.recovery, and_assoc, not_and, Bool.not_eq_true', Bool.not_eq_true, eq_comm (a := r)]
  refine or_congr (exists_congr fun l => and_congr_right fun hl => ?_) Iff.rfl
  simp [hl]

theorem installReachesPayload_eq_false {s : State} : s.installReachesPayload = false ↔ s.installsApart := by
  simp only [State.installReachesPayload, List.any_eq_false, List.mem_range, Bool.not_eq_true', Bool.not_eq_true,
    Bool.not_eq_false, range_disjoint, mem_payloadsRead, rowAndFlags, apart, descriptorAddr, State.installsApart]
  constructor
  · intro h u hu d hd
    have hu' : u < installCount s.k.toNat s.descriptors - 1 := Nat.lt_sub_of_add_lt hu
    refine ⟨fun l h1 h2 h3 => ?_, fun q hq h3 => ?_⟩
    · exact h u hu' _ (.inl ⟨l, h1, h2, rfl⟩) _ (by omega) (by omega) h3
    · exact h u hu' _ (.inr ⟨q, hq, rfl⟩) _ (by omega) (by omega) h3
  · intro h u hu r hr a h1 h2 h3
    have hu' : u + 1 < min s.missing.length (emptySlots s.descriptors).length := Nat.add_lt_of_lt_sub hu
    obtain ⟨d, rfl⟩ := Nat.exists_eq_add_of_le (show s.src.toNat + 8 * installSlot s.descriptors u ≤ a by omega)
    have := h u hu' d (by omega)
    rcases hr with ⟨l, hl, hm, rfl⟩ | ⟨q, hq, rfl⟩
    · exact this.1 l hl hm h3
    · exact this.2 q hq h3

/-! ## Write sets -/

theorem mem_rangesIf {c : Option ErrorKind} {rs : List Range} {r : Range} : r ∈ rangesIf c rs ↔ c = none ∧ r ∈ rs := by
  cases c <;> simp [rangesIf]

/-- Every byte a command may write exists: "a command never makes an out-of-range access" (R64). -/
theorem writeSet_below {i : Instr} {s : State} {a : Nat} (h : anyHas (writeSet i s) a = true) : a < s.cfg.memBytes := by
  obtain ⟨r, hr, h1, h2⟩ := anyHas_iff.mp h
  cases i
  case cauchy =>
    obtain ⟨hc, hr⟩ := mem_rangesIf.mp hr
    obtain ⟨-, -, -, h4⟩ := cauchyCheck_eq_none.mp hc
    simp only [List.mem_singleton] at hr
    subst hr
    simp only [State.cauchyOutput] at h1 h2
    omega
  case encode =>
    obtain ⟨hc, hr⟩ := mem_rangesIf.mp hr
    obtain ⟨-, -, -, -, -, -, h4⟩ := encodeCheck_eq_none.mp hc
    simp only [List.mem_singleton] at hr
    subst hr
    simp only [State.encodeOutput] at h1 h2
    omega
  case invert =>
    obtain ⟨hc, hr⟩ := mem_rangesIf.mp hr
    obtain ⟨-, -, -, -, -, -, h4⟩ := invertCheck_eq_none.mp hc
    simp only [List.mem_singleton] at hr
    subst hr
    simp only [State.invertOutput] at h1 h2
    omega
  case decode =>
    obtain ⟨hc, hr⟩ := mem_rangesIf.mp hr
    obtain ⟨-, ht, hp⟩ := decodeCheck_eq_none.mp hc
    simp only [List.mem_append, List.mem_map, mem_emptySlots, mem_emptyPayloads] at hr
    rcases hr with ⟨i, ⟨hi, -⟩, rfl⟩ | ⟨i, hi, -, rfl⟩
    · simp only [rowAndFlags, descriptorAddr] at h1 h2
      unfold State.tableInRange at ht
      omega
    · have := hp i hi
      simp only at h1 h2
      omega
  all_goals simp [writeSet] at hr

end Sys2Proof.Machine
end

