-- ==== Sys2Proof/Laws/Exec.lean ====
section
/-! SUPPORT. What each meaning can do: one inversion lemma per meaning that has more than one way to end, one for `exec`, and one
for a step. -/

namespace Sys2Proof.Machine

/-! ## The meanings -/

theorem finish_eq_next {v : Word} {s t : State} : finish v s = .next t ↔ t = s.ended v 0 := by
  simp [finish, complete_eq_ended, eq_comm]

theorem failWith_eq_next {e : ErrorKind} {r : Word} {s t : State} : failWith e r s = .next t ↔ t = s.ended r e.code := by
  simp [failWith, raise_eq_ended, eq_comm]

/-- A command of one table read: UninitializedContext or its value (R121 to R125). -/
theorem tableRead_next {s t : State} {c : Option ErrorKind} {v : Word} (h : checked c s (finish v s) = .next t) :
    (∃ e, c = some e ∧ t = s.ended 0 e.code) ∨ (c = none ∧ t = s.ended v 0) := by
  rcases checked_eq_next.mp h with ⟨e, he, rfl⟩ | ⟨hc, h⟩
  · exact .inl ⟨e, he, rfl⟩
  · exact .inr ⟨hc, finish_eq_next.mp h⟩

theorem execCauchy_next {s t : State} (h : execCauchy s = .next t) :
    (∃ e, cauchyCheck s = some e ∧ t = s.ended 0 e.code) ∨
      (s.cauchyReady ∧ t = (s.writeAll s.cauchyCells).ended 0 0) := by
  rcases checked_eq_next.mp h with ⟨e, he, rfl⟩ | ⟨hc, h⟩
  · exact .inl ⟨e, he, rfl⟩
  · exact .inr ⟨cauchyCheck_eq_none.mp hc, finish_eq_next.mp h⟩

theorem execEncode_next {s t : State} (h : execEncode s = .next t) :
    (∃ e, encodeCheck s = some e ∧ t = s.ended 0 e.code) ∨
      (s.encodeReady ∧ s.encodeApart ∧ t = (s.writeAll s.encodeCells).ended 0 0) := by
  rcases checked_eq_next.mp h with ⟨e, he, rfl⟩ | ⟨hc, h⟩
  · exact .inl ⟨e, he, rfl⟩
  · split at h
    · cases h
    · exact .inr ⟨encodeCheck_eq_none.mp hc, encodeOverlaps_eq_false.mp (by simpa using ‹¬ s.encodeOverlaps = true›), finish_eq_next.mp h⟩

theorem execInvert_next {s t : State} (h : execInvert s = .next t) :
    (∃ e, invertCheck s = some e ∧ t = s.ended 0 e.code) ∨
      (s.invertReady ∧ gfInvert s.store s.n.toNat s.invertMatrix = none ∧ t = s.ended 0 ErrorKind.matrixOperation.code) ∨
      (s.invertReady ∧ ∃ b, gfInvert s.store s.n.toNat s.invertMatrix = some b ∧ t = (s.writeAll (s.invertCells b)).ended 0 0) := by
  rcases checked_eq_next.mp h with ⟨e, he, rfl⟩ | ⟨hc, h⟩
  · exact .inl ⟨e, he, rfl⟩
  · have ready := invertCheck_eq_none.mp hc
    unfold invertBody at h
    split at h
    · exact .inr (.inl ⟨ready, ‹_›, failWith_eq_next.mp h⟩)
    · exact .inr (.inr ⟨ready, _, ‹_›, finish_eq_next.mp h⟩)

/-- Steps 1 to 6 of DECODE (R203 to R207): nothing missing, too few recovery rows, a singular submatrix, or the installs. -/
theorem decodeBody_next {s t : State} (h : decodeBody s = .next t) :
    (s.missing = [] ∧ t = s.ended 0 0) ∨
      (s.missing ≠ [] ∧ s.recovery.length < s.missing.length ∧ t = s.ended 0 ErrorKind.insufficientBlocks.code) ∨
      (s.missing ≠ [] ∧ s.missing.length ≤ s.recovery.length ∧
        gfInvert s.store s.missing.length (submatrix s.store s.k.toNat s.recovery s.missing) = none ∧
        t = s.ended 0 ErrorKind.matrixOperation.code) ∨
      (s.missing ≠ [] ∧ s.missing.length ≤ s.recovery.length ∧ s.installsApart ∧ ∃ sinv, s.solvedBy sinv ∧
        t = (s.writeAll (s.decodeCells sinv)).ended (BitVec.ofNat 32 (installCount s.k.toNat s.descriptors))
          (if (emptySlots s.descriptors).length < s.missing.length then ErrorKind.blockBuffer.code else 0)) := by
  unfold decodeBody at h
  split at h
  · exact .inl ⟨List.eq_nil_of_length_eq_zero ‹_›, finish_eq_next.mp h⟩
  · have hm : s.missing ≠ [] := fun e => ‹¬ _› (by rw [show missingRows s.k.toNat s.descriptors = [] from e]; rfl)
    split at h
    · exact .inr (.inl ⟨hm, ‹_›, failWith_eq_next.mp h⟩)
    · have hr : s.missing.length ≤ s.recovery.length := Nat.le_of_not_lt ‹_›
      unfold decodeSolve at h
      split at h
      · exact .inr (.inr (.inl ⟨hm, hr, ‹_›, failWith_eq_next.mp h⟩))
      · unfold decodeInstall at h
        split at h
        · cases h
        rename_i hi
        refine .inr (.inr (.inr ⟨hm, hr, installReachesPayload_eq_false.mp (by simpa using hi), _, ‹_›, ?_⟩))
        split at h
        · rw [if_pos ‹_›]
          exact failWith_eq_next.mp h
        · rw [if_neg ‹_›]
          exact finish_eq_next.mp h

theorem execDecode_next {s t : State} (h : execDecode s = .next t) :
    (∃ e, decodeCheck s = some e ∧ t = s.ended 0 e.code) ∨ (s.decodeReady ∧ s.decodeApart ∧ decodeBody s = .next t) := by
  rcases checked_eq_next.mp h with ⟨e, he, rfl⟩ | ⟨hc, h⟩
  · exact .inl ⟨e, he, rfl⟩
  · split at h
    · cases h
    · exact .inr ⟨decodeCheck_eq_none.mp hc, decodeOverlaps_eq_false.mp (by simpa using ‹¬ s.decodeOverlaps = true›), h⟩

/-! ## Where the writes go -/

theorem matrixCells_in {base rows cols : Nat} {f : Nat → Nat → Byte} {w : Host.Cell} (h : w ∈ matrixCells base rows cols f) :
    base ≤ w.1 ∧ w.1 < base + rows * cols := by
  obtain ⟨r, hr, c, hc, rfl⟩ := mem_matrixCells.mp h
  have := rowMajor_lt hr hc
  simp only
  omega

theorem getD_mem_of_lt {α : Type} {l : List α} {u : Nat} (h : u < l.length) (d : α) : l.getD u d ∈ l := by
  rw [List.getD, List.getElem?_eq_getElem h]
  exact List.getElem_mem h

theorem installSlot_mem {s : State} {u : Nat} (h : u < installCount s.k.toNat s.descriptors) :
    installSlot s.descriptors u < s.nblk.toNat ∧ (s.desc (installSlot s.descriptors u)).present = false :=
  mem_emptySlots.mp (getD_mem_of_lt (Nat.lt_of_lt_of_le h (Nat.min_le_right ..)) 0)

/-- The writes of one install: the payload of an empty slot, and its ROW and FLAGS bytes (R207). -/
theorem mem_installCellsAt {s : State} {sinv : Mat} {u : Nat} (hu : u < installCount s.k.toNat s.descriptors) {w : Host.Cell} :
    w ∈ s.installCellsAt sinv u ↔
      (∃ p, p < s.blockBytes.toNat ∧ w = ((s.desc (installSlot s.descriptors u)).addr + p,
        rebuiltByte s.store s.mem s.k.toNat s.descriptors s.recovery sinv u p)) ∨
      w = (descriptorAddr s.src.toNat (installSlot s.descriptors u) + 4, BitVec.ofNat 8 (s.missing.getD u 0)) ∨
      w = (descriptorAddr s.src.toNat (installSlot s.descriptors u) + 5, 0x01) := by
  have hs := (installSlot_mem hu).1
  simp only [State.installCellsAt, installCells, getD_descriptors hs, List.mem_append, List.mem_cons, List.not_mem_nil, or_false,
    mem_cellsAt, State.rebuiltPayload, List.length_map, List.length_range, List.getElem_map, List.getElem_range, exists_prop]
  rfl

theorem decodeCells_in {s : State} {sinv : Mat} (hready : s.decodeReady) {w : Host.Cell} (h : w ∈ s.decodeCells sinv) :
    anyHas (writeSet .decode s) w.1 = true := by
  simp only [State.decodeCells, List.mem_flatMap, List.mem_range] at h
  obtain ⟨u, hu, h⟩ := h
  have hc := decodeCheck_eq_none.mpr hready
  obtain ⟨hs, he⟩ := installSlot_mem hu
  simp only [writeSet, hc, rangesIf, anyHas_iff, List.mem_append, List.mem_map, mem_emptySlots, mem_emptyPayloads]
  rcases (mem_installCellsAt hu).mp h with ⟨p, hp, rfl⟩ | rfl | rfl
  · exact ⟨_, .inr ⟨_, hs, he, rfl⟩, by simp, by simpa using hp⟩
  · exact ⟨_, .inl ⟨_, ⟨hs, he⟩, rfl⟩, by simp [rowAndFlags], by simp [rowAndFlags]⟩
  · exact ⟨_, .inl ⟨_, ⟨hs, he⟩, rfl⟩, by simp [rowAndFlags], by simp [rowAndFlags]⟩

/-! ## Every command -/

/-- Everything a command can do when it answers a next state (R233): INIT builds the tables and ends with no error; any other
command writes bytes of its write set only, and ends with RESULT and a legal ERR. -/
theorem exec_next {i : Instr} {s t : State} (h : exec i s = .next t) :
    (∃ idx, (i = .init ∨ ∃ p, i = .initP p) ∧ t = (s.buildTables idx).ended ((polyOf idx).setWidth 32) 0) ∨
      (i ≠ .init ∧ (∀ p, i ≠ .initP p) ∧ ∃ ws v code, (∀ w ∈ ws, anyHas (writeSet i s) w.1 = true) ∧ code.toNat ≤ 8 ∧
        t = (s.writeAll ws).ended v code) := by
  have codes : ∀ e : ErrorKind, e.code.toNat ≤ 8 := by intro e; cases e <;> decide
  have noWrite : ∀ (v : Word) (code : BitVec 4), s.ended v code = (s.writeAll []).ended v code := fun _ _ => rfl
  cases i with
  | init => exact .inl ⟨_, .inl rfl, finish_eq_next.mp h⟩
  | initP p => exact .inl ⟨_, .inr ⟨p, rfl⟩, finish_eq_next.mp h⟩
  | add x y => exact .inr ⟨nofun, nofun, [], _, 0, nofun, by decide, finish_eq_next.mp h⟩
  | mul x y | div x y | inv x | exp idx | log x =>
    refine .inr ⟨nofun, nofun, [], ?_⟩
    rcases tableRead_next h with ⟨e, -, rfl⟩ | ⟨-, rfl⟩
    · exact ⟨0, e.code, nofun, codes e, rfl⟩
    · exact ⟨_, 0, nofun, by decide, rfl⟩
  | cauchy =>
    refine .inr ⟨nofun, nofun, ?_⟩
    rcases execCauchy_next h with ⟨e, -, rfl⟩ | ⟨hr, rfl⟩
    · exact ⟨[], 0, e.code, nofun, codes e, rfl⟩
    · refine ⟨s.cauchyCells, 0, 0, fun w hw => ?_, by decide, rfl⟩
      simp only [writeSet, cauchyCheck_eq_none.mpr hr, rangesIf, anyHas_iff, List.mem_singleton]
      exact ⟨_, rfl, matrixCells_in hw⟩
  | encode =>
    refine .inr ⟨nofun, nofun, ?_⟩
    rcases execEncode_next h with ⟨e, -, rfl⟩ | ⟨hr, -, rfl⟩
    · exact ⟨[], 0, e.code, nofun, codes e, rfl⟩
    · refine ⟨s.encodeCells, 0, 0, fun w hw => ?_, by decide, rfl⟩
      simp only [writeSet, encodeCheck_eq_none.mpr hr, rangesIf, anyHas_iff, List.mem_singleton]
      exact ⟨_, rfl, matrixCells_in hw⟩
  | invert =>
    refine .inr ⟨nofun, nofun, ?_⟩
    rcases execInvert_next h with ⟨e, -, rfl⟩ | ⟨-, -, rfl⟩ | ⟨hr, b, -, rfl⟩
    · exact ⟨[], 0, e.code, nofun, codes e, rfl⟩
    · exact ⟨[], 0, _, nofun, codes _, rfl⟩
    · refine ⟨s.invertCells b, 0, 0, fun w hw => ?_, by decide, rfl⟩
      simp only [writeSet, invertCheck_eq_none.mpr hr, rangesIf, anyHas_iff, List.mem_singleton]
      exact ⟨_, rfl, matrixCells_in hw⟩
  | decode =>
    refine .inr ⟨nofun, nofun, ?_⟩
    rcases execDecode_next h with ⟨e, -, rfl⟩ | ⟨hr, -, hb⟩
    · exact ⟨[], 0, e.code, nofun, codes e, rfl⟩
    · rcases decodeBody_next hb with ⟨-, rfl⟩ | ⟨-, -, rfl⟩ | ⟨-, -, -, rfl⟩ | ⟨-, -, -, sinv, -, rfl⟩
      · exact ⟨[], 0, 0, nofun, by decide, rfl⟩
      · exact ⟨[], 0, _, nofun, codes _, rfl⟩
      · exact ⟨[], 0, _, nofun, codes _, rfl⟩
      · refine ⟨s.decodeCells sinv, _, _, fun w hw => decodeCells_in hr hw, ?_, rfl⟩
        split <;> decide

/-! ## A step -/

/-- Everything the core's step can do (R96, R240, R275). -/
theorem coreTurn_next {s t : State} (h : coreTurn s = .next t) :
    (s.status.busy = false ∧ t = s) ∨
      (s.status.busy = true ∧ (∃ e, decode s.cmd = .error e) ∧ t = s.ended 0 ErrorKind.illegalCommand.code) ∨
      (s.status.busy = true ∧ ∃ i, decode s.cmd = .ok i ∧ exec i s = .next t) := by
  unfold coreTurn at h
  split at h
  · split at h
    · exact .inr (.inr ⟨‹_›, _, ‹_›, h⟩)
    · exact .inr (.inl ⟨‹_›, ⟨_, ‹_›⟩, failWith_eq_next.mp h⟩)
  · exact .inl ⟨by simpa using ‹¬ s.status.busy = true›, (Host.Outcome.next.inj h).symm⟩

/-- Everything a step can do (R275): the host's, the core's, or a reset. -/
theorem step_next {s t : State} (h : step s = .next t) :
    (s.mover = .host ∧ hostTurn s.takeTurn = .next t) ∨ (s.mover = .core ∧ coreTurn s.takeTurn = .next t) ∨
      (s.mover = .reset ∧ t = resetTurn s.takeTurn) := by
  unfold step modelStep at h
  split at h
  · exact .inl ⟨‹_›, h⟩
  · exact .inr (.inl ⟨‹_›, h⟩)
  · exact .inr (.inr ⟨‹_›, (Host.Outcome.next.inj h).symm⟩)

/-- Everything the host's step can do (R100): nothing, a CSR write, a read that binds a name, a memory write, or a poll. -/
theorem hostTurn_next {s t : State} (h : hostTurn s = .next t) :
    (s.host = [] ∧ t = s) ∨
      (∃ off width v rest, s.host = .wr off width v :: rest ∧ csrAccessAllowed off width = true ∧
        t = State.writeCsr off v { s with host := rest }) ∨
      (∃ off width name rest, s.host = .rd off width name :: rest ∧ csrAccessAllowed off width = true ∧
        t = State.bind name (.word (s.readCsr off)) { s with host := rest }) ∨
      (∃ a data rest, s.host = .memw a data :: rest ∧ (data.length = 0 ∨ a + data.length ≤ s.cfg.memBytes) ∧
        touches a data.length (s.readSetInFlight ++ s.writeSetInFlight) = false ∧
        t = State.writeAll (cellsAt a data) { s with host := rest }) ∨
      (∃ a n name rest, s.host = .memr a n name :: rest ∧ (n = 0 ∨ a + n ≤ s.cfg.memBytes) ∧
        touches a n s.writeSetInFlight = false ∧ t = State.bind name (.bytes (s.mem.readBytes a n)) { s with host := rest }) ∨
      (∃ rest, s.host = .wait :: rest ∧ t = hostPoll s rest) := by
  unfold hostTurn at h
  split at h
  · exact .inl ⟨‹_›, (Host.Outcome.next.inj h).symm⟩
  · unfold hostWrite at h
    split at h
    · exact .inr (.inl ⟨_, _, _, _, ‹_›, ‹_›, (Host.Outcome.next.inj h).symm⟩)
    · cases h
  · unfold hostRead at h
    split at h
    · exact .inr (.inr (.inl ⟨_, _, _, _, ‹_›, ‹_›, (Host.Outcome.next.inj h).symm⟩))
    · cases h
  · rename_i hh
    unfold hostMemWrite at h
    split at h
    · cases h
    · rename_i hr
      split at h
      · cases h
      · rename_i ht
        exact .inr (.inr (.inr (.inl ⟨_, _, _, hh, outOfRange_eq_false.mp (Bool.eq_false_iff.mpr hr), Bool.eq_false_iff.mpr ht,
          (Host.Outcome.next.inj h).symm⟩)))
  · rename_i hh
    unfold hostMemRead at h
    split at h
    · cases h
    · rename_i hr
      split at h
      · cases h
      · rename_i ht
        exact .inr (.inr (.inr (.inr (.inl ⟨_, _, _, _, hh, outOfRange_eq_false.mp (Bool.eq_false_iff.mpr hr),
          Bool.eq_false_iff.mpr ht, (Host.Outcome.next.inj h).symm⟩))))
  · exact .inr (.inr (.inr (.inr (.inr ⟨_, ‹_›, (Host.Outcome.next.inj h).symm⟩))))

end Sys2Proof.Machine
end

