-- ==== Sys2Proof/Laws/Field.lean ====
section
/-! SUPPORT. The field tables: EXP as the powers of the generator 2, LOG as their index, MULT on powers (R114, R115), that the
product by shift and XOR is linear in both arguments, and the laws of the table store's product and quotient that follow. -/

namespace Sys2Proof.Machine

/-- Multiplication by x. -/
def xtime (idx : Fin 16) (b : Byte) : Byte := (b <<< 1) ^^^ if b.msb then (polyOf idx).setWidth 8 else 0

theorem xor_cancel_left {w : Nat} (x y : BitVec w) : x ^^^ (x ^^^ y) = y := by
  rw [← BitVec.xor_assoc, BitVec.xor_self, BitVec.zero_xor]

theorem xtime_xor (idx : Fin 16) (a b : Byte) : xtime idx (a ^^^ b) = xtime idx a ^^^ xtime idx b := by
  unfold xtime
  rw [BitVec.shiftLeft_xor_distrib, BitVec.msb_xor]
  generalize BitVec.setWidth 8 (polyOf idx) = p
  generalize a <<< 1 = a1
  generalize b <<< 1 = b1
  cases a.msb <;> cases b.msb <;> simp <;> (try ac_rfl)
  rw [show a1 ^^^ p ^^^ (b1 ^^^ p) = p ^^^ (p ^^^ (a1 ^^^ b1)) by ac_rfl, xor_cancel_left]

set_option maxRecDepth 10000 in
theorem expNext_eq (idx : Fin 16) (b : Byte) : expNext (polyNat idx) b.toNat = (xtime idx b).toNat := by
  revert idx b
  decide +kernel

theorem expPower_lt (idx : Fin 16) (j : Nat) : expPower (polyNat idx) j < 256 := by
  induction j with
  | zero => show 1 < 256; decide
  | succ j ih =>
    have := expNext_eq idx (BitVec.ofNat 8 (expPower (polyNat idx) j))
    rw [BitVec.toNat_ofNat, Nat.mod_eq_of_lt ih] at this
    rw [expPower, this]
    exact BitVec.isLt _

/-- The j-th power of the generator 2. -/
def gpow (idx : Fin 16) (j : Nat) : Byte := BitVec.ofNat 8 (expPower (polyNat idx) j)

@[simp] theorem gpow_zero (idx : Fin 16) : gpow idx 0 = 1 := rfl

theorem gpow_succ (idx : Fin 16) (j : Nat) : gpow idx (j + 1) = xtime idx (gpow idx j) := by
  have := expNext_eq idx (gpow idx j)
  rw [gpow, BitVec.toNat_ofNat, Nat.mod_eq_of_lt (expPower_lt idx j)] at this
  apply BitVec.eq_of_toNat_eq
  rw [gpow, expPower, this, BitVec.toNat_ofNat, Nat.mod_eq_of_lt (BitVec.isLt _)]; rfl

theorem toNat_gpow (idx : Fin 16) (j : Nat) : (gpow idx j).toNat = expPower (polyNat idx) j := by
  rw [gpow, BitVec.toNat_ofNat, Nat.mod_eq_of_lt (expPower_lt idx j)]

theorem xtime_zero (idx : Fin 16) : xtime idx 0 = 0 := by revert idx; decide

set_option maxRecDepth 10000 in
theorem xtime_ne_zero (idx : Fin 16) (b : Byte) : xtime idx b = 0 → b = 0 := by
  revert idx b
  decide +kernel

theorem xtime_inj {idx : Fin 16} {a b : Byte} (h : xtime idx a = xtime idx b) : a = b := by
  have : xtime idx (a ^^^ b) = 0 := by rw [xtime_xor, h, BitVec.xor_self]; rfl
  have := xtime_ne_zero _ _ this
  simpa using this

theorem gpow_ne_zero (idx : Fin 16) (j : Nat) : gpow idx j ≠ 0 := by
  induction j with
  | zero => show (1 : Byte) ≠ 0; decide
  | succ j ih => rw [gpow_succ]; exact fun h => ih (xtime_ne_zero _ _ h)

/-- Scans the powers from `cur` on for 1. -/
def hitsOne (idx : Fin 16) : Nat → Byte → Bool
  | 0, _ => false
  | n + 1, cur => cur == 1 || hitsOne idx n (xtime idx cur)

set_option maxRecDepth 10000 in
theorem no_hit : ∀ idx : Fin 16, hitsOne idx 254 (xtime idx 1) = false := by decide +kernel

theorem hitsOne_false {idx : Fin 16} {n j : Nat} (h : hitsOne idx n (gpow idx j) = false) :
    ∀ i, i < n → gpow idx (j + i) ≠ 1 := by
  induction n generalizing j with
  | zero => intro i hi; omega
  | succ n ih =>
    simp only [hitsOne, Bool.or_eq_false_iff, beq_eq_false_iff_ne] at h
    intro i hi
    cases i with
    | zero => exact h.1
    | succ i =>
      rw [← gpow_succ] at h
      have := ih h.2 i (by omega)
      rwa [show j + (i+1) = j + 1 + i by omega]

theorem gpow_ne_one {idx : Fin 16} {d : Nat} (h1 : 1 ≤ d) (h2 : d ≤ 254) : gpow idx d ≠ 1 := by
  have := hitsOne_false (j := 1) (n := 254) (idx := idx) (by rw [gpow_succ, gpow_zero]; exact no_hit idx) (d - 1) (by omega)
  rwa [show 1 + (d - 1) = d by omega] at this

theorem gpow_255 (idx : Fin 16) : gpow idx 255 = 1 := by revert idx; decide +kernel

theorem gpow_add_255 (idx : Fin 16) (j : Nat) : gpow idx (j + 255) = gpow idx j := by
  induction j with
  | zero => rw [Nat.zero_add, gpow_255]; rfl
  | succ j ih => rw [show j + 1 + 255 = j + 255 + 1 by omega, gpow_succ, ih, gpow_succ]

theorem gpow_mod (idx : Fin 16) (j : Nat) : gpow idx (j % 255) = gpow idx j := by
  induction j using Nat.strongRecOn with
  | _ j ih =>
    by_cases h : j < 255
    · rw [Nat.mod_eq_of_lt h]
    · have := ih (j - 255) (by omega)
      rw [Nat.mod_eq_sub_mod (by omega), this, ← gpow_add_255, show j - 255 + 255 = j by omega]

theorem gpow_inj_aux {idx : Fin 16} {a d : Nat} (h : gpow idx (a + d) = gpow idx a) : gpow idx d = 1 := by
  induction a with
  | zero => rwa [Nat.zero_add, gpow_zero] at h
  | succ a ih => rw [show a + 1 + d = a + d + 1 by omega, gpow_succ, gpow_succ] at h; exact ih (xtime_inj h)

theorem gpow_inj {idx : Fin 16} {a b : Nat} (ha : a < 255) (hb : b < 255) (h : gpow idx a = gpow idx b) : a = b := by
  rcases Nat.lt_trichotomy a b with hlt | rfl | hlt
  · obtain ⟨d, rfl⟩ := Nat.exists_eq_add_of_lt hlt
    exact absurd (gpow_inj_aux (idx := idx) (d := d + 1) (a := a) h.symm) (gpow_ne_one (by omega) (by omega))
  · rfl
  · obtain ⟨d, rfl⟩ := Nat.exists_eq_add_of_lt hlt
    exact absurd (gpow_inj_aux (idx := idx) (d := d + 1) (a := b) h) (gpow_ne_one (by omega) (by omega))

theorem expEntry_eq {idx : Fin 16} {j : Nat} (h : j ≤ 510) : expEntry idx j = gpow idx j := by
  unfold expEntry
  split
  · rfl
  · split
    · subst_vars; rw [gpow_255]; rfl
    · split
      · exact gpow_mod idx j
      · rw [if_pos (by omega), show j = 0 + 255 + 255 by omega, gpow_add_255, gpow_add_255]; rfl

theorem gpow_surj (idx : Fin 16) (x : Byte) (hx : x ≠ 0) : ∃ j, j < 255 ∧ gpow idx j = x := by
  have hc : (Finset.univ.erase (0 : Byte)).card = 255 := by
    have card : Fintype.card Byte = 2 ^ 8 := (Fintype.card_congr (BitVec.equivFin (m := 8))).trans (Fintype.card_fin _)
    rw [Finset.card_erase_of_mem (Finset.mem_univ _), Finset.card_univ, card]
    norm_num
  have := Finset.surj_on_of_inj_on_of_card_le (s := Finset.range 255) (t := Finset.univ.erase (0 : Byte)) (fun a _ => gpow idx a)
    (fun a _ => Finset.mem_erase.mpr ⟨gpow_ne_zero idx a, Finset.mem_univ _⟩)
    (fun a b ha hb h => gpow_inj (Finset.mem_range.mp ha) (Finset.mem_range.mp hb) h) (by rw [hc]; simp) x (by simpa using hx)
  obtain ⟨a, ha, e⟩ := this
  exact ⟨a, Finset.mem_range.mp ha, e.symm⟩

theorem logScan_eq {idx : Fin 16} {x : Byte} {j0 : Nat} (h1 : 1 ≤ j0) (h2 : j0 ≤ 254) (hx : gpow idx j0 = x) :
    ∀ left last, left ≤ 254 →
      logScan (polyNat idx) x.toNat left (expPower (polyNat idx) (255 - left)) last = if 255 - left ≤ j0 then j0 else last := by
  intro left
  induction left with
  | zero => intro last _; simp only [logScan]; rw [if_neg (by omega)]
  | succ left ih =>
    intro last hl
    simp only [logScan]
    have e : expNext (polyNat idx) (expPower (polyNat idx) (255 - (left+1))) = expPower (polyNat idx) (255 - left) := by
      rw [show 255 - left = 255 - (left+1) + 1 by omega, expPower]
    rw [e]
    by_cases hcur : expPower (polyNat idx) (255 - (left+1)) = x.toNat
    · rw [if_pos hcur, ih _ (by omega)]
      have : 255 - (left + 1) = j0 := by
        refine gpow_inj (idx := idx) (by omega) (by omega) (BitVec.eq_of_toNat_eq ?_)
        rw [toNat_gpow, hcur, hx]
      rw [if_neg (by omega), if_pos (by omega)]; omega
    · rw [if_neg hcur, ih _ (by omega)]
      have : 255 - (left + 1) ≠ j0 := by
        rintro e; apply hcur; rw [e, ← toNat_gpow, hx]
      by_cases hh : 255 - (left+1) ≤ j0
      · rw [if_pos (by omega), if_pos hh]
      · rw [if_neg (by omega), if_neg hh]

theorem logEntry_gpow (idx : Fin 16) {j : Nat} (h1 : 1 ≤ j) (h2 : j ≤ 255) : (logEntry idx (gpow idx j)).toNat = j := by
  unfold logEntry
  rw [if_neg (gpow_ne_zero idx j)]
  by_cases h : j = 255
  · subst h; rw [if_pos (gpow_255 idx)]; rfl
  · have hne : gpow idx j ≠ 1 := gpow_ne_one h1 (by omega)
    rw [if_neg hne]
    have := logScan_eq (idx := idx) h1 (by omega) rfl 254 0 (by omega)
    rw [show expNext (polyNat idx) 1 = expPower (polyNat idx) (255 - 254) from rfl, this, if_pos (by omega), BitVec.toNat_ofNat]
    omega

theorem exists_log (idx : Fin 16) {x : Byte} (hx : x ≠ 0) :
    ∃ j, 1 ≤ j ∧ j ≤ 255 ∧ gpow idx j = x ∧ (logEntry idx x).toNat = j := by
  obtain ⟨j, hj, rfl⟩ := gpow_surj idx x hx
  by_cases h : j = 0
  · subst h
    exact ⟨255, by omega, by omega, gpow_255 idx, rfl⟩
  · exact ⟨j, by omega, by omega, rfl, logEntry_gpow idx (by omega) (by omega)⟩

theorem multEntry_gpow (idx : Fin 16) (a b : Nat) : multEntry idx (gpow idx b) (gpow idx a) = gpow idx (a + b) := by
  obtain ⟨a', h1, h2, e1, l1⟩ := exists_log idx (gpow_ne_zero idx a)
  obtain ⟨b', h3, h4, e2, l2⟩ := exists_log idx (gpow_ne_zero idx b)
  unfold multEntry
  rw [if_neg (gpow_ne_zero idx b), if_neg (gpow_ne_zero idx a), l1, l2, expEntry_eq (by omega), gpow_mod]
  have key : ∀ {a a' : Nat} (b : Nat), gpow idx a' = gpow idx a → gpow idx (a' + b) = gpow idx (a + b) := by
    intro a a' b h
    induction b with
    | zero => exact h
    | succ b ih => rw [← Nat.add_assoc, gpow_succ, ih, ← gpow_succ]; rfl
  rw [key _ e1, Nat.add_comm, key _ e2, Nat.add_comm]

/-! ## The product by shift and XOR -/

theorem foldl_bits_xor (v w : Nat → BitVec 16) (y : Byte) (l : List Nat) (a b : BitVec 16) :
    l.foldl (fun acc i => if y.getLsbD i then acc ^^^ (v i ^^^ w i) else acc) (a ^^^ b) =
      l.foldl (fun acc i => if y.getLsbD i then acc ^^^ v i else acc) a ^^^
        l.foldl (fun acc i => if y.getLsbD i then acc ^^^ w i else acc) b := by
  induction l generalizing a b with
  | nil => rfl
  | cons i l ih =>
    simp only [List.foldl_cons]
    rw [← ih]
    cases y.getLsbD i
    · rfl
    · simp only [if_true]; congr 1; ac_rfl

theorem foldl_bits_xor_right (v : Nat → BitVec 16) (y z : Byte) (l : List Nat) (a b : BitVec 16) :
    l.foldl (fun acc i => if (y ^^^ z).getLsbD i then acc ^^^ v i else acc) (a ^^^ b) =
      l.foldl (fun acc i => if y.getLsbD i then acc ^^^ v i else acc) a ^^^
        l.foldl (fun acc i => if z.getLsbD i then acc ^^^ v i else acc) b := by
  induction l generalizing a b with
  | nil => rfl
  | cons i l ih =>
    simp only [List.foldl_cons]
    rw [← ih]
    rw [BitVec.getLsbD_xor]
    congr 1
    cases y.getLsbD i <;> cases z.getLsbD i <;> simp
    · ac_rfl
    · ac_rfl
    · rw [show a ^^^ v i ^^^ (b ^^^ v i) = v i ^^^ (v i ^^^ (a ^^^ b)) by ac_rfl, xor_cancel_left]

theorem polyProduct_xor_left (x w y : Byte) : polyProduct (x ^^^ w) y = polyProduct x y ^^^ polyProduct w y := by
  unfold polyProduct
  have := foldl_bits_xor (fun i => x.setWidth 16 <<< i) (fun i => w.setWidth 16 <<< i) y (List.range 8) 0 0
  rw [← this]
  simp only [BitVec.setWidth_xor, BitVec.shiftLeft_xor_distrib]
  rfl

theorem polyProduct_xor_right (x y z : Byte) : polyProduct x (y ^^^ z) = polyProduct x y ^^^ polyProduct x z :=
  foldl_bits_xor_right (fun i => x.setWidth 16 <<< i) y z (List.range 8) 0 0

theorem polyRemainder_xor (poly : BitVec 9) (u v : BitVec 16) :
    polyRemainder poly (u ^^^ v) = polyRemainder poly u ^^^ polyRemainder poly v := by
  have key : ∀ (l : List Nat) (u v : BitVec 16),
      l.foldl (fun acc i => if acc.getLsbD (8 + i) then acc ^^^ (poly.setWidth 16 <<< i) else acc) (u ^^^ v) =
      l.foldl (fun acc i => if acc.getLsbD (8 + i) then acc ^^^ (poly.setWidth 16 <<< i) else acc) u ^^^
      l.foldl (fun acc i => if acc.getLsbD (8 + i) then acc ^^^ (poly.setWidth 16 <<< i) else acc) v := by
    intro l
    induction l with
    | nil => intro u v; rfl
    | cons i l ih =>
      intro u v
      simp only [List.foldl_cons]
      rw [← ih]
      rw [BitVec.getLsbD_xor]
      generalize BitVec.setWidth 16 poly <<< i = p
      congr 1
      cases u.getLsbD (8+i) <;> cases v.getLsbD (8+i) <;> simp
      · ac_rfl
      · ac_rfl
      · rw [show u ^^^ p ^^^ (v ^^^ p) = p ^^^ (p ^^^ (u ^^^ v)) by ac_rfl, xor_cancel_left]
  unfold polyRemainder
  rw [key, BitVec.setWidth_xor]

theorem fieldProduct_xor_left (idx : Fin 16) (x w y : Byte) :
    fieldProduct idx (x ^^^ w) y = fieldProduct idx x y ^^^ fieldProduct idx w y := by
  rw [fieldProduct, polyProduct_xor_left, polyRemainder_xor]; rfl

theorem fieldProduct_xor_right (idx : Fin 16) (x y z : Byte) :
    fieldProduct idx x (y ^^^ z) = fieldProduct idx x y ^^^ fieldProduct idx x z := by
  rw [fieldProduct, polyProduct_xor_right, polyRemainder_xor]; rfl

/-- A byte as the sum of its bits. -/
def bitSum (x : Byte) : Byte := (List.range 8).foldl (fun acc i => acc ^^^ if x.getLsbD i then BitVec.twoPow 8 i else 0) 0

theorem bitSum_eq : ∀ x : Byte, bitSum x = x := by decide +kernel

theorem linear_zero {f : Byte → Byte} (h : ∀ a b, f (a ^^^ b) = f a ^^^ f b) : f 0 = 0 := by
  have := h 0 0
  simpa using this

/-- Two linear functions that agree on the bits agree. -/
theorem linear_ext {f g : Byte → Byte} (hf : ∀ a b, f (a ^^^ b) = f a ^^^ f b)
    (hg : ∀ a b, g (a ^^^ b) = g a ^^^ g b)
    (h : ∀ i : Fin 8, f (BitVec.twoPow 8 i) = g (BitVec.twoPow 8 i)) (x : Byte) : f x = g x := by
  have key : ∀ l : List Nat, (∀ i ∈ l, i < 8) → ∀ a, f a = g a →
      f (l.foldl (fun acc i => acc ^^^ if x.getLsbD i then BitVec.twoPow 8 i else 0) a) =
        g (l.foldl (fun acc i => acc ^^^ if x.getLsbD i then BitVec.twoPow 8 i else 0) a) := by
    intro l
    induction l with
    | nil => intro _ a h; exact h
    | cons i l ih =>
      intro hl a ha
      simp only [List.foldl_cons]
      apply ih (fun j hj => hl j (List.mem_cons_of_mem _ hj))
      rw [hf, hg, ha]
      congr 1
      split
      · exact h ⟨i, hl i (List.mem_cons_self ..)⟩
      · rw [linear_zero hf, linear_zero hg]
  have := key (List.range 8) (fun i hi => List.mem_range.mp hi) 0 (by rw [linear_zero hf, linear_zero hg])
  rw [show (List.range 8).foldl _ 0 = bitSum x from rfl, bitSum_eq] at this
  exact this

theorem fieldProduct_xtime (idx : Fin 16) (x y : Byte) : fieldProduct idx x (xtime idx y) = xtime idx (fieldProduct idx x y) := by
  apply linear_ext (f := fun y => fieldProduct idx x (xtime idx y)) (g := fun y => xtime idx (fieldProduct idx x y))
  · intro a b; simp only [xtime_xor, fieldProduct_xor_right]
  · intro a b; simp only [xtime_xor, fieldProduct_xor_right]
  · intro i
    apply linear_ext (f := fun x => fieldProduct idx x (xtime idx (BitVec.twoPow 8 i)))
      (g := fun x => xtime idx (fieldProduct idx x (BitVec.twoPow 8 i)))
    · intro a b; simp only [fieldProduct_xor_left]
    · intro a b; simp only [xtime_xor, fieldProduct_xor_left]
    · revert idx i
      decide +kernel

theorem fieldProduct_one (idx : Fin 16) (x : Byte) : fieldProduct idx x 1 = x := by
  apply linear_ext (f := fun x => fieldProduct idx x 1) (g := fun x => x)
  · intro a b; simp only [fieldProduct_xor_left]
  · intro a b; rfl
  · revert idx; decide +kernel

theorem fieldProduct_gpow (idx : Fin 16) (a b : Nat) : fieldProduct idx (gpow idx a) (gpow idx b) = gpow idx (a + b) := by
  induction b with
  | zero => exact fieldProduct_one idx _
  | succ b ih => rw [gpow_succ, fieldProduct_xtime, ih, ← gpow_succ]; rfl

theorem fieldProduct_zero_right (idx : Fin 16) (x : Byte) : fieldProduct idx x 0 = 0 :=
  linear_zero (fieldProduct_xor_right idx x)

theorem fieldProduct_zero_left (idx : Fin 16) (x : Byte) : fieldProduct idx 0 x = 0 :=
  linear_zero (f := fun y => fieldProduct idx y x) (fun a b => fieldProduct_xor_left idx a b x)
/-! ## The table store's product and quotient -/

theorem gmul_zero (idx : Fin 16) (x : Byte) : gfMul (.built idx) x 0 = 0 := rfl

theorem gzero_mul (idx : Fin 16) (x : Byte) : gfMul (.built idx) 0 x = 0 := by
  show multEntry idx x 0 = 0
  unfold multEntry
  split <;> simp

theorem gmul_comm (idx : Fin 16) (x y : Byte) : gfMul (.built idx) x y = gfMul (.built idx) y x := by
  show multEntry idx y x = multEntry idx x y
  by_cases hy : y = 0
  · subst hy; by_cases hx : x = 0
    · subst hx; rfl
    · unfold multEntry; rw [if_pos rfl, if_neg hx, if_pos rfl]
  by_cases hx : x = 0
  · subst hx; unfold multEntry; rw [if_pos rfl, if_neg hy, if_pos rfl]
  obtain ⟨a, _, rfl⟩ := gpow_surj idx x hx
  obtain ⟨b, _, rfl⟩ := gpow_surj idx y hy
  rw [multEntry_gpow, multEntry_gpow, Nat.add_comm]

theorem gmul_assoc (idx : Fin 16) (x y z : Byte) :
    gfMul (.built idx) (gfMul (.built idx) x y) z = gfMul (.built idx) x (gfMul (.built idx) y z) := by
  by_cases hx : x = 0
  · subst hx; simp only [gzero_mul]
  by_cases hy : y = 0
  · subst hy; simp only [gmul_zero, gzero_mul]
  by_cases hz : z = 0
  · subst hz; simp only [gmul_zero]
  obtain ⟨a, _, rfl⟩ := gpow_surj idx x hx
  obtain ⟨b, _, rfl⟩ := gpow_surj idx y hy
  obtain ⟨c, _, rfl⟩ := gpow_surj idx z hz
  show multEntry _ _ (multEntry _ _ _) = multEntry _ (multEntry _ _ _) _
  simp only [multEntry_gpow, Nat.add_assoc]

theorem gmul_one (idx : Fin 16) (x : Byte) : gfMul (.built idx) x 1 = x := by
  by_cases hx : x = 0
  · subst hx; exact gzero_mul idx 1
  obtain ⟨a, _, rfl⟩ := gpow_surj idx x hx
  exact multEntry_gpow idx a 0

/-- A product with a power of x is that many multiplications by x. -/
theorem gmul_gpow (idx : Fin 16) (a : Nat) (y : Byte) : gfMul (.built idx) (gpow idx a) y = (xtime idx)^[a] y := by
  induction a with
  | zero => rw [gmul_comm]; exact gmul_one idx y
  | succ a ih =>
    rw [Function.iterate_succ_apply', ← ih]
    by_cases hy : y = 0
    · subst hy; simp only [gmul_zero, xtime_zero]
    · obtain ⟨b, _, rfl⟩ := gpow_surj idx y hy
      show multEntry _ _ _ = xtime idx (multEntry _ _ _)
      rw [multEntry_gpow, multEntry_gpow, ← gpow_succ]
      congr 1; omega

theorem gmul_add (idx : Fin 16) (x y z : Byte) :
    gfMul (.built idx) x (gfAdd y z) = gfAdd (gfMul (.built idx) x y) (gfMul (.built idx) x z) := by
  by_cases hx : x = 0
  · subst hx; simp only [gzero_mul]; rfl
  obtain ⟨a, _, rfl⟩ := gpow_surj idx x hx
  have linear : ∀ a, (xtime idx)^[a] (y ^^^ z) = (xtime idx)^[a] y ^^^ (xtime idx)^[a] z := by
    intro a
    induction a with
    | zero => rfl
    | succ a ih => simp only [Function.iterate_succ_apply', ih, xtime_xor]
  simp only [gmul_gpow, gfAdd]
  exact linear a

theorem gpow_congr {idx : Fin 16} {a a' : Nat} (b : Nat) (h : gpow idx a' = gpow idx a) :
    gpow idx (a' + b) = gpow idx (a + b) := by
    induction b with
    | zero => exact h
    | succ b ih => rw [← Nat.add_assoc, gpow_succ, ih, ← gpow_succ]; rfl

theorem gdiv_mul (idx : Fin 16) (x y : Byte) (hy : y ≠ 0) : gfMul (.built idx) (gfDiv (.built idx) x y) y = x := by
  by_cases hx : x = 0
  · subst hx
    have : gfDiv (.built idx) 0 y = 0 := by
      show divtEntry _ _ _ = _
      unfold divtEntry
      rw [if_neg hy, if_pos rfl]
    rw [this, gzero_mul]
  obtain ⟨a, h1, h2, rfl, l1⟩ := exists_log idx hx
  obtain ⟨b, h3, h4, rfl, l2⟩ := exists_log idx hy
  have : gfDiv (.built idx) (gpow idx a) (gpow idx b) = gpow idx (a + (255 - b)) := by
    show divtEntry _ _ _ = _
    unfold divtEntry
    rw [if_neg hy, if_neg hx, l1, l2, expEntry_eq (by omega), gpow_mod]
  rw [this]
  show multEntry _ _ _ = _
  rw [multEntry_gpow, show a + (255 - b) + b = a + 255 by omega, gpow_add_255]

theorem gmul_cancel {idx : Fin 16} {x x' y : Byte} (hy : y ≠ 0)
    (h : gfMul (.built idx) x y = gfMul (.built idx) x' y) : x = x' := by
  have e : gfMul (.built idx) y (gfDiv (.built idx) 1 y) = 1 := by rw [gmul_comm, gdiv_mul idx 1 y hy]
  have := congrArg (fun z => gfMul (.built idx) z (gfDiv (.built idx) 1 y)) h
  simpa only [gmul_assoc, e, gmul_one] using this

theorem gmul_div (idx : Fin 16) (x y : Byte) (hy : y ≠ 0) : gfDiv (.built idx) (gfMul (.built idx) x y) y = x :=
  gmul_cancel hy (gdiv_mul idx _ y hy)

theorem ginv (idx : Fin 16) (x : Byte) (hx : x ≠ 0) : gfMul (.built idx) x (gfInv (.built idx) x) = 1 := by
  rw [gmul_comm]; exact gdiv_mul idx 1 x hx

theorem exp_log (idx : Fin 16) {x : Byte} (hx : x ≠ 0) : expEntry idx (logEntry idx x).toNat = x := by
  obtain ⟨j, -, h2, rfl, hl⟩ := exists_log idx hx
  rw [hl, expEntry_eq (by omega)]

theorem ginv_ne {idx : Fin 16} {x : Byte} (hx : x ≠ 0) : gfInv (.built idx) x ≠ 0 := by
  intro h
  have := ginv idx x hx
  rw [h, gmul_zero] at this
  exact absurd this (by decide)
end Sys2Proof.Machine
end

