-- ==== Sys2Proof/Laws/Gauss.lean ====
section
/-! SUPPORT. The bytes under a built table store as a Mathlib field, and what Gauss-Jordan elimination (R181) keeps: the left half of
the augmented matrix is its right half times the input, its kernel stays inside the input's kernel, and the columns done are unit
columns. -/

namespace Sys2Proof.Machine

/-- `φ` carries `gf_add`, `gf_mul` and `gf_inv` of the table store to a field of characteristic 2. -/
structure FieldModel (st : Store) {F : Type} [Field F] (φ : Byte → F) : Prop where
  zero : φ 0 = 0
  one : φ 1 = 1
  add : ∀ x y, φ (gfAdd x y) = φ x + φ y
  mul : ∀ x y, φ (gfMul st x y) = φ x * φ y
  inv : ∀ x, φ (gfInv st x) = (φ x)⁻¹
  inj : Function.Injective φ
  two : ∀ a : F, a + a = 0

/-- The bytes with the operations of a built table store (R126). -/
@[reducible] noncomputable def byteField (idx : Fin 16) : Field Byte :=
  @Field.ofMinimalAxioms Byte ⟨gfAdd⟩ ⟨gfMul (.built idx)⟩ ⟨fun x => x⟩ ⟨gfInv (.built idx)⟩ ⟨0⟩ ⟨1⟩
    (fun x y z => BitVec.xor_assoc x y z) (fun _ => BitVec.zero_xor) (fun _ => BitVec.xor_self)
    (gmul_assoc idx) (gmul_comm idx) (fun x => (gmul_comm idx 1 x).trans (gmul_one idx x)) (fun x hx => ginv idx x hx) rfl
    (gmul_add idx) ⟨0, 1, by show (0 : Byte) ≠ 1; decide⟩

/-- Every built table store is a field (R126). -/
theorem exists_fieldModel (idx : Fin 16) : ∃ (F : Type) (_ : Field F) (φ : Byte → F), FieldModel (.built idx) φ :=
  ⟨Byte, byteField idx, fun x => x, @FieldModel.mk (.built idx) Byte (byteField idx) (fun x => x) rfl rfl (fun _ _ => rfl)
    (fun _ _ => rfl) (fun _ => rfl) (fun _ _ h => h) (fun _ => BitVec.xor_self)⟩

variable {F : Type} [Field F] {st : Store} {φ : Byte → F}

theorem FieldModel.ne_zero (h : FieldModel st φ) {x : Byte} : φ x ≠ 0 ↔ x ≠ 0 := by
  rw [← h.zero]
  exact h.inj.ne_iff

theorem FieldModel.xorSum (h : FieldModel st φ) (n : Nat) (f : Nat → Byte) :
    φ (Sys2Proof.Machine.xorSum n f) = ∑ j ∈ Finset.range n, φ (f j) := by
  unfold Sys2Proof.Machine.xorSum
  induction n with
  | zero => exact h.zero
  | succ n ih =>
    rw [Finset.sum_range_succ, ← ih, ← h.add, List.range_succ, List.foldl_append]
    rfl

/-! ## Matrices -/

theorem get_build {n m : Nat} {f : Nat → Nat → Byte} {r c : Nat} (hr : r < n) (hc : c < m) :
    (Mat.build n m f).get r c = f r c := by
  simp [Mat.get, Mat.build, List.getD, hr, hc]

/-- Element [r][c] in the field. -/
def Mat.val (φ : Byte → F) (a : Mat) (r c : Nat) : F := φ (a.get r c)

/-- The left half of `g` is its right half times `a`. -/
def LeftIsRightTimes (n : Nat) (a g : Nat → Nat → F) : Prop :=
  ∀ r, r < n → ∀ c, c < n → g r c = ∑ j ∈ Finset.range n, g r (n + j) * a j c

/-- A vector that the left half of `g` sends to 0, `a` sends to 0. -/
def KernelInside (n : Nat) (a g : Nat → Nat → F) : Prop :=
  ∀ v : Nat → F, (∀ r, r < n → ∑ c ∈ Finset.range n, g r c * v c = 0) → ∀ r, r < n → ∑ c ∈ Finset.range n, a r c * v c = 0

/-- The first `i` columns of `g` are those of the identity. -/
def UnitColumns (n i : Nat) (g : Nat → Nat → F) : Prop := ∀ r, r < n → ∀ c, c < i → g r c = if r = c then 1 else 0

/-- `b` times `a` is the identity. -/
def ProductIsOne (n : Nat) (b a : Nat → Nat → F) : Prop :=
  ∀ r, r < n → ∀ c, c < n → ∑ j ∈ Finset.range n, b r j * a j c = if r = c then 1 else 0

omit [Field F] in
theorem augment_left (n : Nat) (a : Mat) {r c : Nat} (hr : r < n) (hc : c < n) :
    (augment n a).val φ r c = a.val φ r c := by
  simp only [Mat.val]
  rw [augment, get_build hr (by omega), if_pos hc]

theorem augment_right (h : FieldModel st φ) (n : Nat) (a : Mat) {r j : Nat} (hr : r < n) (hj : j < n) :
    (augment n a).val φ r (n + j) = if r = j then 1 else 0 := by
  simp only [Mat.val]
  rw [augment, get_build hr (by omega), if_neg (by omega)]
  by_cases e : r = j
  · rw [if_pos (by omega), if_pos e, h.one]
  · rw [if_neg (by omega), if_neg e, h.zero]

theorem augment_leftIsRightTimes (h : FieldModel st φ) (n : Nat) (a : Mat) :
    LeftIsRightTimes n (a.val φ) ((augment n a).val φ) := by
  intro r hr c hc
  have e : ∀ j ∈ Finset.range n, (augment n a).val φ r (n + j) * a.val φ j c = if r = j then a.val φ r c else 0 := by
    intro j hj
    rw [augment_right h n a hr (Finset.mem_range.mp hj)]
    split
    · subst_vars; rw [one_mul]
    · rw [zero_mul]
  rw [augment_left n a hr hc, Finset.sum_congr rfl e, Finset.sum_ite_eq, if_pos (Finset.mem_range.mpr hr)]

theorem augment_kernelInside (n : Nat) (a : Mat) : KernelInside n (a.val φ) ((augment n a).val φ) := by
  intro v hv r hr
  rw [← hv r hr]
  exact Finset.sum_congr rfl fun c hc => by rw [augment_left n a hr (Finset.mem_range.mp hc)]

/-! ## The row operations -/

omit [Field F] in
theorem swapRows_val {n i p r c : Nat} (g : Mat) (hr : r < n) (hc : c < 2 * n) : (swapRows n i p g).val φ r c =
    if r = i then g.val φ p c else if r = p then g.val φ i c else g.val φ r c := by
  simp only [Mat.val]
  rw [swapRows, get_build hr hc]
  split
  · rfl
  · split <;> rfl

theorem scaleRow_val (h : FieldModel st φ) {n i r c : Nat} (g : Mat) (hr : r < n) (hc : c < 2 * n) :
    (scaleRow st n i g).val φ r c = if r = i then g.val φ i c * (g.val φ i i)⁻¹ else g.val φ r c := by
  simp only [Mat.val]
  rw [scaleRow, get_build hr hc]
  split
  · rw [h.mul, h.inv]
  · rfl

theorem eliminate_val (h : FieldModel st φ) {n i r c : Nat} (g : Mat) (hr : r < n) (hc : c < 2 * n) :
    (eliminate st n i g).val φ r c =
      if r = i then g.val φ r c else g.val φ r c + g.val φ i c * g.val φ r i := by
  simp only [Mat.val]
  rw [eliminate, get_build hr hc]
  split
  · rfl
  · split
    · rw [‹g.get r i = 0›, h.zero, mul_zero, add_zero]
    · rw [h.add, h.mul]

theorem swapRows_leftIsRightTimes {n i p : Nat} {a : Nat → Nat → F} {g : Mat} (hi : i < n) (hp : p < n)
    (h : LeftIsRightTimes n a (g.val φ)) : LeftIsRightTimes n a ((swapRows n i p g).val φ) := by
  intro r hr c hc
  have e : ∀ j ∈ Finset.range n, (swapRows n i p g).val φ r (n + j) * a j c =
      (if r = i then g.val φ p (n + j) else if r = p then g.val φ i (n + j) else g.val φ r (n + j)) * a j c := fun j hj => by
    rw [swapRows_val g hr (by have := Finset.mem_range.mp hj; omega)]
  rw [swapRows_val g hr (by omega), Finset.sum_congr rfl e]
  split
  · exact h p hp c hc
  · split
    · exact h i hi c hc
    · exact h r hr c hc

theorem scaleRow_leftIsRightTimes (hφ : FieldModel st φ) {n i : Nat} {a : Nat → Nat → F} {g : Mat} (hi : i < n)
    (h : LeftIsRightTimes n a (g.val φ)) : LeftIsRightTimes n a ((scaleRow st n i g).val φ) := by
  intro r hr c hc
  have e : ∀ j ∈ Finset.range n, (scaleRow st n i g).val φ r (n + j) * a j c =
      (if r = i then g.val φ i (n + j) * (g.val φ i i)⁻¹ else g.val φ r (n + j)) * a j c := fun j hj => by
    rw [scaleRow_val hφ g hr (by have := Finset.mem_range.mp hj; omega)]
  rw [scaleRow_val hφ g hr (by omega), Finset.sum_congr rfl e]
  split
  · rw [h i hi c hc, Finset.sum_mul]
    exact Finset.sum_congr rfl fun j _ => by ring
  · exact h r hr c hc

theorem eliminate_leftIsRightTimes (hφ : FieldModel st φ) {n i : Nat} {a : Nat → Nat → F} {g : Mat} (hi : i < n)
    (h : LeftIsRightTimes n a (g.val φ)) : LeftIsRightTimes n a ((eliminate st n i g).val φ) := by
  intro r hr c hc
  have e : ∀ j ∈ Finset.range n, (eliminate st n i g).val φ r (n + j) * a j c =
      (if r = i then g.val φ r (n + j) else g.val φ r (n + j) + g.val φ i (n + j) * g.val φ r i) * a j c := fun j hj => by
    rw [eliminate_val hφ g hr (by have := Finset.mem_range.mp hj; omega)]
  rw [eliminate_val hφ g hr (by omega), Finset.sum_congr rfl e]
  split
  · exact h r hr c hc
  · rw [h r hr c hc, h i hi c hc, Finset.sum_mul, ← Finset.sum_add_distrib]
    exact Finset.sum_congr rfl fun j _ => by ring

theorem swapRows_kernelInside {n i p : Nat} {a : Nat → Nat → F} {g : Mat} (hi : i < n) (hp : p < n)
    (h : KernelInside n a (g.val φ)) : KernelInside n a ((swapRows n i p g).val φ) := by
  intro v hv
  apply h v
  have key : ∀ r, r < n → ∑ c ∈ Finset.range n,
      (if r = i then g.val φ p c else if r = p then g.val φ i c else g.val φ r c) * v c = 0 := fun r hr => by
    rw [← hv r hr]
    exact Finset.sum_congr rfl fun c hc => by rw [swapRows_val g hr (by have := Finset.mem_range.mp hc; omega)]
  intro r hr
  by_cases h1 : r = i
  · subst h1
    by_cases h2 : p = r
    · subst h2; simpa using key p hp
    · simpa [h2] using key p hp
  · by_cases h2 : r = p
    · subst h2; simpa using key i hi
    · simpa [h1, h2] using key r hr

theorem scaleRow_kernelInside (hφ : FieldModel st φ) {n i : Nat} {a : Nat → Nat → F} {g : Mat} (hne : g.val φ i i ≠ 0)
    (h : KernelInside n a (g.val φ)) : KernelInside n a ((scaleRow st n i g).val φ) := by
  intro v hv
  apply h v
  intro r hr
  have e : ∑ c ∈ Finset.range n, (scaleRow st n i g).val φ r c * v c =
      ∑ c ∈ Finset.range n, (if r = i then g.val φ i c * (g.val φ i i)⁻¹ else g.val φ r c) * v c :=
    Finset.sum_congr rfl fun c hc => by rw [scaleRow_val hφ g hr (by have := Finset.mem_range.mp hc; omega)]
  have hr0 := e.symm.trans (hv r hr)
  by_cases h1 : r = i
  · subst h1
    have e2 : ∑ c ∈ Finset.range n, g.val φ r c * (g.val φ r r)⁻¹ * v c =
        (g.val φ r r)⁻¹ * ∑ c ∈ Finset.range n, g.val φ r c * v c := by
      rw [Finset.mul_sum]
      exact Finset.sum_congr rfl fun c _ => by ring
    simp only [if_true, e2] at hr0
    exact (mul_eq_zero.mp hr0).resolve_left (inv_ne_zero hne)
  · simpa [h1] using hr0

theorem eliminate_kernelInside (hφ : FieldModel st φ) {n i : Nat} {a : Nat → Nat → F} {g : Mat} (hi : i < n)
    (h : KernelInside n a (g.val φ)) : KernelInside n a ((eliminate st n i g).val φ) := by
  intro v hv
  apply h v
  have key : ∀ r, r < n → ∑ c ∈ Finset.range n,
      (if r = i then g.val φ r c else g.val φ r c + g.val φ i c * g.val φ r i) * v c = 0 := fun r hr => by
    rw [← hv r hr]
    exact Finset.sum_congr rfl fun c hc => by rw [eliminate_val hφ g hr (by have := Finset.mem_range.mp hc; omega)]
  have hi0 := key i hi
  simp only [if_true] at hi0
  intro r hr
  by_cases h1 : r = i
  · subst h1; exact hi0
  · have hr0 := key r hr
    have e : ∑ c ∈ Finset.range n, (g.val φ r c + g.val φ i c * g.val φ r i) * v c =
        ∑ c ∈ Finset.range n, g.val φ r c * v c + g.val φ r i * ∑ c ∈ Finset.range n, g.val φ i c * v c := by
      rw [Finset.mul_sum, ← Finset.sum_add_distrib]
      exact Finset.sum_congr rfl fun c _ => by ring
    simpa only [if_neg h1, e, hi0, mul_zero, add_zero] using hr0

/-! ## The pivot -/

theorem pivotRow_some (h : FieldModel st φ) {n i p : Nat} {g : Mat} (hp : pivotRow n g i = some p) :
    i ≤ p ∧ p < n ∧ g.val φ p i ≠ 0 := by
  have h1 := List.find?_some hp
  have h2 := List.mem_range.mp (List.mem_of_find?_eq_some hp)
  simp only [Bool.and_eq_true, decide_eq_true_eq, bne_iff_ne] at h1
  exact ⟨h1.1, h2, h.ne_zero.mpr h1.2⟩

theorem pivotRow_none (h : FieldModel st φ) {n i : Nat} {g : Mat} (hp : pivotRow n g i = none) {p : Nat} (h1 : i ≤ p)
    (h2 : p < n) : g.val φ p i = 0 := by
  have := List.find?_eq_none.mp hp p (List.mem_range.mpr h2)
  simp only [Bool.and_eq_true, decide_eq_true_eq, bne_iff_ne, not_and, not_not] at this
  rw [Mat.val, this h1, h.zero]

theorem gaussStep_unitColumns (hφ : FieldModel st φ) {n i p : Nat} {g : Mat} (hi : i < n) (hip : i ≤ p) (hp : p < n)
    (hne : g.val φ p i ≠ 0) (hU : UnitColumns n i (g.val φ)) :
    UnitColumns n (i + 1) ((eliminate st n i (scaleRow st n i (swapRows n i p g))).val φ) := by
  have s1 : UnitColumns n i ((swapRows n i p g).val φ) := by
    intro r hr c hc
    rw [swapRows_val g hr (by omega)]
    split
    · rw [hU p hp c hc, if_neg (by omega), if_neg (by omega)]
    · split
      · rw [hU i hi c hc, if_neg (by omega), if_neg (by omega)]
      · exact hU r hr c hc
  have s2 : (swapRows n i p g).val φ i i ≠ 0 := by rwa [swapRows_val g hi (by omega), if_pos rfl]
  generalize swapRows n i p g = g1 at s1 s2
  have t1 : UnitColumns n i ((scaleRow st n i g1).val φ) := by
    intro r hr c hc
    rw [scaleRow_val hφ g1 hr (by omega)]
    split
    · rw [s1 i hi c hc, if_neg (by omega), if_neg (by omega), zero_mul]
    · exact s1 r hr c hc
  have t2 : (scaleRow st n i g1).val φ i i = 1 := by
    rw [scaleRow_val hφ g1 hi (by omega), if_pos rfl, mul_inv_cancel₀ s2]
  generalize scaleRow st n i g1 = g2 at t1 t2
  intro r hr c hc
  rw [eliminate_val hφ g2 hr (by omega)]
  by_cases hci : c = i
  · subst hci
    split
    · subst_vars; exact t2
    · rw [t2, one_mul]
      exact hφ.two _
  · split
    · exact t1 r hr c (by omega)
    · rw [t1 i hi c (by omega), if_neg (show ¬ i = c by omega), zero_mul, add_zero]
      exact t1 r hr c (by omega)

/-- Without a pivot the input has a kernel vector that is not 0. -/
theorem kernel_of_no_pivot (hφ : FieldModel st φ) {n i : Nat} {g : Mat} {a : Nat → Nat → F} (hi : i < n)
    (hp : pivotRow n g i = none) (hU : UnitColumns n i (g.val φ)) (hK : KernelInside n a (g.val φ)) :
    ∃ v : Nat → F, v i = 1 ∧ ∀ r, r < n → ∑ c ∈ Finset.range n, a r c * v c = 0 := by
  refine ⟨fun c => if c < i then g.val φ c i else if c = i then 1 else 0, by simp, hK _ fun r hr => ?_⟩
  have e : ∀ c ∈ Finset.range n, g.val φ r c * (if c < i then g.val φ c i else if c = i then 1 else 0) =
      (if c = r then (if r < i then g.val φ r i else 0) else 0) + (if c = i then g.val φ r i else 0) := by
    intro c hc
    by_cases h1 : c < i
    · rw [if_pos h1, hU r hr c h1, if_neg (show ¬ c = i by omega), add_zero]
      by_cases h2 : r = c
      · subst h2; rw [if_pos rfl, if_pos rfl, if_pos h1, one_mul]
      · rw [if_neg h2, if_neg (fun e => h2 e.symm), zero_mul]
    · rw [if_neg h1]
      by_cases h3 : c = i
      · subst h3
        rw [if_pos rfl, if_pos rfl, mul_one]
        by_cases h4 : c = r
        · subst h4; rw [if_pos rfl, if_neg h1, zero_add]
        · rw [if_neg h4, zero_add]
      · rw [if_neg h3, if_neg h3, mul_zero, add_zero]
        by_cases h4 : c = r
        · subst h4; rw [if_pos rfl, if_neg h1]
        · rw [if_neg h4]
  rw [Finset.sum_congr rfl e, Finset.sum_add_distrib, Finset.sum_ite_eq', Finset.sum_ite_eq', if_pos (Finset.mem_range.mpr hr),
    if_pos (Finset.mem_range.mpr hi)]
  split
  · exact hφ.two _
  · rw [zero_add]
    exact pivotRow_none hφ hp (by omega) hr

/-- Everything the elimination can do: finish with unit columns and the invariants kept, or show a kernel vector. -/
theorem gaussFrom_cases (hφ : FieldModel st φ) {n : Nat} {a : Nat → Nat → F} : ∀ (left i : Nat) (g : Mat), i + left = n →
    LeftIsRightTimes n a (g.val φ) → KernelInside n a (g.val φ) → UnitColumns n i (g.val φ) →
    (∃ g', gaussFrom st n left i g = some g' ∧ LeftIsRightTimes n a (g'.val φ) ∧ UnitColumns n n (g'.val φ)) ∨
      (gaussFrom st n left i g = none ∧
        ∃ i, i < n ∧ ∃ v : Nat → F, v i = 1 ∧ ∀ r, r < n → ∑ c ∈ Finset.range n, a r c * v c = 0) := by
  intro left
  induction left with
  | zero =>
    intro i g hn hJ hK hU
    rw [show i = n by omega] at hU
    exact .inl ⟨g, rfl, hJ, hU⟩
  | succ left ih =>
    intro i g hn hJ hK hU
    have hi : i < n := by omega
    unfold gaussFrom gaussStep
    cases hp : pivotRow n g i with
    | none => exact .inr ⟨rfl, i, hi, kernel_of_no_pivot hφ hi hp hU hK⟩
    | some p =>
      obtain ⟨h1, h2, h3⟩ := pivotRow_some hφ hp
      have hne : (swapRows n i p g).val φ i i ≠ 0 := by rwa [swapRows_val g hi (by omega), if_pos rfl]
      exact ih (i + 1) _ (by omega)
        (eliminate_leftIsRightTimes hφ hi (scaleRow_leftIsRightTimes hφ hi (swapRows_leftIsRightTimes hi h2 hJ)))
        (eliminate_kernelInside hφ hi (scaleRow_kernelInside hφ hne (swapRows_kernelInside hi h2 hK)))
        (gaussStep_unitColumns hφ hi h1 h2 h3 hU)

/-- Everything `gf_invert` can do: answer a left inverse, or answer singular for a matrix with a kernel vector that is not 0. -/
theorem gfInvert_cases (hφ : FieldModel st φ) (n : Nat) (a : Mat) :
    (∃ b, gfInvert st n a = some b ∧ ProductIsOne n (b.val φ) (a.val φ)) ∨
      (gfInvert st n a = none ∧
        ∃ i, i < n ∧ ∃ v : Nat → F, v i = 1 ∧ ∀ r, r < n → ∑ c ∈ Finset.range n, a.val φ r c * v c = 0) := by
  unfold gfInvert
  rcases gaussFrom_cases hφ n 0 (augment n a) (by omega) (augment_leftIsRightTimes hφ n a) (augment_kernelInside n a)
      (fun r _ c hc => by omega) with ⟨g, hg, hJ, hU⟩ | ⟨hg, hk⟩
  · refine .inl ⟨_, by rw [hg], fun r hr c hc => ?_⟩
    rw [← hU r hr c hc, hJ r hr c hc]
    refine Finset.sum_congr rfl fun j hj => ?_
    congr 1
    simp only [Mat.val]
    rw [get_build hr (Finset.mem_range.mp hj)]
  · exact .inr ⟨by rw [hg], hk⟩

/-! ## Inverses -/

theorem isInverse_iff (hφ : FieldModel st φ) (n : Nat) (a b : Nat → Nat → Byte) : isInverse st n a b ↔
    ProductIsOne n (fun r c => φ (a r c)) (fun r c => φ (b r c)) ∧
      ProductIsOne n (fun r c => φ (b r c)) (fun r c => φ (a r c)) := by
  have key : ∀ a b : Nat → Nat → Byte,
      productIsIdentity st n a b ↔ ProductIsOne n (fun r c => φ (a r c)) (fun r c => φ (b r c)) := by
    intro a b
    have entry : ∀ r c, φ (Sys2Proof.Machine.xorSum n fun j => gfMul st (a r j) (b j c)) =
        ∑ j ∈ Finset.range n, φ (a r j) * φ (b j c) := fun r c => by
      rw [hφ.xorSum]
      exact Finset.sum_congr rfl fun j _ => hφ.mul _ _
    have one : ∀ r c : Nat, φ (if r = c then 1 else 0) = if r = c then 1 else 0 := fun r c => by
      split
      · exact hφ.one
      · exact hφ.zero
    constructor
    · intro h r hr c hc
      rw [← entry, h r hr c hc, one]
    · intro h r hr c hc
      apply hφ.inj
      rw [entry, one]
      exact h r hr c hc
  unfold isInverse
  rw [key, key]

/-- A left inverse of a square matrix is a right inverse. -/
theorem ProductIsOne.comm {n : Nat} {a b : Nat → Nat → F} (h : ProductIsOne n b a) : ProductIsOne n a b := by
  have toMatrix : ∀ x y : Nat → Nat → F, ProductIsOne n x y ↔
      (Matrix.of fun r c : Fin n => x r c) * (Matrix.of fun r c : Fin n => y r c) = (1 : Matrix (Fin n) (Fin n) F) := by
    intro x y
    constructor
    · intro h
      ext r c
      rw [Matrix.mul_apply, Matrix.one_apply]
      have := h r r.2 c c.2
      rw [← Fin.sum_univ_eq_sum_range (fun j => x r j * y j c) n] at this
      simpa [Fin.ext_iff] using this
    · intro h r hr c hc
      have := congrFun (congrFun h ⟨r, hr⟩) ⟨c, hc⟩
      rw [Matrix.mul_apply, Matrix.one_apply] at this
      rw [← Fin.sum_univ_eq_sum_range (fun j => x r j * y j c) n]
      simpa [Fin.ext_iff] using this
  rw [toMatrix] at h ⊢
  exact mul_eq_one_comm.mp h

/-- A matrix with a left inverse has no kernel vector but 0. -/
theorem ProductIsOne.kernel {n : Nat} {a b : Nat → Nat → F} (h : ProductIsOne n b a) {v : Nat → F}
    (hv : ∀ r, r < n → ∑ c ∈ Finset.range n, a r c * v c = 0) {i : Nat} (hi : i < n) : v i = 0 := by
  have e : ∑ c ∈ Finset.range n, (∑ j ∈ Finset.range n, b i j * a j c) * v c = v i := by
    rw [Finset.sum_congr rfl (g := fun c => if i = c then v i else 0), Finset.sum_ite_eq, if_pos (Finset.mem_range.mpr hi)]
    intro c hc
    rw [h i hi c (Finset.mem_range.mp hc)]
    split
    · subst_vars; rw [one_mul]
    · rw [zero_mul]
  rw [← e]
  simp only [Finset.sum_mul]
  rw [Finset.sum_comm]
  refine Finset.sum_eq_zero fun j hj => ?_
  rw [Finset.sum_congr rfl (g := fun c => b i j * (a j c * v c)) (fun c _ => by ring), ← Finset.mul_sum,
    hv j (Finset.mem_range.mp hj), mul_zero]

/-- A left inverse and a right inverse are equal. -/
theorem ProductIsOne.unique {n : Nat} {a b b' : Nat → Nat → F} (h : ProductIsOne n b' a) (h' : ProductIsOne n a b) {r c : Nat}
    (hr : r < n) (hc : c < n) : b' r c = b r c := by
  have e1 : ∑ l ∈ Finset.range n, b' r l * (∑ j ∈ Finset.range n, a l j * b j c) = b' r c := by
    rw [Finset.sum_congr rfl (g := fun l => if c = l then b' r c else 0), Finset.sum_ite_eq, if_pos (Finset.mem_range.mpr hc)]
    intro l hl
    rw [h' l (Finset.mem_range.mp hl) c hc]
    by_cases e : l = c
    · subst e; rw [if_pos rfl, if_pos rfl, mul_one]
    · rw [if_neg e, if_neg (fun h => e h.symm), mul_zero]
  have e2 : ∑ j ∈ Finset.range n, (∑ l ∈ Finset.range n, b' r l * a l j) * b j c = b r c := by
    rw [Finset.sum_congr rfl (g := fun l => if r = l then b r c else 0), Finset.sum_ite_eq, if_pos (Finset.mem_range.mpr hr)]
    intro l hl
    rw [h r hr l (Finset.mem_range.mp hl)]
    by_cases e : r = l
    · subst e; rw [if_pos rfl, if_pos rfl, one_mul]
    · rw [if_neg e, if_neg e, zero_mul]
  rw [← e1, ← e2]
  simp only [Finset.sum_mul, Finset.mul_sum]
  rw [Finset.sum_comm]
  exact Finset.sum_congr rfl fun j _ => Finset.sum_congr rfl fun l _ => by ring

/-! ## Cauchy matrices -/

/-- A square matrix of entries 1 / (x_t + y_u), the x distinct, the y distinct and no x a y, has no kernel vector but 0 (R152). -/
theorem cauchy_kernel (two : ∀ a : F, a + a = 0) {n : Nat} {x y v : Nat → F} (hx : Set.InjOn x (Finset.range n))
    (hy : Set.InjOn y (Finset.range n)) (hxy : ∀ t, t < n → ∀ u, u < n → x t + y u ≠ 0)
    (h : ∀ t, t < n → ∑ u ∈ Finset.range n, (x t + y u)⁻¹ * v u = 0) {u : Nat} (hu : u < n) : v u = 0 := by
  let P : Polynomial F := ∑ u ∈ Finset.range n,
    Polynomial.C (v u) * ∏ w ∈ (Finset.range n).erase u, (Polynomial.X + Polynomial.C (y w))
  have value : ∀ a, P.eval a = ∑ u ∈ Finset.range n, v u * ∏ w ∈ (Finset.range n).erase u, (a + y w) := fun a => by
    simp only [P, Polynomial.eval_finsetSum, Polynomial.eval_mul, Polynomial.eval_C, Polynomial.eval_prod, Polynomial.eval_add,
      Polynomial.eval_X]
  have hP : P = 0 := by
    apply Polynomial.eq_zero_of_degree_lt_of_eval_index_eq_zero (Finset.range n) hx
    · refine lt_of_le_of_lt (Polynomial.degree_sum_le _ _) ?_
      rw [Finset.card_range, Finset.sup_lt_iff (by exact WithBot.bot_lt_coe n)]
      intro u hu
      have hn : n - 1 < n := by have := Finset.mem_range.mp hu; omega
      have deg : (∏ w ∈ (Finset.range n).erase u, (Polynomial.X + Polynomial.C (y w)) : Polynomial F).degree = (n - 1 : Nat) := by
        rw [Polynomial.degree_prod, Finset.sum_congr rfl (g := fun _ => (1 : WithBot Nat)) fun w _ => Polynomial.degree_X_add_C _]
        simp [Finset.card_erase_of_mem hu]
      calc _ ≤ (Polynomial.C (v u)).degree + ((n - 1 : Nat) : WithBot Nat) := deg ▸ Polynomial.degree_mul_le _ _
        _ ≤ 0 + ((n - 1 : Nat) : WithBot Nat) := by gcongr; exact Polynomial.degree_C_le
        _ = ((n - 1 : Nat) : WithBot Nat) := by simp
        _ < (n : WithBot Nat) := by exact_mod_cast hn
    · intro t ht
      have ht := Finset.mem_range.mp ht
      have e : ∀ u ∈ Finset.range n, v u * ∏ w ∈ (Finset.range n).erase u, (x t + y w) =
          (∏ w ∈ Finset.range n, (x t + y w)) * ((x t + y u)⁻¹ * v u) := fun u hu => by
        have := hxy t ht u (Finset.mem_range.mp hu)
        rw [← Finset.mul_prod_erase _ _ hu]
        field_simp
      rw [value, Finset.sum_congr rfl e, ← Finset.mul_sum, h t ht, mul_zero]
  have he : ∑ w ∈ Finset.range n, v w * ∏ z ∈ (Finset.range n).erase w, (y u + y z) = 0 := by
    rw [← value, hP, Polynomial.eval_zero]
  rw [Finset.sum_eq_single u] at he
  · refine (mul_eq_zero.mp he).resolve_right (Finset.prod_ne_zero_iff.mpr fun w hw hz => ?_)
    have hw := Finset.mem_erase.mp hw
    have e : y w = y u := add_left_cancel (hz.trans (two (y u)).symm)
    exact hw.1 (hy (by simpa using Finset.mem_range.mp hw.2) (by simpa using hu) e)
  · intro w _ hwu
    rw [Finset.prod_eq_zero (i := u) (Finset.mem_erase.mpr ⟨hwu.symm, Finset.mem_range.mpr hu⟩) (two (y u)), mul_zero]
  · exact fun h => absurd (Finset.mem_range.mpr hu) h

end Sys2Proof.Machine
end

