-- ==== Sys2Proof/Laws/Decoding.lean ====
section
/-! SUPPORT. The steps of ENCODE and DECODE: the accumulation of products as a sum (R161, R207), the missing and the collected rows
(R203, R205), and what the installs leave in every byte and every descriptor (R207). -/

namespace Sys2Proof.Machine

/-! ## Sums of products -/

theorem gfAccumulate_eq (idx : Fin 16) (coef d acc : Byte) :
    gfAccumulate (.built idx) coef d acc = acc ^^^ gfMul (.built idx) d coef := by
  unfold gfAccumulate
  split
  · subst_vars; rw [gmul_zero]; exact BitVec.xor_zero.symm
  · split
    · subst_vars; rw [gmul_one]
    · rfl

theorem foldl_gfAccumulate (idx : Fin 16) (n : Nat) (c d : Nat → Byte) (a : Byte) :
    (List.range n).foldl (fun acc j => gfAccumulate (.built idx) (c j) (d j) acc) a =
      a ^^^ xorSum n fun j => gfMul (.built idx) (d j) (c j) := by
  unfold xorSum
  induction n with
  | zero => simp
  | succ n ih =>
    rw [List.range_succ, List.foldl_append, List.foldl_append, ih]
    simp only [List.foldl_cons, List.foldl_nil, gfAccumulate_eq]
    rw [BitVec.xor_assoc]

theorem foldl_xor_start (f : Nat → Byte) (l : List Nat) (a b : Byte) :
    l.foldl (fun acc j => acc ^^^ f j) (a ^^^ b) = a ^^^ l.foldl (fun acc j => acc ^^^ f j) b := by
  induction l generalizing b with
  | nil => rfl
  | cons x l ih => simp only [List.foldl_cons]; rw [BitVec.xor_assoc, ih]

/-- Accumulating over the indexes that `p` leaves is the sum over all of them with 0 for the others. -/
theorem foldl_filter_gfAccumulate (idx : Fin 16) (l : List Nat) (p : Nat → Bool) (c d : Nat → Byte) (a : Byte) :
    (l.filter fun i => !p i).foldl (fun acc j => gfAccumulate (.built idx) (c j) (d j) acc) a =
      a ^^^ l.foldl (fun acc j => acc ^^^ if p j then 0 else gfMul (.built idx) (d j) (c j)) 0 := by
  induction l generalizing a with
  | nil => simp
  | cons x l ih =>
    rw [List.filter_cons]
    cases hp : p x
    · simp only [Bool.not_false, if_true, List.foldl_cons, hp, Bool.false_eq_true, if_false]
      rw [ih, gfAccumulate_eq, BitVec.xor_comm 0, foldl_xor_start, BitVec.xor_assoc]
    · simp only [Bool.not_true, Bool.false_eq_true, if_false, List.foldl_cons, hp, if_true]
      rw [ih]
      simp

theorem xorSum_congr {n : Nat} {f g : Nat → Byte} (h : ∀ j, j < n → f j = g j) : xorSum n f = xorSum n g := by
  unfold xorSum
  have fold : ∀ l : List Nat, (∀ j ∈ l, j < n) → ∀ a,
      l.foldl (fun acc j => acc ^^^ f j) a = l.foldl (fun acc j => acc ^^^ g j) a := by
    intro l
    induction l with
    | nil => intros; rfl
    | cons x l ih =>
      intro hl a
      simp only [List.foldl_cons]
      rw [h x (hl x (List.mem_cons_self ..)), ih fun j hj => hl j (List.mem_cons_of_mem _ hj)]
  exact fold _ (fun j hj => List.mem_range.mp hj) 0

/-! ## Descriptors and rows -/

theorem desc_eq (s : State) (i : Nat) : s.desc i =
    { addr := (s.mem.read (s.src.toNat + 8 * i)).toNat + 2 ^ 8 * (s.mem.read (s.src.toNat + 8 * i + 1)).toNat +
        2 ^ 16 * (s.mem.read (s.src.toNat + 8 * i + 2)).toNat + 2 ^ 24 * (s.mem.read (s.src.toNat + 8 * i + 3)).toNat,
      row := (s.mem.read (s.src.toNat + 8 * i + 4)).toNat,
      present := (s.mem.read (s.src.toNat + 8 * i + 5)).getLsbD 0 } := by
  simp only [State.desc, Memory.descriptor, Memory.readLE, descriptorAddr]
  congr 1
  simp only [Nat.add_assoc, Nat.reduceAdd]
  omega

theorem getElem_descriptors {s : State} {e : Nat} (h : e < s.descriptors.length) : s.descriptors[e] = s.desc e := by
  simp [State.descriptors, State.desc]

theorem carries_iff {r : Nat} {d : Descriptor} : d.carries r = true ↔ d.present = true ∧ d.row = r := by
  simp [Descriptor.carries]

theorem any_descriptors {s : State} {p : Descriptor → Bool} :
    s.descriptors.any p = true ↔ ∃ e, e < s.nblk.toNat ∧ p (s.desc e) = true := by
  simp only [List.any_eq_true, mem_descriptors]
  constructor
  · rintro ⟨_, ⟨e, he, rfl⟩, hp⟩
    exact ⟨e, he, hp⟩
  · rintro ⟨e, he, hp⟩
    exact ⟨_, ⟨e, he, rfl⟩, hp⟩

theorem rowMissing_iff {s : State} {i : Nat} : rowMissing s.descriptors i = true ↔
    ¬ ∃ e, e < s.nblk.toNat ∧ (s.desc e).present = true ∧ (s.desc e).row = i := by
  simp only [rowMissing, Bool.not_eq_true', ← Bool.not_eq_true, any_descriptors, carries_iff]

theorem mem_missing {s : State} {i : Nat} : i ∈ s.missing ↔ i < s.k.toNat ∧ rowMissing s.descriptors i = true := by
  simp only [State.missing, missingRows, List.mem_filter, List.mem_range]

theorem missing_nodup (s : State) : s.missing.Nodup := List.Nodup.filter _ List.nodup_range

/-- What step 3 has collected (R205) once it has scanned the descriptors `D 0` to `D (n - 1)`: rows of distinct slots in order, each
present with a recovery row, no row twice, none passed over but for a row already taken or once `mc` are taken. -/
def Collected (D : Nat → Descriptor) (k m mc n : Nat) (slots : List Nat) : Prop :=
  slots.Pairwise (· < ·) ∧ (∀ e ∈ slots, e < n ∧ (D e).present = true ∧ k ≤ (D e).row ∧ (D e).row < k + m) ∧
    (slots.map fun e => (D e).row).Nodup ∧ slots.length ≤ mc ∧
    ∀ e, e < n → (D e).present = true → k ≤ (D e).row → (D e).row < k + m → (slots.length < mc ∨ ∃ l ∈ slots, e < l) →
      ∃ e' ∈ slots, e' ≤ e ∧ (D e').row = (D e).row

/-- The row and payload address that slot `e` gives. -/
def recoveryOf (D : Nat → Descriptor) (k e : Nat) : Recovery := ⟨(D e).row - k, (D e).addr⟩

theorem collectable_iff {D : Nat → Descriptor} {k m mc n : Nat} {slots : List Nat} (h : Collected D k m mc n slots) (e : Nat) :
    (D e).collectable k m (slots.map (recoveryOf D k)) = true ↔
      (D e).present = true ∧ k ≤ (D e).row ∧ (D e).row < k + m ∧ ∀ e' ∈ slots, (D e').row ≠ (D e).row := by
  simp only [Descriptor.collectable, Bool.and_eq_true, decide_eq_true_eq, Bool.not_eq_true', List.any_eq_false, List.mem_map,
    beq_iff_eq, and_assoc]
  refine and_congr_right fun _ => and_congr_right fun hk => and_congr_right fun _ => ⟨fun hn e' he' heq => ?_, fun hn r hr => ?_⟩
  · exact hn _ ⟨e', he', rfl⟩ (by simp only [recoveryOf, heq])
  · obtain ⟨e', he', rfl⟩ := hr
    have := (h.2.1 e' he').2.2.1
    have := hn e' he'
    simp only [recoveryOf]
    omega

/-- Everything step 3 can do (R205), from slot `n` on. -/
theorem collectRecovery_spec {D : Nat → Descriptor} {k m mc : Nat} : ∀ (j n : Nat) (slots : List Nat), Collected D k m mc n slots →
    ∃ slots', Collected D k m mc (n + j) slots' ∧
      collectRecovery k m mc ((List.range' n j).map D) (slots.map (recoveryOf D k)) = slots'.map (recoveryOf D k) := by
  intro j
  induction j with
  | zero => exact fun n slots h => ⟨slots, h, rfl⟩
  | succ j ih =>
    intro n slots h
    simp only [List.range'_succ, List.map_cons, collectRecovery]
    obtain ⟨h1, h2, h3, h4, h5⟩ := h
    have upper : ∀ l ∈ slots, l < n := fun l hl => (h2 l hl).1
    by_cases hmc : slots.length = mc
    · rw [if_pos (by simpa using hmc)]
      refine ⟨slots, ⟨h1, fun e he => ?_, h3, h4, fun e _ p1 p2 p3 p4 => ?_⟩, rfl⟩
      · have := h2 e he
        exact ⟨by omega, this.2⟩
      · rcases p4 with p4 | ⟨l, hl, hel⟩
        · omega
        · have := upper l hl
          exact h5 e (by omega) p1 p2 p3 (.inr ⟨l, hl, hel⟩)
    · rw [if_neg (by simpa using hmc)]
      have iff := collectable_iff ⟨h1, h2, h3, h4, h5⟩ n
      by_cases hc : (D n).collectable k m (slots.map (recoveryOf D k)) = true
      · rw [if_pos hc]
        obtain ⟨c1, c2, c3, c4⟩ := iff.mp hc
        have next : Collected D k m mc (n + 1) (slots ++ [n]) := by
          refine ⟨?_, fun e he => ?_, ?_, by simp; omega, fun e he p1 p2 p3 _ => ?_⟩
          · rw [List.pairwise_append]
            exact ⟨h1, List.pairwise_singleton _ _, fun a ha b hb => by
              obtain rfl := List.mem_singleton.mp hb
              exact upper a ha⟩
          · rcases List.mem_append.mp he with he | he
            · have := h2 e he
              exact ⟨by omega, this.2⟩
            · obtain rfl := List.mem_singleton.mp he
              exact ⟨by omega, c1, c2, c3⟩
          · rw [List.map_append, List.nodup_append]
            refine ⟨h3, List.nodup_singleton _, fun a ha b hb => ?_⟩
            obtain ⟨e', he', rfl⟩ := List.mem_map.mp ha
            obtain rfl := List.mem_singleton.mp hb
            exact c4 e' he'
          · by_cases hen : e = n
            · subst hen
              exact ⟨e, by simp, le_refl e, rfl⟩
            · obtain ⟨e', he', q⟩ := h5 e (by omega) p1 p2 p3 (.inl (by omega))
              exact ⟨e', List.mem_append_left _ he', q⟩
        obtain ⟨slots', hs, he⟩ := ih (n + 1) (slots ++ [n]) next
        refine ⟨slots', by rwa [show n + (j + 1) = n + 1 + j by omega], ?_⟩
        rw [← he, List.map_append]
        rfl
      · rw [if_neg hc]
        have next : Collected D k m mc (n + 1) slots := by
          refine ⟨h1, fun e he => ?_, h3, h4, fun e he p1 p2 p3 _ => ?_⟩
          · have := h2 e he
            exact ⟨by omega, this.2⟩
          · by_cases hen : e = n
            · subst hen
              by_contra hcon
              exact hc (iff.mpr ⟨p1, p2, p3, fun e' he' heq => hcon ⟨e', he', by have := upper e' he'; omega, heq⟩⟩)
            · exact h5 e (by omega) p1 p2 p3 (.inl (by omega))
        obtain ⟨slots', hs, he⟩ := ih (n + 1) slots next
        exact ⟨slots', by rwa [show n + (j + 1) = n + 1 + j by omega], he⟩

/-- No slot has been scanned. -/
theorem collected_nil (D : Nat → Descriptor) (k m mc : Nat) : Collected D k m mc 0 [] :=
  ⟨List.Pairwise.nil, by simp, by simp, by simp, by simp⟩

/-- A collected slot is the first present one with its row. -/
theorem Collected.first {D : Nat → Descriptor} {k m mc n : Nat} {slots : List Nat} (h : Collected D k m mc n slots) {e e' : Nat}
    (he : e ∈ slots) (hlt : e' < e) (hp : (D e').present = true) : (D e').row ≠ (D e).row := by
  intro heq
  obtain ⟨h1, h2, h3, -, h5⟩ := h
  have hs := h2 e he
  obtain ⟨l, hl, hle, hrow⟩ := h5 e' (by omega) hp (by omega) (by omega) (.inr ⟨e, he, hlt⟩)
  have : l = e := List.inj_on_of_nodup_map h3 hl he (hrow.trans heq)
  omega

/-! ## The rebuilt bytes -/

theorem residualByte_eq {s : State} {idx : Fin 16} (hst : s.store = .built idx) (t p : Nat) :
    residualByte s.store s.mem s.k.toNat s.descriptors (recoveryAt s.recovery t) p = s.residualClosed t p := by
  rw [State.residualClosed, residualByte, hst, presentRows,
    foldl_filter_gfAccumulate idx _ (rowMissing s.descriptors)
      (fun l => cauchyEntry (.built idx) s.k.toNat (recoveryAt s.recovery t).row l)
      (fun l => s.mem.read (dataAddr s.descriptors l + p))]
  rfl

theorem rebuiltByte_eq {s : State} {idx : Fin 16} (hst : s.store = .built idx) (hl : s.recovery.length = s.missing.length)
    (sinv : Mat) (u p : Nat) :
    rebuiltByte s.store s.mem s.k.toNat s.descriptors s.recovery sinv u p = s.rebuiltClosed sinv u p := by
  rw [State.rebuiltClosed, rebuiltByte, hl]
  simp only [residualByte_eq hst]
  rw [hst, foldl_gfAccumulate idx _ (fun t => sinv.get u t) (fun t => s.residualClosed t p)]
  exact BitVec.zero_xor

/-! ## The installs -/

theorem emptySlots_nodup (s : State) : (emptySlots s.descriptors).Nodup := List.Nodup.filter _ List.nodup_range

theorem installSlot_inj {s : State} {u u' : Nat} (h : u < installCount s.k.toNat s.descriptors)
    (h' : u' < installCount s.k.toNat s.descriptors) (e : installSlot s.descriptors u = installSlot s.descriptors u') : u = u' := by
  have h1 : u < (emptySlots s.descriptors).length := Nat.lt_of_lt_of_le h (Nat.min_le_right ..)
  have h2 : u' < (emptySlots s.descriptors).length := Nat.lt_of_lt_of_le h' (Nat.min_le_right ..)
  simp only [installSlot, List.getD, List.getElem?_eq_getElem h1, List.getElem?_eq_getElem h2, Option.getD_some] at e
  exact (List.Nodup.getElem_inj_iff (emptySlots_nodup s)).mp e

theorem mem_decodeCells {s : State} {sinv : Mat} {w : Host.Cell} : w ∈ s.decodeCells sinv ↔
    ∃ u, u < installCount s.k.toNat s.descriptors ∧
      ((∃ p, p < s.blockBytes.toNat ∧ w = ((s.desc (installSlot s.descriptors u)).addr + p,
          rebuiltByte s.store s.mem s.k.toNat s.descriptors s.recovery sinv u p)) ∨
        w = (s.src.toNat + 8 * installSlot s.descriptors u + 4, BitVec.ofNat 8 (s.missing.getD u 0)) ∨
        w = (s.src.toNat + 8 * installSlot s.descriptors u + 5, 0x01)) := by
  simp only [State.decodeCells, List.mem_flatMap, List.mem_range]
  constructor
  · rintro ⟨u, hu, h⟩
    exact ⟨u, hu, (mem_installCellsAt hu).mp h⟩
  · rintro ⟨u, hu, h⟩
    exact ⟨u, hu, (mem_installCellsAt hu).mpr h⟩

/-- A payload that is written lies outside the descriptor table. -/
theorem payload_off_table {s : State} (ha : s.decodeApart) {u e p d : Nat} (hu : u < installCount s.k.toNat s.descriptors)
    (he : e < s.nblk.toNat) (hp : p < s.blockBytes.toNat) (hd : d < 8) :
    (s.desc (installSlot s.descriptors u)).addr + p ≠ s.src.toNat + 8 * e + d := by
  intro h
  obtain ⟨h1, h2⟩ := installSlot_mem hu
  exact (ha _ h1 h2).1 ((s.desc (installSlot s.descriptors u)).addr + p) (by omega) (by omega) ⟨by omega, by omega⟩

/-- What the bytes of an install read as when DECODE is done. -/
theorem read_decodeCells {s : State} (sinv : Mat) (ha : s.decodeApart) (hw : s.mem.wf = true) {u : Nat}
    (hu : u < installCount s.k.toNat s.descriptors) :
    (∀ p, p < s.blockBytes.toNat →
      (s.mem.writeAll (s.decodeCells sinv)).read ((s.desc (installSlot s.descriptors u)).addr + p) =
        rebuiltByte s.store s.mem s.k.toNat s.descriptors s.recovery sinv u p) ∧
      (s.mem.writeAll (s.decodeCells sinv)).read (s.src.toNat + 8 * installSlot s.descriptors u + 4) =
        BitVec.ofNat 8 (s.missing.getD u 0) ∧
      (s.mem.writeAll (s.decodeCells sinv)).read (s.src.toNat + 8 * installSlot s.descriptors u + 5) = 0x01 := by
  obtain ⟨h1, h2⟩ := installSlot_mem hu
  refine ⟨fun p hp => ?_, ?_, ?_⟩
  · refine Memory.read_writeAll_of_mem hw (mem_decodeCells.mpr ⟨u, hu, .inl ⟨p, hp, rfl⟩⟩) fun w hw' e => ?_
    obtain ⟨u', hu', ⟨p', hp', rfl⟩ | rfl | rfl⟩ := mem_decodeCells.mp hw'
    · simp only at e ⊢
      by_cases h : u' = u
      · subst h; rw [show p' = p by omega]
      · obtain ⟨h3, h4⟩ := installSlot_mem hu'
        exact absurd ⟨by omega, by omega⟩ ((ha _ h1 h2).2 _ h3 (fun e => h (installSlot_inj hu' hu e))
          ((s.desc (installSlot s.descriptors u)).addr + p) (by omega) (by omega))
    · exact absurd e.symm (payload_off_table ha hu (installSlot_mem hu').1 hp (by omega))
    · exact absurd e.symm (payload_off_table ha hu (installSlot_mem hu').1 hp (by omega))
  · refine Memory.read_writeAll_of_mem hw (mem_decodeCells.mpr ⟨u, hu, .inr (.inl rfl)⟩) fun w hw' e => ?_
    obtain ⟨u', hu', ⟨p', hp', rfl⟩ | rfl | rfl⟩ := mem_decodeCells.mp hw'
    · exact absurd e (payload_off_table ha hu' h1 hp' (by omega))
    · simp only at e ⊢
      rw [installSlot_inj hu' hu (by omega)]
    · simp only at e; omega
  · refine Memory.read_writeAll_of_mem hw (mem_decodeCells.mpr ⟨u, hu, .inr (.inr rfl)⟩) fun w hw' e => ?_
    obtain ⟨u', hu', ⟨p', hp', rfl⟩ | rfl | rfl⟩ := mem_decodeCells.mp hw'
    · exact absurd e (payload_off_table ha hu' h1 hp' (by omega))
    · simp only at e; omega
    · rfl

/-- The frame of DECODE's installs. -/
theorem read_decodeCells_outside {s : State} (sinv : Mat) {a : Nat} (h : ∀ u, u < installCount s.k.toNat s.descriptors →
      ¬ ((s.desc (installSlot s.descriptors u)).addr ≤ a ∧
          a < (s.desc (installSlot s.descriptors u)).addr + s.blockBytes.toNat) ∧
        a ≠ s.src.toNat + 8 * installSlot s.descriptors u + 4 ∧ a ≠ s.src.toNat + 8 * installSlot s.descriptors u + 5) :
    (s.mem.writeAll (s.decodeCells sinv)).read a = s.mem.read a := by
  refine Memory.read_writeAll_of_forall_ne fun w hw e => ?_
  obtain ⟨u, hu, ⟨p, hp, rfl⟩ | rfl | rfl⟩ := mem_decodeCells.mp hw
  · simp only at e
    exact (h u hu).1 ⟨by omega, by omega⟩
  · exact (h u hu).2.1 e.symm
  · exact (h u hu).2.2 e.symm

/-- The descriptors after DECODE's installs: a filled slot is present with its row; any other is as it was. -/
theorem desc_of_installs {s t : State} {sinv : Mat} (ha : s.decodeApart) (hw : s.mem.wf = true)
    (ht : t.mem = s.mem.writeAll (s.decodeCells sinv)) (hsrc : t.src = s.src) {e : Nat} (he : e < s.nblk.toNat) :
    (∀ u, u < installCount s.k.toNat s.descriptors → e = installSlot s.descriptors u →
      t.desc e = ⟨(s.desc e).addr, (BitVec.ofNat 8 (s.missing.getD u 0)).toNat, true⟩) ∧
    ((∀ u, u < installCount s.k.toNat s.descriptors → e ≠ installSlot s.descriptors u) → t.desc e = s.desc e) := by
  have frame : ∀ d, d < 8 →
      (d = 4 ∨ d = 5 → ∀ u, u < installCount s.k.toNat s.descriptors → e ≠ installSlot s.descriptors u) →
      t.mem.read (s.src.toNat + 8 * e + d) = s.mem.read (s.src.toNat + 8 * e + d) := by
    intro d hd h
    rw [ht]
    refine read_decodeCells_outside sinv fun u hu => ⟨fun hh => ?_, fun hh => ?_, fun hh => ?_⟩
    · obtain ⟨h1, h2⟩ := installSlot_mem hu
      exact (ha _ h1 h2).1 _ hh.1 hh.2 ⟨by omega, by omega⟩
    · exact h (by omega) u hu (by omega)
    · exact h (by omega) u hu (by omega)
  have f0 := frame 0 (by omega) (by omega)
  have f1 := frame 1 (by omega) (by omega)
  have f2 := frame 2 (by omega) (by omega)
  have f3 := frame 3 (by omega) (by omega)
  rw [Nat.add_zero] at f0
  refine ⟨fun u hu hh => ?_, fun hh => ?_⟩
  · have := read_decodeCells sinv ha hw hu
    rw [desc_eq t, hsrc, f0, f1, f2, f3, desc_eq s, ht, hh, this.2.1, this.2.2]
    rfl
  · have f4 := frame 4 (by omega) fun _ => hh
    have f5 := frame 5 (by omega) fun _ => hh
    rw [desc_eq t, hsrc, f0, f1, f2, f3, f4, f5, desc_eq s]

/-! ## The payloads read again after an install -/

/-- A data row that is not missing is supplied by a present descriptor (R203). -/
theorem dataAddr_of_present {s : State} {l : Nat} (hl : l < s.k.toNat) (hm : l ∉ s.missing) :
    ∃ e, e < s.nblk.toNat ∧ (s.desc e).present = true ∧ dataAddr s.descriptors l = (s.desc e).addr := by
  obtain ⟨e, he, hp, hr⟩ : ∃ e, e < s.nblk.toNat ∧ (s.desc e).present = true ∧ (s.desc e).row = l := by
    by_contra h
    exact hm (mem_missing.mpr ⟨hl, rowMissing_iff.mpr h⟩)
  unfold dataAddr
  split
  · rename_i d h
    obtain ⟨e', he', rfl⟩ := mem_descriptors.mp (List.mem_of_find?_eq_some h)
    exact ⟨e', he', (carries_iff.mp (List.find?_some (p := fun d : Descriptor => d.carries l) h)).1, rfl⟩
  · rename_i h
    exact absurd (carries_iff.mpr ⟨hp, hr⟩) (by simpa using List.find?_eq_none.mp h _ (mem_descriptors.mpr ⟨e, he, rfl⟩))

/-- The recovery rows of DECODE come from the slots that step 3 collects (R205). -/
theorem exists_slots (s : State) : ∃ slots, Collected s.desc s.k.toNat s.m.toNat s.missing.length s.nblk.toNat slots ∧
    s.recovery = slots.map (recoveryOf s.desc s.k.toNat) := by
  obtain ⟨slots, h1, h2⟩ := collectRecovery_spec s.nblk.toNat 0 [] (collected_nil s.desc s.k.toNat s.m.toNat s.missing.length)
  rw [Nat.zero_add] at h1
  refine ⟨slots, h1, h2 ▸ ?_⟩
  rw [← List.range_eq_range']
  rfl

/-- Every payload that step 6 reads is that of a present descriptor (R211). -/
theorem payloadsRead_present {s : State} {r : Range} (h : r ∈ s.payloadsRead) :
    ∃ e, e < s.nblk.toNat ∧ (s.desc e).present = true ∧ r = ⟨(s.desc e).addr, s.blockBytes.toNat⟩ := by
  rcases mem_payloadsRead.mp h with ⟨l, hl, hm, rfl⟩ | ⟨q, hq, rfl⟩
  · obtain ⟨e, he, hp, ha⟩ := dataAddr_of_present hl hm
    exact ⟨e, he, hp, by rw [ha]⟩
  · obtain ⟨slots, hs, hr⟩ := exists_slots s
    rw [hr] at hq
    obtain ⟨e, he, rfl⟩ := List.mem_map.mp hq
    exact ⟨e, (hs.2.1 e he).1, (hs.2.1 e he).2.1, rfl⟩

theorem foldl_congr_mem {α β : Type} {f g : α → β → α} {l : List β} (h : ∀ b ∈ l, ∀ a, f a b = g a b) (a : α) :
    l.foldl f a = l.foldl g a := by
  induction l generalizing a with
  | nil => rfl
  | cons x l ih =>
    rw [List.foldl_cons, List.foldl_cons, h x (List.mem_cons_self ..), ih fun b hb => h b (List.mem_cons_of_mem _ hb)]

/-- A rebuilt byte depends on memory through the payloads that step 6 reads only (R207). -/
theorem rebuiltByte_congr {s : State} {mem : Memory} (h : ∀ r ∈ s.payloadsRead, ∀ p, p < r.len →
      mem.read (r.base + p) = s.mem.read (r.base + p)) (sinv : Mat) (u : Nat) {p : Nat} (hp : p < s.blockBytes.toNat) :
    rebuiltByte s.store mem s.k.toNat s.descriptors s.recovery sinv u p =
      rebuiltByte s.store s.mem s.k.toNat s.descriptors s.recovery sinv u p := by
  refine foldl_congr_mem (fun t ht acc => ?_) _
  have hq := h _ (mem_payloadsRead.mpr (.inr ⟨_, getD_mem_of_lt (List.mem_range.mp ht) ⟨0, 0⟩, rfl⟩)) p hp
  have : residualByte s.store mem s.k.toNat s.descriptors (recoveryAt s.recovery t) p =
      residualByte s.store s.mem s.k.toNat s.descriptors (recoveryAt s.recovery t) p := by
    unfold residualByte
    rw [show mem.read ((recoveryAt s.recovery t).addr + p) = _ from hq]
    refine foldl_congr_mem (fun l hl acc => ?_) _
    simp only [presentRows, List.mem_filter, List.mem_range, Bool.not_eq_true'] at hl
    have hm : l ∉ s.missing := fun hm => by simp [(mem_missing.mp hm).2] at hl
    rw [h _ (mem_payloadsRead.mpr (.inl ⟨l, hl.1, hm, rfl⟩)) p hp]
  rw [this]

/-- The writes of the first `n` installs. -/
def State.installsUpTo (s : State) (sinv : Mat) (n : Nat) : List Host.Cell :=
  (List.range n).flatMap fun u => s.installCellsAt sinv u

/-- The installs so far leave every payload that step 6 reads as it was, when another install is to follow. -/
theorem read_installsUpTo {s : State} (sinv : Mat) (ha : s.decodeApart) (hi : s.installsApart) {n : Nat}
    (hn : n < installCount s.k.toNat s.descriptors) {r : Range} (hr : r ∈ s.payloadsRead) {p : Nat} (hp : p < r.len) :
    (s.mem.writeAll (s.installsUpTo sinv n)).read (r.base + p) = s.mem.read (r.base + p) := by
  refine Memory.read_writeAll_of_forall_ne fun w hw e => ?_
  simp only [State.installsUpTo, List.mem_flatMap, List.mem_range] at hw
  obtain ⟨u, hu, hw⟩ := hw
  have hu' : u < installCount s.k.toNat s.descriptors := by omega
  obtain ⟨h1, h2⟩ := installSlot_mem hu'
  have flags : ∀ d, d = 4 ∨ d = 5 → s.src.toNat + 8 * installSlot s.descriptors u + d ≠ r.base + p := by
    intro d hd e
    obtain ⟨i1, i2⟩ := hi u (Nat.lt_of_le_of_lt hu hn) d hd
    rcases mem_payloadsRead.mp hr with ⟨l, hl, hm, rfl⟩ | ⟨q, hq, rfl⟩
    · exact i1 l hl hm ⟨by simp only at e; omega, by simp only at e hp; omega⟩
    · exact i2 q hq ⟨by simp only at e; omega, by simp only at e hp; omega⟩
  rcases (mem_installCellsAt hu').mp hw with ⟨q, hq, rfl⟩ | rfl | rfl
  · obtain ⟨x, hx, hpx, rfl⟩ := payloadsRead_present hr
    simp only at e hp
    exact (ha _ h1 h2).2 x hx (by rintro rfl; simp [h2] at hpx) ((s.desc (installSlot s.descriptors u)).addr + q) (by omega)
      (by omega) ⟨by omega, by omega⟩
  · exact flags 4 (.inl rfl) e
  · exact flags 5 (.inr rfl) e

/-- Step 6 of the pseudocode from block `n` on, over the memory as the first `n` installs have left it (R207). -/
theorem installLoop_eq {s : State} (sinv : Mat) (ha : s.decodeApart) (hi : s.installsApart) :
    ∀ j n, n + j = s.missing.length → n ≤ (emptySlots s.descriptors).length →
      installLoop s sinv (List.range' n j) ((emptySlots s.descriptors).drop n) (s.mem.writeAll (s.installsUpTo sinv n)) n =
        (s.mem.writeAll (s.decodeCells sinv), installCount s.k.toNat s.descriptors,
          decide (s.missing.length ≤ (emptySlots s.descriptors).length)) := by
  intro j
  have count : installCount s.k.toNat s.descriptors = min s.missing.length (emptySlots s.descriptors).length := rfl
  induction j with
  | zero =>
    intro n h1 h2
    rw [List.range'_zero, installLoop]
    have : installCount s.k.toNat s.descriptors = n := by omega
    rw [decide_eq_true (by omega : s.missing.length ≤ _), State.decodeCells, this]
    rfl
  | succ j ih =>
    intro n h1 h2
    rw [List.range'_succ]
    by_cases hn : n < (emptySlots s.descriptors).length
    · have hc : n < installCount s.k.toNat s.descriptors := by omega
      have hslot : (emptySlots s.descriptors)[n] = installSlot s.descriptors n := by
        simp [installSlot, List.getD, hn]
      rw [List.drop_eq_getElem_cons hn, installLoop, ← ih (n + 1) (by omega) (by omega)]
      congr 1
      rw [hslot, State.installsUpTo, State.installsUpTo, List.range_succ, List.flatMap_append, Memory.writeAll_append]
      congr 1
      simp only [List.flatMap_cons, List.flatMap_nil, List.append_nil, State.installCellsAt,
        getD_descriptors (installSlot_mem hc).1, State.rebuiltPayload]
      congr 1
      refine List.map_congr_left fun p hp => ?_
      exact rebuiltByte_congr (fun r hr p hp => read_installsUpTo sinv ha hi hc hr hp) sinv n (List.mem_range.mp hp)
    · have : installCount s.k.toNat s.descriptors = n := by omega
      rw [List.drop_eq_nil_of_le (by omega), installLoop, decide_eq_false (by omega : ¬ s.missing.length ≤ _), State.decodeCells, this]
      rfl

/-- DECODE once its checks have passed and its buffers are apart. -/
theorem execDecode_ready {s : State} (hr : s.decodeReady) (ha : s.decodeApart) : execDecode s = decodeBody s := by
  rw [execDecode, decodeCheck_eq_none.mpr hr, checked_none, decodeOverlaps_eq_false.mpr ha]
  rfl

/-- DECODE when S has an inverse: step 6, or its refusal (R207, log 19). -/
theorem execDecode_solved {s : State} {sinv : Mat} (hr : s.decodeReady) (ha : s.decodeApart) (hm : s.missing ≠ [])
    (hl : s.missing.length ≤ s.recovery.length) (hs : s.solvedBy sinv) : execDecode s = decodeInstall s sinv := by
  rw [execDecode_ready hr ha, decodeBody]
  refine (if_neg (show ¬ s.missing.length = 0 by simpa using hm)).trans ?_
  refine (if_neg (show ¬ s.recovery.length < s.missing.length by omega)).trans ?_
  rw [decodeSolve, show gfInvert s.store (missingRows s.k.toNat s.descriptors).length
      (submatrix s.store s.k.toNat (recoveryRows s.k.toNat s.m.toNat s.descriptors) (missingRows s.k.toNat s.descriptors)) =
        some sinv from hs]

end Sys2Proof.Machine
end

