-- ==== Sys2Proof/Laws/PerInstr.lean ====
section
/-! SUPPORT. A statement made per command: its encoding holds its opcode in OPC and 0 in the reserved bits 31:29 (R91, R92). -/

namespace Sys2Proof.Laws.OpcodeField

open Sys2Proof

/-- The opcodes of R92. -/
def opcode : Instr → Nat
  | .init => 0x01
  | .initP _ => 0x01
  | .add _ _ => 0x10
  | .mul _ _ => 0x11
  | .div _ _ => 0x12
  | .inv _ => 0x13
  | .exp _ => 0x14
  | .log _ => 0x15
  | .cauchy => 0x20
  | .encode => 0x30
  | .invert => 0x40
  | .decode => 0x50

/-- The command's word has its opcode at 7:0 and 0 at 31:29. -/
def Statement (i : Instr) : Prop := i.wf = true → bits (Sys2Proof.encode i) 7 0 = opcode i ∧ bits (Sys2Proof.encode i) 31 29 = 0

/-- A command word whose fields fit. -/
theorem commandWord_fields {top ops opc : Nat} (ht : top < 32) (ho : ops < 2 ^ 16) (hp : opc < 256) :
    bits (commandWord top ops opc) 7 0 = opc ∧ bits (commandWord top ops opc) 31 29 = 0 := by
  simp only [bits, commandWord, BitVec.toNat_ofNat]
  omega

theorem pairXY_lt (x y : Byte) : pairXY x y < 2 ^ 16 := by
  have := x.isLt
  have := y.isLt
  simp only [pairXY]
  omega

theorem byte_lt (x : Byte) : x.toNat < 2 ^ 16 := by
  have := x.isLt
  omega

theorem init : Statement .init := fun _ => commandWord_fields (by decide) (by decide) (by decide)

theorem initP (p : Nat) : Statement (.initP p) := fun h =>
  commandWord_fields (by have : p < 16 := by simpa [Instr.wf, polyIndexFits] using h
                         omega) (by decide) (by decide)

theorem add (x y : Byte) : Statement (.add x y) := fun _ => commandWord_fields (by decide) (pairXY_lt x y) (by decide)

theorem mul (x y : Byte) : Statement (.mul x y) := fun _ => commandWord_fields (by decide) (pairXY_lt x y) (by decide)

theorem div (x y : Byte) : Statement (.div x y) := fun _ => commandWord_fields (by decide) (pairXY_lt x y) (by decide)

theorem inv (x : Byte) : Statement (.inv x) := fun _ => commandWord_fields (by decide) (byte_lt x) (by decide)

theorem exp (idx : Nat) : Statement (.exp idx) := fun h =>
  commandWord_fields (by decide) (by simpa [Instr.wf, expIndexFits] using h) (by decide)

theorem log (x : Byte) : Statement (.log x) := fun _ => commandWord_fields (by decide) (byte_lt x) (by decide)

theorem cauchy : Statement .cauchy := fun _ => commandWord_fields (by decide) (by decide) (by decide)

theorem encode : Statement .encode := fun _ => commandWord_fields (by decide) (by decide) (by decide)

theorem invert : Statement .invert := fun _ => commandWord_fields (by decide) (by decide) (by decide)

theorem decode : Statement .decode := fun _ => commandWord_fields (by decide) (by decide) (by decide)

end Sys2Proof.Laws.OpcodeField
end

