-- ==== Sys2Proof/Tests/Slice0.lean ====
section
/-! SUPPORT. The model's own tests. Expected values are the spec's worked encodings (R101), its examples and the vectors of
95_test_vectors.md, named in the comments. Each `witness_<Name>` meets all hypotheses of the statement of that name. -/

namespace Sys2Proof.Tests

open Sys2Proof Sys2Proof.Machine

-- One theorem at a time: elaborated side by side, the kernel evaluations below need more threads than the memory limit allows.
set_option Elab.async false

/-! ## Small states -/

/-- Bytes from numbers. -/
def bytesOf (l : List Nat) : List Byte := l.map fun n => BitVec.ofNat 8 n

/-- Memory that holds the byte runs of `l`, each at its address. -/
def memOf (l : List (Nat × List Nat)) : Memory := l.foldl (fun m r => Memory.writeAll m (cellsAt r.1 (bytesOf r.2))) []

/-- The state after a reset and an INIT of index `idx` whose DONE the host has cleared. -/
def ready (idx : Fin 16) : State :=
  { State.reset with store := .built idx, poly := polyOf idx, status := { Status.reset with init := true } }

/-- The state an outcome leaves; the reset state for a stop. -/
def left (o : Host.Outcome State Fault Refusal) : State :=
  match o with
  | .next t => t
  | .fault _ => State.reset
  | .refused _ => State.reset

/-- The outcome is a next state. -/
def isNext (o : Host.Outcome State Fault Refusal) : Bool :=
  match o with
  | .next _ => true
  | .fault _ => false
  | .refused _ => false

theorem exists_of_isNext {o : Host.Outcome State Fault Refusal} (h : isNext o = true) : o = .next (left o) := by
  cases o <;> simp_all [isNext, left]

/-- Why a step was refused. -/
def refusal (o : Host.Outcome State Fault Refusal) : Option Refusal :=
  match o with
  | .next _ => none
  | .fault _ => none
  | .refused r => some r

/-- `(RESULT, STATUS)` after a command. -/
def reads (o : Host.Outcome State Fault Refusal) : Nat × Nat := ((left o).result.toNat, (left o).status.word.toNat)

/-- The `n` bytes at `a` after a command. -/
def dump (o : Host.Outcome State Fault Refusal) (a n : Nat) : List Byte := (left o).mem.readBytes a n

/-- CAUCHY's CSRs as in 95_test_vectors.md, section 2.5. -/
def cauchyAt (k m dst : Nat) : State :=
  { ready 3 with k := BitVec.ofNat 32 k, m := BitVec.ofNat 32 m, dst := BitVec.ofNat 32 dst }

/-- S1's two data blocks. -/
def dataS1 : Nat × List Nat := (0x1000, [1, 2, 3, 4, 5, 6, 7, 8, 9, 10, 11, 12, 13, 14, 15, 16])

/-- S1's two recovery blocks (vector E1). -/
def recoveryS1 : Nat × List Nat :=
  (0x2000, [0xA1, 0x07, 0x65, 0x06, 0x64, 0xC2, 0xA0, 0xCF, 0x66, 0xC0, 0xA2, 0xC1, 0xA3, 0x05, 0x67, 0xCB])

/-- ENCODE of S1 (vector E1), with its recovery buffer at `dst`. -/
def encodeS1 (idx : Fin 16) (dst : Nat) : State :=
  { ready idx with k := 2, m := 2, blockBytes := 8, src := 0x1000, dst := BitVec.ofNat 32 dst, mem := memOf [dataS1] }

/-- ENCODE of one block into one (vector E6). -/
def encodeOne (data : List Nat) : State :=
  { ready 3 with k := 1, m := 1, blockBytes := 8, src := 0x1000, dst := 0x2000, mem := memOf [(0x1000, data)] }

/-- INVERT of the matrix `a` at 0x0300 (section 2.7). -/
def invertOf (n dst : Nat) (a : List Nat) : State :=
  { ready 3 with n := BitVec.ofNat 32 n, src := 0x0300, dst := BitVec.ofNat 32 dst, mem := memOf [(0x0300, a)] }

/-- The bytes of one descriptor (R69). -/
def descriptorBytes (addr row flags : Nat) : List Nat := [addr % 256, addr / 256 % 256, 0, 0, row, flags, 0, 0]

/-- DECODE of a table at 0x0100 (section 2.8) over S1's data and recovery blocks. -/
def decodeOf (k m nblk : Nat) (table : List Nat) : State :=
  { ready 3 with
    k := BitVec.ofNat 32 k, m := BitVec.ofNat 32 m, blockBytes := 8, src := 0x0100, nblk := BitVec.ofNat 32 nblk,
    mem := memOf [(0x0100, table), dataS1, recoveryS1] }

/-- Vector X1: both data blocks lost. -/
def decodeX1 : State :=
  decodeOf 2 2 4 (descriptorBytes 0x8000 0 0 ++ descriptorBytes 0x8008 0 0 ++ descriptorBytes 0x2000 2 1 ++
    descriptorBytes 0x2008 3 1)

/-- Vector X1 without its empty slots: BlockBuffer at the first install. -/
def decodeNoSlot : State := decodeOf 2 2 2 (descriptorBytes 0x2000 2 1 ++ descriptorBytes 0x2008 3 1)

/-- X1's table with the payload of recovery row 2 on the table itself: the first install writes a byte of it (log 19). -/
def decodeReached : State :=
  decodeOf 2 2 4 (descriptorBytes 0x8000 0 0 ++ descriptorBytes 0x8008 0 0 ++ descriptorBytes 0x0100 2 1 ++
    descriptorBytes 0x2008 3 1)

/-- Nothing missing: both data blocks present. -/
def decodeAll : State := decodeOf 2 2 2 (descriptorBytes 0x1000 0 1 ++ descriptorBytes 0x1008 1 1)

/-- The command word of `i` in flight. -/
def inFlight (i : Instr) (s : State) : State := s.accept (encode i)

/-! ## WellFormed -/

theorem test_wf_initP : Instr.wf (.initP 15) = true ∧ Instr.wf (.initP 16) = false := by decide
theorem test_wf_exp : Instr.wf (.exp 65535) = true ∧ Instr.wf (.exp 65536) = false := by decide

/-! ## Decode: the words of R101 and of section 2 -/

theorem test_decode_init : decode 0x00000001 = .ok .init := by decide
theorem test_decode_initP : decode 0x1F000001 = .ok (.initP 15) := by decide
theorem test_decode_add : decode 0x00CA5310 = .ok (.add 0x53 0xCA) := by decide
theorem test_decode_mul : decode 0x00CA5311 = .ok (.mul 0x53 0xCA) := by decide
theorem test_decode_div : decode 0x00CA5312 = .ok (.div 0x53 0xCA) := by decide
theorem test_decode_inv : decode 0x00008013 = .ok (.inv 0x80) := by decide
theorem test_decode_exp : decode 0x0003FC14 = .ok (.exp 1020) := by decide
theorem test_decode_log : decode 0x00008015 = .ok (.log 0x80) := by decide
theorem test_decode_cauchy : decode 0x00000020 = .ok .cauchy := by decide
theorem test_decode_encode : decode 0x00000030 = .ok .encode := by decide
theorem test_decode_invert : decode 0x00000040 = .ok .invert := by decide
theorem test_decode_decode : decode 0x00000050 = .ok .decode := by decide

/-- I4, I5, I6, Q1, Q8 and the reserved OPC 0xFF. -/
theorem test_decode_illegal :
    decode 0x01000001 = .error .fieldMustBeZero ∧ decode 0x00000101 = .error .fieldMustBeZero ∧
      decode 0x30000001 = .error .reservedBits ∧ decode 0x00000120 = .error .fieldMustBeZero ∧
      decode 0x01030211 = .error .fieldMustBeZero ∧ decode 0x000000FF = .error .reservedOpcode := by decide

theorem test_decodeTableWord : decodeTableWord 32 0x00CA5311 = some (.mul 0x53 0xCA) ∧ decodeTableWord 32 0x00000120 = none := by
  decide

/-! ## One command each -/

/-- I1, through a step. -/
theorem test_init :
    reads (step (State.reset.withFetchWord 32 0x00000001)) = (0x14D, 0x6) ∧
      (left (step (State.reset.withFetchWord 32 0x00000001))).readCsr 0x2C = 0x14D := by decide

/-- Section 2.1, index 15. -/
theorem test_initP : reads (step (State.reset.withFetchWord 32 0x1F000001)) = (0x1F5, 0x6) := by decide

/-- V2: no INIT. -/
theorem test_add : reads (exec (.add 0x53 0xCA) State.reset) = (0x99, 0x2) := by decide

/-- V10, V15. -/
theorem test_mul : reads (exec (.mul 0x57 0x83) (ready 3)) = (0x43, 0x6) ∧ reads (exec (.mul 0x53 0xCA) State.reset) = (0, 0x32) := by
  decide +kernel

/-- Section 2.1, index 15. -/
theorem test_mul_index15 : reads (exec (.mul 0x53 0xCA) (ready 15)) = (0x2B, 0x6) := by decide +kernel

/-- V19, V21. -/
theorem test_div : reads (exec (.div 0x03 0x07) (ready 3)) = (0x9C, 0x6) ∧ reads (exec (.div 0x53 0x00) (ready 3)) = (0, 0x6) := by
  decide +kernel

/-- V29, V31. -/
theorem test_inv : reads (exec (.inv 0xFF) (ready 3)) = (0x44, 0x6) ∧ reads (exec (.inv 0x00) (ready 3)) = (0, 0x6) := by
  decide +kernel

/-- V40, V41, V42, V43. -/
theorem test_exp :
    reads (exec (.exp 300) (ready 3)) = (0xA4, 0x6) ∧ reads (exec (.exp 509) (ready 3)) = (0xA6, 0x6) ∧
      reads (exec (.exp 510) (ready 3)) = (1, 0x6) ∧ reads (exec (.exp 511) (ready 3)) = (0, 0x6) := by decide +kernel

/-- V46, V48, V49. -/
theorem test_exp_errors :
    reads (exec (.exp 1021) (ready 3)) = (0, 0x16) ∧ reads (exec (.exp 1021) State.reset) = (0, 0x12) ∧
      reads (exec (.exp 8) State.reset) = (0, 0x32) := by decide

/-- V57, V51, V50. -/
theorem test_log :
    reads (exec (.log 0xFF) (ready 3)) = (0xA1, 0x6) ∧ reads (exec (.log 0x01) (ready 3)) = (0xFF, 0x6) ∧
      reads (exec (.log 0x00) (ready 3)) = (0x200, 0x6) := by decide +kernel

/-- C5. -/
theorem test_cauchy :
    reads (exec .cauchy (cauchyAt 2 3 0x0100)) = (0, 0x6) ∧
      dump (exec .cauchy (cauchyAt 2 3 0x0100)) 0x0100 6 = bytesOf [0xA6, 0xC4, 0xC4, 0xA6, 0x53, 0x87] := by decide +kernel

/-- CE4, CE7, CE8. -/
theorem test_cauchy_range :
    reads (exec .cauchy (cauchyAt 0xFFFFFFFF 2 0x0100)) = (0, 0x16) ∧ reads (exec .cauchy (cauchyAt 2 2 0xFFFD)) = (0, 0x76) ∧
      reads (exec .cauchy (cauchyAt 2 2 0xFFFC)) = (0, 0x6) := by decide +kernel

/-- E1. -/
theorem test_encode :
    reads (exec .encode (encodeS1 3 0x2000)) = (0, 0x6) ∧
      dump (exec .encode (encodeS1 3 0x2000)) 0x2000 16 = bytesOf recoveryS1.2 := by decide +kernel

/-- E9: under index 0. -/
theorem test_encode_index0 :
    dump (exec .encode (encodeS1 0 0x2000)) 0x2000 16 =
      bytesOf [0x89, 0x07, 0x7D, 0x06, 0x7C, 0xF2, 0x88, 0xFF, 0x7E, 0xF0, 0x8A, 0xF1, 0x8B, 0x05, 0x7F, 0xFB] := by
  decide +kernel

/-- N6 in place, and at 0x0301 over its own input (N15). -/
theorem test_invert :
    dump (exec .invert (invertOf 3 0x0300 [2, 3, 0, 0, 1, 5, 7, 0, 1])) 0x0300 9 =
        bytesOf [0x1A, 0x2E, 0x96, 0x13, 0x34, 0xE4, 0x46, 0xCA, 0x34] ∧
      dump (exec .invert (invertOf 3 0x0301 [2, 3, 0, 0, 1, 5, 7, 0, 1])) 0x0300 10 =
        bytesOf [2, 0x1A, 0x2E, 0x96, 0x13, 0x34, 0xE4, 0x46, 0xCA, 0x34] := by decide +kernel

/-- N14: singular. -/
theorem test_invert_singular : reads (exec .invert (invertOf 2 0x0400 [2, 4, 1, 2])) = (0, 0x56) := by decide +kernel

/-- X1. -/
theorem test_decode_x1 :
    reads (exec .decode decodeX1) = (2, 0x6) ∧
      dump (exec .decode decodeX1) 0x8000 16 = bytesOf dataS1.2 ∧
      dump (exec .decode decodeX1) 0x0100 16 = bytesOf (descriptorBytes 0x8000 0 1 ++ descriptorBytes 0x8008 1 1) := by
  decide +kernel

/-- X11: a row that is out of range, a recovery row twice. -/
theorem test_decode_x11 :
    reads (exec .decode (decodeOf 2 2 6 (descriptorBytes 0x1000 7 1 ++ descriptorBytes 0x2008 3 1 ++ descriptorBytes 0x2008 3 1 ++
        descriptorBytes 0x8000 0 0 ++ descriptorBytes 0x2000 2 1 ++ descriptorBytes 0x1008 1 1))) = (1, 0x6) ∧
      dump (exec .decode (decodeOf 2 2 6 (descriptorBytes 0x1000 7 1 ++ descriptorBytes 0x2008 3 1 ++ descriptorBytes 0x2008 3 1 ++
        descriptorBytes 0x8000 0 0 ++ descriptorBytes 0x2000 2 1 ++ descriptorBytes 0x1008 1 1))) 0x8000 8 =
        bytesOf [1, 2, 3, 4, 5, 6, 7, 8] := by decide +kernel

/-- An install that reaches a payload still to be read is refused; an install that no other follows reaches none (log 19). -/
theorem test_decode_reached :
    refusal (exec .decode decodeReached) = some .overlappingBuffers ∧
      reads (exec .decode (decodeOf 2 2 3 (descriptorBytes 0x8000 0 0 ++ descriptorBytes 0x1008 1 1 ++
        descriptorBytes 0x0100 2 1))) = (1, 0x6) := by decide +kernel

/-! ## The CSRs, the host and reset -/

/-- R2, R3: WIGN is set by an ignored write and cleared by a 1 at bit 3, DONE by a 1 at bit 1; the rest is read-only. -/
theorem test_status_write :
    ((inFlight (.mul 3 7) (ready 3)).writeCsr 0x10 5).readCsr 0x04 = 0xD ∧
      ((inFlight (.mul 3 7) (ready 3)).writeCsr 0x10 5).readCsr 0x10 = 0 ∧
      ({ ready 3 with status := ⟨false, true, true, true, 0⟩ }.writeCsr 0x04 0x8).readCsr 0x04 = 0x6 ∧
      ({ ready 3 with status := ⟨false, true, true, false, 0⟩ }.writeCsr 0x04 0x2).readCsr 0x04 = 0x4 ∧
      ((ready 3).writeCsr 0x04 0xFFFFFFF1).readCsr 0x04 = 0x4 := by decide

/-- R6: an illegal word is accepted, read back, and ends with code 8. -/
theorem test_illegal_word :
    (State.reset.writeCsr 0x00 0xDEADBEEF).readCsr 0x04 = 1 ∧
      reads (coreTurn (State.reset.writeCsr 0x00 0xDEADBEEF)) = (0, 0x82) ∧
      (left (coreTurn (State.reset.writeCsr 0x00 0xDEADBEEF))).readCsr 0x00 = 0xDEADBEEF := by decide

/-- O2, O3: a read of the write set and a write to the read set, while BUSY, are refused. -/
theorem test_busy_buffers :
    refusal (hostTurn { inFlight .encode (encodeS1 3 0x2000) with host := [.memr 0x200F 1 "r"] }) = some .buffersInUse ∧
      refusal (hostTurn { inFlight .encode (encodeS1 3 0x2000) with host := [.memw 0x1000 [0xFF]] }) = some .buffersInUse := by
  decide +kernel

/-- R8: a reset while BUSY. -/
theorem test_reset_while_busy :
    (resetTurn (inFlight .encode (ready 3))).readCsr 0x04 = 0 ∧ (resetTurn (inFlight .encode (ready 3))).readCsr 0x2C = 0 := by
  decide

/-! ## Witnesses: encoding and steps -/

theorem witness_DecodeOfEncode : Instr.wf (.initP 15) = true ∧ Instr.wf (.exp 65535) = true := by decide

theorem witness_EncodeOfDecode : decode 0x1F000001 = .ok (.initP 15) := by decide

theorem witness_LegalWordsAreTheTable :
    opcodeTable[1]? = some ⟨0xF0FFFFFF, 0x10000001⟩ ∧ TableRow.holds ⟨0xF0FFFFFF, 0x10000001⟩ 0x1F000001 = true := by decide

theorem witness_IllegalWordCompletes : (∃ e, decode 0x20000001 = .error e) ∧ State.reset.status.busy = false :=
  ⟨⟨.reservedBits, by decide⟩, by decide⟩

theorem witness_StepRunsTheCommand :
    (∃ s : State, s.status.busy = true ∧ decode s.cmd = .ok .cauchy ∧ s.turns = .core :: [.reset]) ∧
      (∃ s : State, s.status.busy = true ∧ decode s.cmd = .ok .cauchy ∧ s.turns = []) ∧
      decodeTableWord 32 0x00000020 = some .cauchy ∧
      State.reset.mover = .host ∧ State.mover { State.reset with turns := [.reset] } = .reset ∧
      (∃ s : State, s.mover = .core ∧ s.status.busy = false) ∧
      ∃ s : State, s.mover = .core ∧ s.status.busy = true ∧ ∃ e, decode s.cmd = .error e :=
  ⟨⟨{ inFlight .cauchy (ready 3) with turns := [.core, .reset] }, by decide⟩, ⟨inFlight .cauchy (ready 3), by decide⟩, by decide,
    by decide, by decide, ⟨{ State.reset with turns := [.core] }, by decide⟩,
    State.reset.accept 0x20000001, by decide, by decide, .reservedBits, by decide⟩

theorem witness_CmdWriteAccepts : State.reset.status.busy = false ∧ (inFlight .init State.reset).status.busy = true := by decide

theorem witness_BusyWritesAreIgnored :
    (inFlight .init State.reset).status.busy = true ∧
      ∃ t, hostTurn { inFlight .init State.reset with host := [.wr 0x28 4 7] } = .next t :=
  ⟨by decide, _, exists_of_isNext (by decide)⟩

theorem witness_ParameterCsrsHoldEveryValue : State.reset.status.busy = false := by decide

theorem witness_UnmappedAndReservedReadZero :
    State.reset.status.busy = false ∧ (0xFFFFFFF1 : Word).getLsbD 1 = (0x0 : Word).getLsbD 1 ∧
      (0xFFFFFFF1 : Word).getLsbD 3 = (0x0 : Word).getLsbD 3 := by decide

theorem witness_IrqIsEnabledDone :
    (inFlight .init State.reset).status.busy = true ∧ (∃ t, coreTurn (inFlight .init State.reset) = .next t) ∧
      State.reset.status.busy = false ∧ (0x2 : Word).getLsbD 1 = true :=
  ⟨by decide, ⟨_, exists_of_isNext (by decide)⟩, by decide, by decide⟩

/-- One access for each clause: too narrow, misaligned, above 0x3C, and the last offset allowed. -/
theorem witness_CsrProtocol :
    State.mover { State.reset with host := [.wr 0x10 2 0] } = .host ∧
      State.mover { State.reset with host := [.rd 0x3C 4 "x"] } = .host ∧
      ¬ (2 = 4 ∧ 0x10 % 4 = 0 ∧ 0x10 ≤ 0x3C) ∧ ¬ (4 = 4 ∧ 0x12 % 4 = 0 ∧ 0x12 ≤ 0x3C) ∧ ¬ (4 = 4 ∧ 0x40 % 4 = 0 ∧ 0x40 ≤ 0x3C) ∧
      (4 = 4 ∧ 0x3C % 4 = 0 ∧ 0x3C ≤ 0x3C) := by decide

/-- A write and a read for each clause: one byte past the end, the last byte, the first byte of a set in use, the byte after it;
and accesses of length 0. -/
theorem witness_HostMemoryAccess :
    (inFlight .encode (encodeS1 3 0x2000)).mem.wf = true ∧ [(0xFF : Byte)] ≠ [] ∧
      (inFlight .encode (encodeS1 3 0x2000)).cfg.memBytes < 0x10000 + 1 ∧
      0xFFFF + 1 ≤ (inFlight .encode (encodeS1 3 0x2000)).cfg.memBytes ∧
      anyHas ((inFlight .encode (encodeS1 3 0x2000)).readSetInFlight ++ (inFlight .encode (encodeS1 3 0x2000)).writeSetInFlight)
        (0x1000 + 0) = true ∧
      anyHas ((inFlight .encode (encodeS1 3 0x2000)).readSetInFlight ++ (inFlight .encode (encodeS1 3 0x2000)).writeSetInFlight)
        (0x1010 + 0) = false ∧
      anyHas (inFlight .encode (encodeS1 3 0x2000)).writeSetInFlight (0x200F + 0) = true ∧
      anyHas (inFlight .encode (encodeS1 3 0x2000)).writeSetInFlight (0x2010 + 0) = false ∧
      State.host { State.reset with host := [.memw 0x10001 []] } = [.memw 0x10001 []] ∧
      State.host { State.reset with host := [.memr 0x10001 0 "r"] } = [.memr 0x10001 0 "r"] := by decide +kernel

theorem witness_ResetValues : (ready 3).status.busy = false := by decide

theorem witness_ResetAbandonsTheCommand :
    (inFlight .encode (encodeS1 3 0x2000)).status.busy = true ∧
      decode (inFlight .encode (encodeS1 3 0x2000)).cmd = .ok .encode ∧
      anyHas (inFlight .encode (encodeS1 3 0x2000)).writeSetInFlight 0x2010 = false ∧
      (State.reset.accept 0xDEADBEEF).status.busy = true ∧
      decode (State.reset.accept 0xDEADBEEF).cmd = .error .reservedBits := by decide +kernel

theorem ready_inv : (ready 3).Inv where
  memWf := by decide
  memBelow := by decide
  errLegal := by decide
  storeBuilt := fun _ => ⟨3, rfl, rfl⟩
  storeUnbuilt := fun h => absurd h (by decide)
  busyClean := fun h => absurd h (by decide)

theorem witness_StepKeepsInvariant : (ready 3).Inv ∧ ∃ t, step (ready 3) = .next t :=
  ⟨ready_inv, _, exists_of_isNext (by decide)⟩

theorem witness_CommandFrame :
    (∃ t, exec .decode decodeX1 = .next t) ∧ Instr.decode ≠ .init ∧ ∀ p, Instr.decode ≠ .initP p :=
  ⟨⟨_, exists_of_isNext (by decide +kernel)⟩, by decide, by simp⟩

theorem witness_CommandStaysInItsSets :
    anyHas (readSet .encode (encodeS1 3 0xFFF0)) 0x100F = true ∧ anyHas (writeSet .encode (encodeS1 3 0xFFF0)) 0xFFFF = true ∧
      anyHas (writeSet .encode (encodeS1 3 0xFFF0)) 0xFFEF = false ∧ ∃ t, exec .encode (encodeS1 3 0xFFF0) = .next t :=
  ⟨by decide +kernel, by decide +kernel, by decide +kernel, _, exists_of_isNext (by decide +kernel)⟩

/-- One error of either kind: InsufficientBlocks and BlockBuffer. -/
theorem witness_OnlyBlockBufferLeavesWrites :
    (∃ t, exec .decode (decodeOf 2 2 0 []) = .next t ∧ t.status.err ≠ 0 ∧ t.status.err ≠ 6) ∧
      ∃ t, exec .decode decodeNoSlot = .next t ∧ t.status.err ≠ 0 ∧ t.status.err = 6 :=
  ⟨⟨_, exists_of_isNext (by decide +kernel), by decide +kernel, by decide +kernel⟩,
    ⟨_, exists_of_isNext (by decide +kernel), by decide +kernel, by decide +kernel⟩⟩

theorem witness_InitBit :
    (∃ t, exec .init State.reset = .next t ∨ exec (.initP 15) State.reset = .next t) ∧
      (∃ t, step (ready 3) = .next t ∧ (ready 3).mover ≠ .reset ∧ (ready 3).status.init = true) ∧
      (∃ t, step (inFlight .init State.reset) = .next t ∧ (inFlight .init State.reset).status.init = false ∧ t.status.init = true) ∧
      State.reset.status.init = false ∧ (1020 : Nat) ≤ 1020 ∧
      ∃ s : State, s.status.init = false ∧ s.goodBlockCounts ∧ s.goodBlockBytes ∧ s.src ≠ 0 ∧ s.dst ≠ 0 ∧ 1 ≤ s.n.toNat ∧
        s.n.toNat ≤ 256 :=
  ⟨⟨_, .inl (exists_of_isNext (by decide))⟩, ⟨_, exists_of_isNext (by decide), by decide, by decide⟩,
    ⟨_, exists_of_isNext (by decide), by decide, by decide⟩, by decide, by decide,
    { State.reset with k := 128, m := 128, blockBytes := 8, src := 1, dst := 1, n := 256 },
    by simp [State.goodBlockCounts, State.goodBlockBytes, State.reset, Status.reset]⟩

theorem witness_BusyFromAcceptToComplete :
    State.reset.status.busy = false ∧
      (∃ t, step { State.reset with host := [.wr 0x00 4 0x20] } = .next t ∧ t.status.busy = true) ∧
      ∃ s t : State, step s = .next t ∧ s.status.busy = true ∧ t.status.busy = false ∧ s.mover = .core :=
  ⟨by decide, ⟨_, exists_of_isNext (by decide), by decide⟩,
    inFlight .cauchy (cauchyAt 2 2 0x0100), _, exists_of_isNext (by decide +kernel), by decide, by decide +kernel, by decide⟩

/-- A step that changes RESULT, the store and POLY, and one that changes ERR. -/
theorem witness_RegisterWriters :
    (∃ t, step (inFlight .init State.reset) = .next t ∧ t.result ≠ (inFlight .init State.reset).result ∧
      (t.store ≠ (inFlight .init State.reset).store ∨ t.poly ≠ (inFlight .init State.reset).poly)) ∧
      ∃ t, step (inFlight .cauchy State.reset) = .next t ∧ t.status.err ≠ (inFlight .cauchy State.reset).status.err :=
  ⟨⟨_, exists_of_isNext (by decide), by decide, by decide⟩, _, exists_of_isNext (by decide), by decide⟩

theorem witness_LatencyDoesNotMatter :
    ∃ s s1 t : State, s.mem.wf = true ∧ s.status.busy = true ∧ decode s.cmd = .ok .encode ∧ hostTurn s = .next s1 ∧
      exec .encode s = .next t :=
  ⟨{ inFlight .encode (encodeS1 3 0x2000) with host := [.memw 0x3000 [7]] }, _, _, by decide +kernel, by decide, by decide,
    exists_of_isNext (by decide +kernel), exists_of_isNext (by decide +kernel)⟩

theorem witness_WaitEnds :
    ∃ s : State, s.status.busy = true ∧ s.host = [.wait] ∧ (∀ x ∈ s.turns, x ≠ .reset) ∧ ∃ t, coreTurn s = .next t :=
  ⟨{ inFlight .cauchy (cauchyAt 2 2 0x0100) with host := [.wait], turns := [.host, .core] }, by decide, by decide, by decide, _,
    exists_of_isNext (by decide +kernel)⟩

/-! ## Witnesses: tables and scalar commands -/

theorem witness_SixteenPrimitivePolynomials : (254 : Nat) ≤ 254 ∧ expEntry 15 254 = expEntry 15 254 := ⟨le_rfl, rfl⟩

theorem witness_ExpAndLogTables : (510 : Nat) ≤ 510 ∧ 511 ≤ 1020 ∧ 1 ≤ 255 ∧ (0xFF : Byte) ≠ 0 := by decide

theorem witness_ProductAndQuotientTables : (0xFF : Byte) ≠ 0 ∧ (0x01 : Byte) ≠ 0 := by decide

theorem witness_TableLaws : (0xFF : Byte) ≠ 0 := by decide

theorem witness_InitBuildsTheTables : (15 : Nat) < 16 ∧ ∃ t, exec .init State.reset = .next t :=
  ⟨by decide, _, exists_of_isNext (by decide)⟩

theorem witness_MulResult :
    (ready 3).status.init = true ∧ (ready 3).store = .built 3 ∧ State.reset.status.init = false := by decide

theorem witness_DivResult :
    (ready 3).status.init = true ∧ (ready 3).store = .built 3 ∧ State.reset.status.init = false ∧ (0xFF : Byte) ≠ 0 := by decide

theorem witness_InvResult :
    (ready 3).status.init = true ∧ (ready 3).store = .built 3 ∧ State.reset.status.init = false ∧ (0xFF : Byte) ≠ 0 := by decide

theorem witness_ExpResult :
    (ready 3).status.init = true ∧ (ready 3).store = .built 3 ∧ State.reset.status.init = false ∧ 65535 < 65536 ∧ 1020 ≤ 1020 ∧
      1020 < 1021 ∧ 511 ≤ 511 := by decide

theorem witness_LogResult :
    (ready 3).status.init = true ∧ (ready 3).store = .built 3 ∧ State.reset.status.init = false ∧
      ∃ t, exec (.log 0) (ready 3) = .next t :=
  ⟨by decide, by decide, by decide, _, exists_of_isNext (by decide)⟩

/-! ## Witnesses: block commands -/

theorem goodCounts_cauchyAt : (cauchyAt 128 128 0xC001).goodBlockCounts := by simp [State.goodBlockCounts, cauchyAt]

/-- A state for each check: K + M = 257; DST = 0; no INIT; one byte past the end. -/
theorem witness_CauchyChecks :
    ¬ (cauchyAt 200 57 0x0100).goodBlockCounts ∧
      ((cauchyAt 128 128 0xC001).goodBlockCounts ∧ (cauchyAt 128 128 0xC001).dst ≠ 0 ∧
        (cauchyAt 128 128 0xC001).status.init = true ∧ (cauchyAt 128 128 0xC001).cfg.memBytes < 0xC001 + 128 * 128) ∧
      ((cauchyAt 1 1 0).goodBlockCounts ∧ (cauchyAt 1 1 0).dst = 0) ∧
      ∃ s : State, s.goodBlockCounts ∧ s.dst ≠ 0 ∧ s.status.init = false :=
  ⟨by simp [State.goodBlockCounts, cauchyAt], ⟨goodCounts_cauchyAt, by decide, by decide, by decide⟩,
    ⟨by simp [State.goodBlockCounts, cauchyAt], by decide⟩,
    { State.reset with k := 1, m := 1, dst := 1 }, by simp [State.goodBlockCounts], by decide, by decide⟩

theorem witness_CauchyWritesTheMatrix :
    (cauchyAt 128 128 0xC000).cauchyReady ∧ (cauchyAt 128 128 0xC000).mem.wf = true ∧
      ∃ idx, (cauchyAt 128 128 0xC000).store = .built idx :=
  ⟨cauchyCheck_eq_none.mp (by decide +kernel), by decide, 3, rfl⟩

theorem witness_CauchySubmatricesInvert :
    128 + 128 ≤ 256 ∧ [127, 0].Nodup ∧ [0, 127].Nodup ∧ (∀ r ∈ [127, 0], r < 128) ∧ (∀ c ∈ [0, 127], c < 128) ∧
      [127, 0].length = [0, 127].length := by decide

theorem good_encodeS1 (idx : Fin 16) (dst : Nat) : (encodeS1 idx dst).goodBlockCounts ∧ (encodeS1 idx dst).goodBlockBytes := by
  simp [State.goodBlockCounts, State.goodBlockBytes, encodeS1]

/-- A state for each check: BLOCK_BYTES = 12; DST = 0; no INIT; one byte past the end. -/
theorem witness_EncodeChecks :
    ¬ ({ encodeS1 3 0x2000 with blockBytes := 12 } : State).goodBlockBytes ∧
      ((encodeS1 3 0).goodBlockCounts ∧ (encodeS1 3 0).goodBlockBytes ∧ (encodeS1 3 0).dst = 0) ∧
      ((encodeS1 3 0xFFF1).goodBlockCounts ∧ (encodeS1 3 0xFFF1).goodBlockBytes ∧ (encodeS1 3 0xFFF1).src ≠ 0 ∧
        (encodeS1 3 0xFFF1).dst ≠ 0 ∧ (encodeS1 3 0xFFF1).status.init = true ∧
        (encodeS1 3 0xFFF1).cfg.memBytes < 0xFFF1 + 2 * 8) ∧
      ∃ s : State, s.goodBlockCounts ∧ s.goodBlockBytes ∧ s.src ≠ 0 ∧ s.dst ≠ 0 ∧ s.status.init = false :=
  ⟨by simp [State.goodBlockBytes], ⟨(good_encodeS1 3 0).1, (good_encodeS1 3 0).2, by decide⟩,
    ⟨(good_encodeS1 3 _).1, (good_encodeS1 3 _).2, by decide, by decide, by decide, by decide⟩,
    { State.reset with k := 1, m := 1, blockBytes := 8, src := 1, dst := 1 },
    by simp [State.goodBlockCounts], by simp [State.goodBlockBytes], by decide, by decide, by decide⟩

theorem encodeS1_ready : (encodeS1 3 0x1010).encodeReady := encodeCheck_eq_none.mp (by decide +kernel)
theorem encodeS1_apart : (encodeS1 3 0x1010).encodeApart := encodeOverlaps_eq_false.mp (by decide +kernel)

/-- The recovery buffer begins just after the data. -/
theorem witness_EncodeClosedForm :
    (encodeS1 3 0x1010).encodeReady ∧ (encodeS1 3 0x1010).encodeApart ∧ (encodeS1 3 0x1010).mem.wf = true ∧
      (encodeS1 3 0x1010).store = .built 3 := ⟨encodeS1_ready, encodeS1_apart, by decide +kernel, rfl⟩

theorem witness_EncodeIsItsPseudocode :
    (encodeS1 3 0x1010).encodeReady ∧ (encodeS1 3 0x1010).encodeApart ∧ (encodeS1 3 0x1010).mem.wf = true :=
  ⟨encodeS1_ready, encodeS1_apart, by decide +kernel⟩

/-- E6 for the first clause, E2 (zero data) for the second. -/
theorem witness_EncodeCornerCases :
    (∃ s t : State, s.encodeReady ∧ s.encodeApart ∧ s.mem.wf = true ∧ s.store = .built 3 ∧ exec .encode s = .next t ∧ s.k = 1 ∧
      s.m = 1 ∧ s.mem.read s.src.toNat = 0xDE) ∧
      ∃ s t : State, s.encodeReady ∧ s.encodeApart ∧ s.mem.wf = true ∧ s.store = .built 3 ∧ exec .encode s = .next t ∧
        ∀ q, q < s.k.toNat * s.blockBytes.toNat → s.mem.read (s.src.toNat + q) = 0 :=
  ⟨⟨encodeOne [0xDE, 0xAD, 0xBE, 0xEF, 0x01, 0x23, 0x45, 0x67], _, encodeCheck_eq_none.mp (by decide +kernel),
      encodeOverlaps_eq_false.mp (by decide +kernel), by decide +kernel, rfl, exists_of_isNext (by decide +kernel), by decide,
      by decide, by decide +kernel⟩,
    ⟨encodeOne [0, 0, 0, 0, 0, 0, 0, 0], _, encodeCheck_eq_none.mp (by decide +kernel),
      encodeOverlaps_eq_false.mp (by decide +kernel), by decide +kernel, rfl, exists_of_isNext (by decide +kernel),
      by decide +kernel⟩⟩

/-- A recovery buffer that begins on the last data byte, and an empty slot on a present payload. -/
theorem witness_OverlapIsRefused :
    ((encodeS1 3 0x100F).encodeReady ∧ ¬ (encodeS1 3 0x100F).encodeApart) ∧
      ∃ s : State, s.decodeReady ∧ ¬ s.decodeApart :=
  ⟨⟨encodeCheck_eq_none.mp (by decide +kernel), fun h => absurd (encodeOverlaps_eq_false.mpr h) (by decide +kernel)⟩,
    decodeOf 2 2 2 (descriptorBytes 0x1000 0 1 ++ descriptorBytes 0x1007 0 0), decodeCheck_eq_none.mp (by decide +kernel),
    fun h => absurd (decodeOverlaps_eq_false.mpr h) (by decide +kernel)⟩

/-- A state for each check: N = 257; SRC = 0; no INIT; one byte past the end (NE7, and NE8's neighbour). -/
theorem witness_InvertChecks :
    ¬ (1 ≤ (invertOf 257 0x0400 []).n.toNat ∧ (invertOf 257 0x0400 []).n.toNat ≤ 256) ∧
      (∃ s : State, 1 ≤ s.n.toNat ∧ s.n.toNat ≤ 256 ∧ s.src = 0) ∧
      (∃ s : State, 1 ≤ s.n.toNat ∧ s.n.toNat ≤ 256 ∧ s.src ≠ 0 ∧ s.dst ≠ 0 ∧ s.status.init = false) ∧
      (1 ≤ (invertOf 3 0xFFF8 []).n.toNat ∧ (invertOf 3 0xFFF8 []).n.toNat ≤ 256 ∧ (invertOf 3 0xFFF8 []).src ≠ 0 ∧
        (invertOf 3 0xFFF8 []).dst ≠ 0 ∧ (invertOf 3 0xFFF8 []).status.init = true ∧
        (invertOf 3 0xFFF8 []).cfg.memBytes < 0xFFF8 + 3 * 3) :=
  ⟨by decide, ⟨{ State.reset with n := 256 }, by decide⟩, ⟨{ State.reset with n := 1, src := 1, dst := 1 }, by decide⟩, by decide⟩

/-- Both verdicts, on N4 and N10. -/
theorem witness_GaussJordanIsCorrect :
    (∃ b, gfInvert (.built 3) 2 [[0, 1], [1, 0]] = some b) ∧ gfInvert (.built 3) 1 [[0]] = none ∧
      isInverse (.built 3) 2 (Mat.get [[0, 1], [1, 0]]) (Mat.get [[0, 1], [1, 0]]) :=
  ⟨⟨[[0, 1], [1, 0]], by decide +kernel⟩, by decide +kernel, by unfold isInverse productIsIdentity; decide +kernel⟩

theorem witness_InvertWritesTheInverse :
    (∃ b, (invertOf 1 0x0300 [1]).invertReady ∧ (invertOf 1 0x0300 [1]).mem.wf = true ∧ (invertOf 1 0x0300 [1]).store = .built 3 ∧
      isInverse (.built 3) 1 (fun r c => (invertOf 1 0x0300 [1]).mem.read (0x0300 + r * 1 + c)) b) ∧
      (invertOf 1 0x0300 [0]).invertReady ∧ (invertOf 1 0x0300 [0]).mem.wf = true ∧ (invertOf 1 0x0300 [0]).store = .built 3 ∧
      ¬ ∃ b, isInverse (.built 3) 1 (fun r c => (invertOf 1 0x0300 [0]).mem.read (0x0300 + r * 1 + c)) b := by
  refine ⟨⟨fun _ _ => 1, invertCheck_eq_none.mp (by decide +kernel), by decide +kernel, rfl, ?_⟩,
    invertCheck_eq_none.mp (by decide +kernel), by decide +kernel, rfl, ?_⟩
  · unfold isInverse productIsIdentity
    decide +kernel
  · rintro ⟨b, h, -⟩
    exact absurd (h 0 (by decide) 0 (by decide))
      ((by decide +kernel : ∀ y : Byte, ¬ (xorSum 1 fun _ => gfMul (.built 3) 0 y) = if (0 : Nat) = 0 then 1 else 0) (b 0 0))

theorem good_decodeOf (nblk : Nat) (t : List Nat) : (decodeOf 2 2 nblk t).goodBlockCounts ∧ (decodeOf 2 2 nblk t).goodBlockBytes := by
  simp [State.goodBlockCounts, State.goodBlockBytes, decodeOf]

/-- A state for each check: K = 0; SRC = 0; no INIT. -/
theorem witness_DecodeParameterChecks :
    ¬ (decodeOf 0 2 0 []).goodBlockCounts ∧
      (∃ s : State, s.goodBlockCounts ∧ s.goodBlockBytes ∧ s.src = 0) ∧
      ∃ s : State, s.goodBlockCounts ∧ s.goodBlockBytes ∧ s.src ≠ 0 ∧ s.status.init = false :=
  ⟨by simp [State.goodBlockCounts, decodeOf],
    ⟨{ decodeOf 2 2 0 [] with src := 0 }, (good_decodeOf 0 []).1, (good_decodeOf 0 []).2, rfl⟩,
    { decodeOf 2 2 0 [] with status := Status.reset }, (good_decodeOf 0 []).1, (good_decodeOf 0 []).2, by decide, rfl⟩

/-- X17, a table of no descriptors one byte past the end, X15's payload moved to one byte past the end, and a table of no
descriptors at the end. -/
theorem witness_DecodeValidation :
    ((decodeOf 2 2 0x1FE1 []).decodeParamsReady ∧
      (decodeOf 2 2 0x1FE1 []).cfg.memBytes < 0x0100 + 8 * (decodeOf 2 2 0x1FE1 []).nblk.toNat) ∧
      (∃ s : State, s.decodeParamsReady ∧ s.nblk = 0 ∧ s.cfg.memBytes < s.src.toNat + 8 * s.nblk.toNat) ∧
      (decodeOf 2 2 1 (descriptorBytes 0xFFF9 0 0)).decodeParamsReady ∧ 0 < (decodeOf 2 2 1 (descriptorBytes 0xFFF9 0 0)).nblk.toNat ∧
      (decodeOf 2 2 1 (descriptorBytes 0xFFF9 0 0)).cfg.memBytes < ((decodeOf 2 2 1 (descriptorBytes 0xFFF9 0 0)).desc 0).addr + 8 ∧
      ∃ s : State, s.decodeParamsReady ∧ s.nblk = 0 ∧ s.src.toNat = s.cfg.memBytes :=
  ⟨⟨decodeParamCheck_eq_none.mp (by decide +kernel), by decide⟩,
    ⟨{ decodeOf 2 2 0 [] with src := 0x10001 }, decodeParamCheck_eq_none.mp (by decide +kernel), by decide, by decide⟩,
    decodeParamCheck_eq_none.mp (by decide +kernel), by decide, by decide +kernel,
    { decodeOf 2 2 0 [] with src := 0x10000 }, decodeParamCheck_eq_none.mp (by decide +kernel), by decide, by decide⟩

/-- Row 1 is not missing and row 0 is. -/
theorem witness_MissingRows :
    (decodeOf 2 2 1 (descriptorBytes 0x1008 1 1)).missing = [0] ∧ 1 < (decodeOf 2 2 1 (descriptorBytes 0x1008 1 1)).k.toNat ∧
      1 ∉ (decodeOf 2 2 1 (descriptorBytes 0x1008 1 1)).missing := by decide +kernel

theorem decodeAll_ready : decodeAll.decodeReady := decodeCheck_eq_none.mp (by decide +kernel)
theorem decodeAll_apart : decodeAll.decodeApart := decodeOverlaps_eq_false.mp (by decide +kernel)

theorem decodeAll_present :
    ∀ i, i < decodeAll.k.toNat → ∃ e, e < decodeAll.nblk.toNat ∧ (decodeAll.desc e).present = true ∧ (decodeAll.desc e).row = i := by
  have h : ∀ i : Fin 2, i.val < decodeAll.nblk.toNat ∧ (decodeAll.desc i.val).present = true ∧ (decodeAll.desc i.val).row = i.val := by
    decide +kernel
  exact fun i hi => ⟨i, h ⟨i, hi⟩⟩

theorem witness_NothingMissingWritesNothing :
    decodeAll.decodeReady ∧ decodeAll.decodeApart ∧
      ∀ i, i < decodeAll.k.toNat → ∃ e, e < decodeAll.nblk.toNat ∧ (decodeAll.desc e).present = true ∧ (decodeAll.desc e).row = i :=
  ⟨decodeAll_ready, decodeAll_apart, decodeAll_present⟩

/-- X13: no descriptor at all; and a table whose recovery rows are collected. -/
theorem witness_RecoveryRows :
    (decodeOf 2 2 0 []).decodeReady ∧ (decodeOf 2 2 0 []).decodeApart ∧
      (decodeOf 2 2 0 []).recovery.length < (decodeOf 2 2 0 []).missing.length ∧
      decodeX1.recovery = [⟨0, 0x2000⟩, ⟨1, 0x2008⟩] :=
  ⟨decodeCheck_eq_none.mp (by decide +kernel), decodeOverlaps_eq_false.mp (by decide +kernel), by decide +kernel, by decide +kernel⟩

/-- X14: one block present of the two needed. -/
theorem witness_FewerThanKPresentFails :
    (decodeOf 2 2 1 (descriptorBytes 0x1000 0 1)).decodeReady ∧ (decodeOf 2 2 1 (descriptorBytes 0x1000 0 1)).decodeApart ∧
      ((decodeOf 2 2 1 (descriptorBytes 0x1000 0 1)).descriptors.filter fun d => d.present).length <
        (decodeOf 2 2 1 (descriptorBytes 0x1000 0 1)).k.toNat :=
  ⟨decodeCheck_eq_none.mp (by decide +kernel), decodeOverlaps_eq_false.mp (by decide +kernel), by decide +kernel⟩

theorem witness_DecodeIsNeverSingular : decodeX1.store = .built 3 ∧ ∃ t, exec .decode decodeX1 = .next t :=
  ⟨rfl, _, exists_of_isNext (by decide +kernel)⟩

theorem decodeX1_ready : decodeX1.decodeReady := decodeCheck_eq_none.mp (by decide +kernel)
theorem decodeX1_apart : decodeX1.decodeApart := decodeOverlaps_eq_false.mp (by decide +kernel)
theorem decodeX1_installsApart : decodeX1.installsApart := installReachesPayload_eq_false.mp (by decide +kernel)
theorem decodeX1_wf : decodeX1.mem.wf = true := by decide +kernel
theorem decodeX1_rows : decodeX1.missing ≠ [] ∧ decodeX1.missing.length ≤ decodeX1.recovery.length := by decide +kernel

/-- X1 with slots enough, and the table without an empty slot (BlockBuffer). -/
theorem witness_DecodeClosedForm :
    (decodeX1.decodeReady ∧ decodeX1.decodeApart ∧ decodeX1.installsApart ∧ decodeX1.mem.wf = true ∧
      decodeX1.store = .built 3 ∧ decodeX1.missing ≠ [] ∧ decodeX1.missing.length ≤ decodeX1.recovery.length ∧ 2 = min decodeX1.missing.length (emptySlots decodeX1.descriptors).length) ∧
      decodeNoSlot.decodeReady ∧ decodeNoSlot.decodeApart ∧ decodeNoSlot.installsApart ∧ decodeNoSlot.mem.wf = true ∧
      decodeNoSlot.store = .built 3 ∧ decodeNoSlot.missing ≠ [] ∧ decodeNoSlot.missing.length ≤ decodeNoSlot.recovery.length ∧
      0 = min decodeNoSlot.missing.length (emptySlots decodeNoSlot.descriptors).length :=
  ⟨⟨decodeX1_ready, decodeX1_apart, decodeX1_installsApart, decodeX1_wf, rfl, decodeX1_rows.1, decodeX1_rows.2, by decide +kernel⟩,
    decodeCheck_eq_none.mp (by decide +kernel), decodeOverlaps_eq_false.mp (by decide +kernel),
    installReachesPayload_eq_false.mp (by decide +kernel), by decide +kernel, rfl,
    by decide +kernel, by decide +kernel, by decide +kernel⟩

/-- X1, whose inverse is the one the spec gives beside it, [0A 0C] [0C 0A]; and its table with a payload that an install reaches. -/
theorem witness_DecodeIsItsPseudocode :
    (decodeX1.decodeReady ∧ decodeX1.decodeApart ∧ decodeX1.mem.wf = true ∧ decodeX1.missing ≠ [] ∧
      decodeX1.missing.length ≤ decodeX1.recovery.length ∧ decodeX1.solvedBy [[0x0A, 0x0C], [0x0C, 0x0A]] ∧
      decodeX1.installsApart) ∧
      decodeReached.decodeReady ∧ decodeReached.decodeApart ∧ decodeReached.mem.wf = true ∧ decodeReached.missing ≠ [] ∧
      decodeReached.missing.length ≤ decodeReached.recovery.length ∧ decodeReached.solvedBy [[0x0A, 0x0C], [0x0C, 0x0A]] ∧
      ¬ decodeReached.installsApart :=
  ⟨⟨decodeX1_ready, decodeX1_apart, decodeX1_wf, decodeX1_rows.1, decodeX1_rows.2, by unfold State.solvedBy; decide +kernel,
      decodeX1_installsApart⟩,
    decodeCheck_eq_none.mp (by decide +kernel), decodeOverlaps_eq_false.mp (by decide +kernel), by decide +kernel,
    by decide +kernel, by decide +kernel, by unfold State.solvedBy; decide +kernel,
    fun h => absurd (installReachesPayload_eq_false.mpr h) (by decide +kernel)⟩

/-- S1's data blocks: byte p of block j is 8j + p + 1. -/
def blockS1 (j p : Nat) : Byte := BitVec.ofNat 8 (8 * j + p + 1)

theorem x1_recovery_payloads :
    ∀ e : Fin 4, (decodeX1.desc e.val).present = true → decodeX1.k.toNat ≤ (decodeX1.desc e.val).row →
      ∀ p : Fin 8, decodeX1.mem.read ((decodeX1.desc e.val).addr + p.val) =
        xorSum decodeX1.k.toNat fun j =>
          gfMul decodeX1.store (blockS1 j p.val) (cauchyEntry decodeX1.store decodeX1.k.toNat ((decodeX1.desc e.val).row - 2) j) := by
  decide +kernel

theorem x1_no_data_present :
    ∀ e : Fin 4, (decodeX1.desc e.val).present = true → ¬ (decodeX1.desc e.val).row < decodeX1.k.toNat := by decide +kernel

theorem witness_DecodeRestoresTheData :
    decodeX1.mem.wf = true ∧ decodeX1.store = .built 3 ∧
      (∀ e, e < decodeX1.nblk.toNat → (decodeX1.desc e).present = true → (decodeX1.desc e).row < decodeX1.k.toNat →
        ∀ p, p < decodeX1.blockBytes.toNat → decodeX1.mem.read ((decodeX1.desc e).addr + p) = blockS1 (decodeX1.desc e).row p) ∧
      (∀ e, e < decodeX1.nblk.toNat → (decodeX1.desc e).present = true → decodeX1.k.toNat ≤ (decodeX1.desc e).row →
        (decodeX1.desc e).row < decodeX1.k.toNat + decodeX1.m.toNat → ∀ p, p < decodeX1.blockBytes.toNat →
          decodeX1.mem.read ((decodeX1.desc e).addr + p) =
            xorSum decodeX1.k.toNat fun j =>
              gfMul decodeX1.store (blockS1 j p)
                (cauchyEntry decodeX1.store decodeX1.k.toNat ((decodeX1.desc e).row - decodeX1.k.toNat) j)) ∧
      ∃ t, exec .decode decodeX1 = .next t ∧ t.status.err = 0 ∧ 0 ∈ decodeX1.missing :=
  ⟨decodeX1_wf, rfl, fun e he hp hr => absurd hr (x1_no_data_present ⟨e, he⟩ hp),
    fun e he hp hr _ p hq => x1_recovery_payloads ⟨e, he⟩ hp hr ⟨p, hq⟩,
    _, exists_of_isNext (by decide +kernel), by decide +kernel, by decide +kernel⟩

theorem witness_DecodeAgainChangesNothing :
    decodeX1.mem.wf = true ∧ ∃ t, exec .decode decodeX1 = .next t ∧ t.status.err = 0 :=
  ⟨decodeX1_wf, _, exists_of_isNext (by decide +kernel), by decide +kernel⟩

end Sys2Proof.Tests
end

section
/-! SUPPORT. The rules of the CSR window, of the host's and the core's steps and of reset that the statements on the machine's
state rest on: what an access reads, when a write has an effect, which steps move BUSY and INIT, and how a command ends. -/

namespace Sys2Proof.Machine

/-! ## Reads of the CSR window -/

/-- The map ends at POLY (R24). -/
theorem csrAt_eq_none_of_lt {off : Nat} (h : 0x2C < off) : csrAt off = none := by
  cases hc : csrAt off with
  | none => rfl
  | some c =>
    have hoff := csrAt_eq_some.mp hc
    cases c <;> simp only [Csr.offset] at hoff <;> omega

theorem readCsr_unmapped {off : Nat} {s : State} (h : csrAt off = none) : s.readCsr off = 0 := by
  simp only [State.readCsr, h]

/-- Where every CSR holds 0, every offset reads 0. -/
theorem readCsr_eq_zero {s : State} (h : ∀ c, s.csr c = 0) (off : Nat) : s.readCsr off = 0 := by
  cases hc : csrAt off with
  | none => exact readCsr_unmapped hc
  | some c => rw [readCsr_mapped hc, h c]

/-- CTRL holds IE at bit 0 and nothing else (R32). -/
theorem readCsr_ctrl_bit (s : State) (i : Nat) : (s.readCsr 0x08).getLsbD i = (s.ie && decide (i = 0)) := by
  rw [readCsr_mapped (c := .ctrl) rfl]
  cases hie : s.ie <;> cases i <;> simp [State.csr, flagBit, hie, BitVec.getLsbD_one]

/-- POLY has no field above bit 8 (R41). -/
theorem readCsr_poly_reserved (s : State) {i : Nat} (h : 9 ≤ i) : (s.readCsr 0x2C).getLsbD i = false := by
  rw [readCsr_mapped (c := .poly) rfl, State.csr, BitVec.getLsbD_setWidth, BitVec.getLsbD_of_ge s.poly i h, Bool.and_false]

theorem flagBit_le (b : Bool) (i : Nat) : flagBit b i ≤ 2 ^ i := by cases b <;> simp [flagBit]

/-- The flags and ERR do not overlap and fill bits 7:0 (R26). -/
theorem status_word_toNat (st : Status) : st.word.toNat < 2 ^ 8 ∧ st.word.toNat =
    flagBit st.busy 0 + flagBit st.done 1 + flagBit st.init 2 + flagBit st.wign 3 + st.err.toNat * 2 ^ 4 := by
  have := flagBit_le st.busy 0
  have := flagBit_le st.done 1
  have := flagBit_le st.init 2
  have := flagBit_le st.wign 3
  have := st.err.isLt
  rw [Status.word, BitVec.toNat_ofNat, Nat.mod_eq_of_lt (by omega)]
  exact ⟨by omega, rfl⟩

/-- DONE is bit 1 of STATUS (R26). -/
theorem readCsr_status_done (s : State) : (s.readCsr 0x04).getLsbD 1 = s.status.done := by
  obtain ⟨-, hsum⟩ := status_word_toNat s.status
  rw [readCsr_mapped (c := .status) rfl, State.csr, ← BitVec.testBit_toNat, hsum, Nat.testBit_eq_decide_div_mod_eq]
  cases s.status.busy <;> cases s.status.done <;> cases s.status.init <;> cases s.status.wign <;> simp [flagBit] <;> omega

/-- STATUS has no field above bit 7 (R26). -/
theorem readCsr_status_reserved (s : State) {i : Nat} (h : 8 ≤ i) : (s.readCsr 0x04).getLsbD i = false := by
  obtain ⟨hlt, -⟩ := status_word_toNat s.status
  rw [readCsr_mapped (c := .status) rfl, State.csr, ← BitVec.testBit_toNat]
  exact Nat.testBit_lt_two_pow (hlt.trans_le (Nat.pow_le_pow_right (by decide) h))

/-! ## Writes of the CSR window -/

theorem writeCsr_unmapped {off : Nat} (s : State) (v : Word) (h : csrAt off = none) : s.writeCsr off v = s := by
  simp only [State.writeCsr, h]

theorem writeCsr_status (s : State) (v : Word) : s.writeCsr 0x04 v = s.writeStatus v := rfl

/-- A command is accepted while idle (R232). -/
theorem writeCsr_cmd_idle {s : State} (v : Word) (hb : s.status.busy = false) : s.writeCsr 0x00 v = s.accept v :=
  writeCsr_idle (c := .cmd) v rfl nofun hb

theorem writeCsr_ctrl_idle {s : State} (v : Word) (hb : s.status.busy = false) :
    s.writeCsr 0x08 v = { s with ie := v.getLsbD 0 } := writeCsr_idle (c := .ctrl) v rfl nofun hb

/-- Only the accept of a command moves a STATUS field while the machine is idle (R42, R232). -/
theorem writeIdle_status {c : Csr} (s : State) (v : Word) (hc : c ≠ .cmd) : (s.writeIdle c v).status = s.status := by
  cases c with
  | cmd => exact absurd rfl hc
  | _ => rfl

/-- No write to the CSR window moves INIT (R29). -/
theorem writeCsr_init (s : State) (off : Nat) (v : Word) : (s.writeCsr off v).status.init = s.status.init := by
  rcases writeCsr_cases s off v with ⟨-, h⟩ | ⟨-, h⟩ | ⟨-, h⟩ | ⟨c, -, -, -, h⟩ <;> rw [h]
  · simp
  · simp
  · by_cases hc : c = .cmd
    · subst hc
      rfl
    · rw [writeIdle_status s v hc]

/-- A write raises BUSY by accepting a command and in no other way (R27). -/
theorem writeCsr_raises_busy {s : State} {off : Nat} {v : Word} (hb : s.status.busy = false)
    (ht : (s.writeCsr off v).status.busy = true) : off = 0x00 := by
  rcases writeCsr_cases s off v with ⟨-, h⟩ | ⟨-, h⟩ | ⟨hbusy, -⟩ | ⟨c, hoff, -, -, h⟩
  · simp [h, hb] at ht
  · simp [h, hb] at ht
  · simp [hb] at hbusy
  · by_cases hc : c = .cmd
    · exact csrAt_eq_some.mp (hc ▸ hoff)
    · rw [h, writeIdle_status s v hc, hb] at ht
      cases ht

/-! ## The host's step -/

theorem csrAccessAllowed_eq_true {off width : Nat} :
    csrAccessAllowed off width = true ↔ width = 4 ∧ off % 4 = 0 ∧ off ≤ 0x3C := by
  simp [csrAccessAllowed, and_assoc]

theorem step_of_host {s : State} (h : s.mover = .host) : step s = hostTurn s.takeTurn := by
  simp only [step, modelStep, h]

theorem hostTurn_wr {s : State} {off width : Nat} {v : Word} {rest : List HostAction}
    (h : s.host = .wr off width v :: rest) : hostTurn s = hostWrite off width v { s with host := rest } := by
  simp only [hostTurn, h]

theorem hostTurn_rd {s : State} {off width : Nat} {name : String} {rest : List HostAction}
    (h : s.host = .rd off width name :: rest) : hostTurn s = hostRead off width name { s with host := rest } := by
  simp only [hostTurn, h]

/-- A host step that is no CSR write changes memory and the host's own side only. -/
theorem hostTurn_csrWrite_or_csrs_kept {s t : State} (h : hostTurn s = .next t) :
    (∃ off v rest, s.host = .wr off 4 v :: rest ∧ t = State.writeCsr off v { s with host := rest }) ∨
      ∃ mem host bindings, t = { s with mem := mem, host := host, bindings := bindings } := by
  rcases hostTurn_next h with ⟨-, rfl⟩ | ⟨off, width, v, rest, hh, hw, rfl⟩ | ⟨_, _, _, _, -, -, rfl⟩ |
    ⟨_, _, _, -, -, -, rfl⟩ | ⟨_, _, _, _, -, -, -, rfl⟩ | ⟨rest, -, rfl⟩
  · exact .inr ⟨_, _, _, rfl⟩
  · obtain ⟨rfl, -, -⟩ := csrAccessAllowed_eq_true.mp hw
    exact .inl ⟨off, v, rest, hh, rfl⟩
  · exact .inr ⟨_, _, _, rfl⟩
  · exact .inr ⟨_, _, _, rfl⟩
  · exact .inr ⟨_, _, _, rfl⟩
  · unfold hostPoll
    split
    · exact .inr ⟨_, _, _, rfl⟩
    · exact .inr ⟨_, _, _, rfl⟩

/-- What a host step keeps while a command is in flight, STATUS aside: every other CSR, and BUSY (R42). -/
def State.KeepsCommand (s t : State) : Prop :=
  t.cmd = s.cmd ∧ t.ie = s.ie ∧ t.k = s.k ∧ t.m = s.m ∧ t.blockBytes = s.blockBytes ∧ t.n = s.n ∧ t.src = s.src ∧
    t.dst = s.dst ∧ t.nblk = s.nblk ∧ t.result = s.result ∧ t.poly = s.poly ∧ t.status.busy = true

theorem State.KeepsCommand.busy {s t : State} (h : s.KeepsCommand t) : t.status.busy = true := by
  obtain ⟨-, -, -, -, -, -, -, -, -, -, -, hb⟩ := h
  exact hb

theorem writeCsr_keepsCommand {s : State} (off : Nat) (v : Word) (hb : s.status.busy = true) :
    s.KeepsCommand (s.writeCsr off v) := by
  rcases writeCsr_cases s off v with ⟨-, h⟩ | ⟨-, h⟩ | ⟨-, h⟩ | ⟨c, -, -, hidle, -⟩
  · simp [h, State.KeepsCommand, hb]
  · simp [h, State.KeepsCommand, hb]
  · simp [h, State.KeepsCommand, hb]
  · simp [hb] at hidle

theorem hostTurn_keepsCommand {s t : State} (hb : s.status.busy = true) (h : hostTurn s = .next t) : s.KeepsCommand t := by
  rcases hostTurn_csrWrite_or_csrs_kept h with ⟨off, v, rest, -, rfl⟩ | ⟨_, _, _, rfl⟩
  · exact writeCsr_keepsCommand (s := { s with host := rest }) off v hb
  · exact ⟨rfl, rfl, rfl, rfl, rfl, rfl, rfl, rfl, rfl, rfl, rfl, hb⟩

theorem hostTurn_init {s t : State} (h : hostTurn s = .next t) : t.status.init = s.status.init := by
  rcases hostTurn_csrWrite_or_csrs_kept h with ⟨off, v, rest, -, rfl⟩ | ⟨_, _, _, rfl⟩
  · exact writeCsr_init { s with host := rest } off v
  · rfl

/-- The host raises BUSY by a write to CMD that is accepted (R27, R232). -/
theorem hostTurn_raises_busy {s t : State} (h : hostTurn s = .next t) (hb : s.status.busy = false)
    (ht : t.status.busy = true) : ∃ w rest, s.host = .wr 0x00 4 w :: rest ∧ t = State.accept w { s with host := rest } := by
  rcases hostTurn_csrWrite_or_csrs_kept h with ⟨off, v, rest, hh, rfl⟩ | ⟨_, _, _, rfl⟩
  · obtain rfl := writeCsr_raises_busy (s := { s with host := rest }) hb ht
    exact ⟨v, rest, hh, writeCsr_cmd_idle v hb⟩
  · exact nomatch hb.symm.trans ht

/-! ## The core's step -/

theorem coreTurn_idle {s : State} (hb : s.status.busy = false) : coreTurn s = .next s := by
  simp [coreTurn, hb]

/-- However a command ends, it is idle, DONE and has kept CTRL (R233). -/
theorem exec_completes {i : Instr} {s t : State} (h : exec i s = .next t) :
    t.status.busy = false ∧ t.status.done = true ∧ t.ie = s.ie := by
  rcases exec_next h with ⟨_, -, rfl⟩ | ⟨-, -, _, _, _, -, -, rfl⟩
  · exact ⟨rfl, rfl, rfl⟩
  · exact ⟨rfl, rfl, rfl⟩

/-- The core's step of a busy machine is a complete, of an illegal word too (R96, R233). -/
theorem coreTurn_completes {s t : State} (hb : s.status.busy = true) (h : coreTurn s = .next t) :
    t.status.busy = false ∧ t.status.done = true ∧ t.ie = s.ie := by
  rcases coreTurn_next h with ⟨hidle, -⟩ | ⟨-, -, rfl⟩ | ⟨-, i, -, he⟩
  · simp [hb] at hidle
  · exact ⟨rfl, rfl, rfl⟩
  · exact exec_completes he

/-- The command word in CMD is a form of INIT. -/
def State.InitInCmd (s : State) : Prop := decode s.cmd = .ok .init ∨ ∃ p, decode s.cmd = .ok (.initP p)

/-- INIT after a core step: as before, or set by a completing INIT (R29). -/
theorem coreTurn_init {s t : State} (h : coreTurn s = .next t) :
    t.status.init = s.status.init ∨ (t.status.init = true ∧ s.status.busy = true ∧ s.InitInCmd) := by
  rcases coreTurn_next h with ⟨-, rfl⟩ | ⟨-, -, rfl⟩ | ⟨hb, i, hd, he⟩
  · exact .inl rfl
  · exact .inl rfl
  · rcases exec_next he with ⟨_, hi, rfl⟩ | ⟨-, -, _, _, _, -, -, rfl⟩
    · refine .inr ⟨rfl, hb, ?_⟩
      rcases hi with rfl | ⟨p, rfl⟩
      · exact .inl hd
      · exact .inr ⟨p, hd⟩
    · exact .inl rfl

/-! ## Checks while the tables are not built -/

theorem uninitialized_eq_true {s : State} (h : s.status.init = false) : s.uninitialized = true := by
  simp [State.uninitialized, h]

theorem checked_uninitialized {c : Option ErrorKind} (s : State) (body : Host.Outcome State Fault Refusal)
    (h : c = some .uninitializedContext) : checked c s body = .next (s.ended 0 3) := by
  subst h
  rfl

theorem tableCheck_uninitialized {s : State} (h : s.status.init = false) : tableCheck s = some .uninitializedContext := by
  simp [tableCheck, firstError, uninitialized_eq_true h]

theorem expCheck_uninitialized {idx : Nat} {s : State} (h : s.status.init = false) (hidx : idx ≤ 1020) :
    expCheck idx s = some .uninitializedContext := by
  simp [expCheck, firstError, uninitialized_eq_true h, hidx]

theorem cauchyCheck_uninitialized {s : State} (h : s.status.init = false) (hc : s.goodBlockCounts) (hd : s.dst ≠ 0) :
    cauchyCheck s = some .uninitializedContext := by
  simp [cauchyCheck, firstError, uninitialized_eq_true h, badBlockCounts_eq_false.mpr hc, isNull_eq_false.mpr hd]

theorem encodeCheck_uninitialized {s : State} (h : s.status.init = false) (hc : s.goodBlockCounts) (hb : s.goodBlockBytes)
    (hs : s.src ≠ 0) (hd : s.dst ≠ 0) : encodeCheck s = some .uninitializedContext := by
  simp [encodeCheck, firstError, uninitialized_eq_true h, badBlockCounts_eq_false.mpr hc, badBlockBytes_eq_false.mpr hb,
    isNull_eq_false.mpr hs, isNull_eq_false.mpr hd]

theorem invertCheck_uninitialized {s : State} (h : s.status.init = false) (h1 : 1 ≤ s.n.toNat) (h256 : s.n.toNat ≤ 256)
    (hs : s.src ≠ 0) (hd : s.dst ≠ 0) : invertCheck s = some .uninitializedContext := by
  have hn : (decide (s.n.toNat < 1) || decide (256 < s.n.toNat)) = false := by
    simp only [Bool.or_eq_false_iff, decide_eq_false_iff_not]
    omega
  simp only [invertCheck, firstError, hn, uninitialized_eq_true h, isNull_eq_false.mpr hs, isNull_eq_false.mpr hd]
  rfl

theorem decodeCheck_uninitialized {s : State} (h : s.status.init = false) (hc : s.goodBlockCounts) (hb : s.goodBlockBytes)
    (hs : s.src ≠ 0) : decodeCheck s = some .uninitializedContext := by
  simp [decodeCheck, decodeParamCheck, orElseCheck, firstError, uninitialized_eq_true h, badBlockCounts_eq_false.mpr hc,
    badBlockBytes_eq_false.mpr hb, isNull_eq_false.mpr hs]

/-! ## Reset -/

theorem csr_resetRegisters (s : State) (c : Csr) : s.resetRegisters.csr c = 0 := by cases c <;> rfl

/-- What the registers' reset leaves of any state: each CSR reads 0, STATUS and IRQ are 0, the tables are unspecified (R46). -/
theorem resetRegisters_reads (s : State) : (∀ off, s.resetRegisters.readCsr off = 0) ∧ s.resetRegisters.irq = false ∧
    s.resetRegisters.status = ⟨false, false, false, false, 0⟩ ∧ ∃ e, s.resetRegisters.store = .unspecified e :=
  ⟨readCsr_eq_zero (csr_resetRegisters s), rfl, rfl, _, rfl⟩

/-- The reset state is a fixed point of the registers' reset, the counter of free values aside. -/
theorem reset_eq_resetRegisters : State.reset = { State.reset with free := 0 }.resetRegisters := rfl

/-- An idle machine has no write set, so its reset changes no byte (R261). -/
theorem resetTurn_mem_idle {s : State} (hb : s.status.busy = false) : (resetTurn s).mem = s.mem := by
  have hws : s.writeSetInFlight = [] := by simp [State.writeSetInFlight, hb]
  simp [resetTurn, hws, freeCells, Memory.writeAll]

end Sys2Proof.Machine
end

section
/-! CLAIMS. The statements on the machine's state: CSR access, STATUS, BUSY, IRQ and reset (10_state.md). -/

namespace Sys2Proof.Proofs

open Sys2Proof.Machine

/-- Settles O8: a mapped CSR but STATUS ignores the write, and each host step keeps the command and its parameters. -/
theorem busyWritesAreIgnored : Obligations.BusyWritesAreIgnored := by
  intro s hb
  refine ⟨fun off hoff v => ?_, writeCsr_status s, fun t h => hostTurn_keepsCommand hb h⟩
  obtain ⟨c, hat, hc⟩ : ∃ c, csrAt off = some c ∧ c ≠ .status := by
    revert off
    decide
  exact writeCsr_busy v hat hc hb

/-- Settles O22: a completing INIT is the one step that sets INIT, a reset the one that clears it. -/
theorem initBit : Obligations.InitBit := by
  refine ⟨fun s t p h => ?_, fun s t h hr hi => ?_, fun s t h hi ht => ?_, fun s hi => ?_⟩
  · rcases h with h | h
    · rw [finish_eq_next.mp h]
      rfl
    · rw [finish_eq_next.mp h]
      rfl
  · rcases step_next h with ⟨-, hh⟩ | ⟨-, hc⟩ | ⟨hreset, -⟩
    · exact (hostTurn_init hh).trans hi
    · rcases coreTurn_init hc with hk | ⟨hset, -⟩
      · exact hk.trans hi
      · exact hset
    · exact absurd hreset hr
  · rcases step_next h with ⟨-, hh⟩ | ⟨hm, hc⟩ | ⟨-, rfl⟩
    · exact nomatch ht.symm.trans ((hostTurn_init hh).trans hi)
    · rcases coreTurn_init hc with hk | ⟨-, hbusy, hinit⟩
      · exact nomatch ht.symm.trans (hk.trans hi)
      · exact ⟨hm, hbusy, hinit⟩
    · cases ht
  · have table := tableCheck_uninitialized hi
    exact ⟨fun x y => ⟨checked_uninitialized s _ table, checked_uninitialized s _ table, checked_uninitialized s _ table,
        checked_uninitialized s _ table⟩,
      fun idx hidx => checked_uninitialized s _ (expCheck_uninitialized hi hidx),
      fun hc hd => checked_uninitialized s _ (cauchyCheck_uninitialized hi hc hd),
      fun hc hb hs hd => checked_uninitialized s _ (encodeCheck_uninitialized hi hc hb hs hd),
      fun h1 h256 hs hd => checked_uninitialized s _ (invertCheck_uninitialized hi h1 h256 hs hd),
      fun hc hb hs => checked_uninitialized s _ (decodeCheck_uninitialized hi hc hb hs)⟩

/-- Settles O23: of the three movers only the host raises BUSY, by an accept, and the host does not clear it. -/
theorem busyFromAcceptToComplete : Obligations.BusyFromAcceptToComplete := by
  refine ⟨fun s w hb => ?_, fun s hb => coreTurn_idle hb, fun s t h => ?_⟩
  · rw [writeCsr_cmd_idle w hb]
    rfl
  · rcases step_next h with ⟨hm, hh⟩ | ⟨hm, hc⟩ | ⟨hm, rfl⟩
    · refine ⟨fun hb ht => ⟨hm, ?_⟩, fun hb ht => ?_, fun _ hcore => ?_⟩
      · obtain ⟨w, rest, hw, rfl⟩ := hostTurn_raises_busy hh hb ht
        exact ⟨w, rest, hw, rfl, rfl, rfl⟩
      · have kept := hostTurn_keepsCommand (s := s.takeTurn) hb hh
        exact nomatch ht.symm.trans kept.busy
      · exact nomatch hm.symm.trans hcore
    · refine ⟨fun hb ht => ?_, fun _ _ => .inl hm, fun hb _ => ?_⟩
      · obtain rfl := Host.Outcome.next.inj ((coreTurn_idle (s := s.takeTurn) hb).symm.trans hc)
        exact nomatch hb.symm.trans ht
      · obtain ⟨hbusy, hdone, -⟩ := coreTurn_completes (s := s.takeTurn) hb hc
        exact ⟨hbusy, hdone⟩
    · exact ⟨fun _ ht => (nomatch ht), fun _ _ => .inr hm, fun _ hcore => nomatch hm.symm.trans hcore⟩

/-- Settles O11: the map ends at POLY, and of STATUS, CTRL and POLY only the named fields exist. -/
theorem unmappedAndReservedReadZero : Obligations.UnmappedAndReservedReadZero := by
  intro s
  refine ⟨fun off hoff => ?_, fun i hi => ?_, fun i => readCsr_status_reserved s, fun i => readCsr_poly_reserved s,
    fun v hb => ⟨writeCsr_ctrl_idle v hb, writeCsr_idle (c := .result) v rfl nofun hb,
      writeCsr_idle (c := .poly) v rfl nofun hb⟩, fun v v' h1 h3 => ?_⟩
  · have hnone : csrAt off = none := csrAt_eq_none_of_lt (by revert off; decide)
    exact ⟨readCsr_unmapped hnone, fun v => writeCsr_unmapped s v hnone⟩
  · rw [readCsr_ctrl_bit, decide_eq_false (by omega), Bool.and_false]
  · simp only [writeCsr_status, State.writeStatus, Status.hostWrite, h1, h3]

/-- Settles O12: IE and DONE are where the host reads them, and each event sets one of the two. -/
theorem irqIsEnabledDone : Obligations.IrqIsEnabledDone := by
  refine ⟨fun s => ?_, fun s t hb h => ?_, fun s w hb => ?_, fun s v hv => ?_, fun s v hb => ?_⟩
  · rw [readCsr_ctrl_bit, readCsr_status_done, decide_eq_true rfl, Bool.and_true, State.irq]
  · obtain ⟨-, hdone, hie⟩ := coreTurn_completes hb h
    rw [State.irq, hdone, hie, Bool.and_true]
  · rw [writeCsr_cmd_idle w hb, State.irq, accept_status, status_accept_done, Bool.and_false]
  · simp [writeCsr_status, State.irq, hv]
  · rw [writeCsr_ctrl_idle v hb, State.irq]

/-- Settles O13: the host's step asks `csrAccessAllowed` before it reads or writes. -/
theorem csrProtocol : Obligations.CsrProtocol := by
  intro s off width v name rest hm
  rw [← csrAccessAllowed_eq_true, step_of_host hm]
  refine ⟨fun hno => ⟨fun hh => ?_, fun hh => ?_⟩, fun hok => ⟨fun hh => ?_, fun hh => ?_⟩⟩
  · rw [hostTurn_wr (s := s.takeTurn) hh, hostWrite, if_neg hno]
  · rw [hostTurn_rd (s := s.takeTurn) hh, hostRead, if_neg hno]
  · rw [hostTurn_wr (s := s.takeTurn) hh, hostWrite, if_pos hok]
    rfl
  · rw [hostTurn_rd (s := s.takeTurn) hh, hostRead, if_pos hok]
    rfl

/-- Settles O15: the reset state and a reset in any state are both the registers' reset. -/
theorem resetValues : Obligations.ResetValues := by
  obtain ⟨hreads, hirq, hstatus, hstore⟩ := resetRegisters_reads { State.reset with free := 0 }
  rw [← reset_eq_resetRegisters] at hreads hirq hstatus hstore
  refine ⟨hreads, hirq, hstatus, hstore, fun s => ?_⟩
  obtain ⟨hreads, hirq, hstatus, hstore⟩ := resetRegisters_reads (s.writeAll (freeCells s.free s.writeSetInFlight))
  exact ⟨hreads, hirq, hstatus, hstore, resetTurn_mem_idle⟩

end Sys2Proof.Proofs
end

section
/-! SUPPORT. How the block commands answer to overlapping buffers (R76): ENCODE and DECODE, once their checks have passed, are
refused; CAUCHY and INVERT never are. -/

namespace Sys2Proof.Machine

theorem encodeOverlaps_eq_true {s : State} : s.encodeOverlaps = true ↔ ¬ s.encodeApart := by
  rw [← encodeOverlaps_eq_false, Bool.not_eq_false]

theorem decodeOverlaps_eq_true {s : State} : s.decodeOverlaps = true ↔ ¬ s.decodeApart := by
  rw [← decodeOverlaps_eq_false, Bool.not_eq_false]

theorem execEncode_overlapping {s : State} (hr : s.encodeReady) (ho : ¬ s.encodeApart) :
    execEncode s = .refused .overlappingBuffers := by
  rw [execEncode, encodeCheck_eq_none.mpr hr, checked_none, if_pos (encodeOverlaps_eq_true.mpr ho)]

theorem execDecode_overlapping {s : State} (hr : s.decodeReady) (ho : ¬ s.decodeApart) :
    execDecode s = .refused .overlappingBuffers := by
  rw [execDecode, decodeCheck_eq_none.mpr hr, checked_none, if_pos (decodeOverlaps_eq_true.mpr ho)]

/-- A failed check is an end too, so a command completes where its body does. -/
theorem checked_completes {c : Option ErrorKind} {s : State} {body : Host.Outcome State Fault Refusal}
    (h : ∃ t, body = .next t) : ∃ t, checked c s body = .next t := by
  cases c with
  | none => exact h
  | some e => exact ⟨s.raise e 0, rfl⟩

theorem execCauchy_completes (s : State) : ∃ t, execCauchy s = .next t := checked_completes ⟨_, rfl⟩

theorem invertBody_completes (s : State) : ∃ t, invertBody s = .next t := by
  rw [invertBody]
  cases gfInvert s.store s.n.toNat s.invertMatrix with
  | none => exact ⟨_, rfl⟩
  | some b => exact ⟨_, rfl⟩

theorem execInvert_completes (s : State) : ∃ t, execInvert s = .next t := checked_completes (invertBody_completes s)

end Sys2Proof.Machine
end

section
/-! CLAIMS. The statement on overlapping buffers (20_memory.md). -/

namespace Sys2Proof.Proofs

open Sys2Proof.Machine

/-- Settles O46: only ENCODE and DECODE ask whether their buffers overlap, and both ask after all their checks. -/
theorem overlapIsRefused : Obligations.OverlapIsRefused :=
  ⟨fun _ => execEncode_overlapping, fun _ => execDecode_overlapping,
    fun s => ⟨execCauchy_completes s, execInvert_completes s⟩⟩

end Sys2Proof.Proofs
end

section
/-! SUPPORT. The legal command words field by field (R92, R96): they are the words the decoder accepts and the words of the rows
of spec/opcode_table.json. What the core does with any other word, and how EXP answers an index past its table. -/

namespace Sys2Proof.Machine

/-- The opcodes of R92 that are not reserved. -/
def assignedOpcodes : List Nat := [0x01, 0x10, 0x11, 0x12, 0x13, 0x14, 0x15, 0x20, 0x30, 0x40, 0x50]

/-- The table of R92, opcode by opcode: OPC is not reserved, and the fields that must then be 0 are. -/
def LegalFields (w : Word) : Prop :=
  bits w 31 29 = 0 ∧
    ((bits w 7 0 = 0x01 ∧ bits w 23 8 = 0 ∧ (bits w 28 28 = 0 → bits w 27 24 = 0)) ∨
      (bits w 7 0 = 0x10 ∧ bits w 28 24 = 0) ∨ (bits w 7 0 = 0x11 ∧ bits w 28 24 = 0) ∨
      (bits w 7 0 = 0x12 ∧ bits w 28 24 = 0) ∨ (bits w 7 0 = 0x13 ∧ bits w 28 16 = 0) ∨
      (bits w 7 0 = 0x14 ∧ bits w 28 24 = 0) ∨ (bits w 7 0 = 0x15 ∧ bits w 28 16 = 0) ∨
      (bits w 7 0 = 0x20 ∧ bits w 28 8 = 0) ∨ (bits w 7 0 = 0x30 ∧ bits w 28 8 = 0) ∨
      (bits w 7 0 = 0x40 ∧ bits w 28 8 = 0) ∨ (bits w 7 0 = 0x50 ∧ bits w 28 8 = 0))

/-! ## The decoder -/

/-- A field check, then the rest of the decoder. -/
theorem exists_ok_ite_error {p : Prop} [Decidable p] {e : IllegalWord} {r : Except IllegalWord Instr} :
    (∃ i, (if p then .error e else r) = .ok i) ↔ ¬ p ∧ ∃ i, r = .ok i := by
  by_cases hp : p
  · simp [hp]
  · simp [hp]

/-- The last field check of a form. -/
theorem exists_ok_field {p : Prop} [Decidable p] {e : IllegalWord} {i : Instr} :
    (∃ j, (if ¬ p then .error e else .ok i) = Except.ok j) ↔ p := by
  rw [exists_ok_ite_error, not_not]
  exact and_iff_left ⟨i, rfl⟩

theorem decodeInit_legal (w : Word) :
    (∃ i, decodeInit w = .ok i) ↔ bits w 23 8 = 0 ∧ (bits w 28 28 = 0 → bits w 27 24 = 0) := by
  rw [decodeInit, exists_ok_ite_error, not_not]
  refine and_congr_right fun _ => ?_
  by_cases hsel : bits w 28 28 = 0
  · rw [if_pos hsel, exists_ok_field]
    simp [hsel]
  · simp [hsel]

theorem decodeXY_legal (w : Word) (mk : Byte → Byte → Instr) : (∃ i, decodeXY w mk = .ok i) ↔ bits w 28 24 = 0 :=
  exists_ok_field

theorem decodeX_legal (w : Word) (mk : Byte → Instr) : (∃ i, decodeX w mk = .ok i) ↔ bits w 28 16 = 0 := exists_ok_field

theorem decodeIdx_legal (w : Word) : (∃ i, decodeIdx w = .ok i) ↔ bits w 28 24 = 0 := exists_ok_field

theorem decodeBlock_legal (w : Word) (c : Instr) : (∃ i, decodeBlock w c = .ok i) ↔ bits w 28 8 = 0 := exists_ok_field

theorem decode_reservedBits {w : Word} (h : bits w 31 29 ≠ 0) : decode w = .error .reservedBits := by
  rw [decode, if_pos h]

theorem decode_reservedOpcode {w : Word} (h : bits w 31 29 = 0) (hopc : bits w 7 0 ∉ assignedOpcodes) :
    decode w = .error .reservedOpcode := by
  simp only [assignedOpcodes, List.mem_cons, List.not_mem_nil, or_false, not_or] at hopc
  simp only [decode, h, hopc, ne_eq, not_true_eq_false, if_false]

/-- The decoder accepts exactly the words of R92, opcode by opcode. -/
theorem decode_ok_iff (w : Word) : (∃ i, decode w = .ok i) ↔ LegalFields w := by
  by_cases hres : bits w 31 29 = 0
  · by_cases hopc : bits w 7 0 ∈ assignedOpcodes
    · simp only [assignedOpcodes, List.mem_cons, List.not_mem_nil, or_false] at hopc
      rcases hopc with h | h | h | h | h | h | h | h | h | h | h
      all_goals
        simp [decode, LegalFields, hres, h, decodeInit_legal, decodeXY_legal, decodeX_legal, decodeIdx_legal,
          decodeBlock_legal]
    · rw [decode_reservedOpcode hres hopc]
      simp only [assignedOpcodes, List.mem_cons, List.not_mem_nil, or_false, not_or] at hopc
      simp [LegalFields, hopc]
  · simp [decode_reservedBits hres, LegalFields, hres]

/-- An illegal word is one that does not decode to a command: the decoder is total (R96). -/
theorem decode_error_iff (w : Word) : (∃ e, decode w = .error e) ↔ ¬ ∃ i, decode w = .ok i := by
  cases decode w with
  | error e => simp
  | ok i => simp

/-! ## The rows of the opcode table -/

/-- A mask that leaves only the bits from `lo` up to `hi` free keeps the bits below and above them. -/
theorem and_maskOutside {x n lo hi : Nat} (hx : x < 2 ^ n) (hlo : lo ≤ hi) :
    x &&& (2 ^ hi * (2 ^ (n - hi) - 1) + (2 ^ lo - 1)) = 2 ^ hi * (x / 2 ^ hi) + x % 2 ^ lo := by
  have hpow : 2 ^ lo ≤ 2 ^ hi := Nat.pow_le_pow_right (by decide) hlo
  have hmask : 2 ^ lo - 1 < 2 ^ hi := (Nat.sub_lt (Nat.two_pow_pos lo) (by decide)).trans_le hpow
  have hlow : x % 2 ^ lo < 2 ^ hi := (Nat.mod_lt _ (Nat.two_pow_pos lo)).trans_le hpow
  refine Nat.eq_of_testBit_eq fun i => ?_
  rw [Nat.testBit_and, Nat.testBit_two_pow_mul_add _ hmask, Nat.testBit_two_pow_mul_add _ hlow, Nat.testBit_div_two_pow]
  split
  · rw [Nat.testBit_two_pow_sub_one, Nat.testBit_mod_two_pow, Bool.and_comm]
  · rw [Nat.testBit_two_pow_sub_one, Nat.sub_add_cancel (Nat.le_of_not_lt ‹_›)]
    by_cases hin : i < n
    · rw [decide_eq_true (by omega), Bool.and_true]
    · rw [Nat.testBit_lt_two_pow (hx.trans_le (Nat.pow_le_pow_right (by decide) (Nat.le_of_not_lt hin))), Bool.false_and]

/-- A row whose mask leaves bits free asks for the bits around them only (R92). -/
theorem row_holds_iff {mask v w : Word} {lo hi : Nat} (hlo : lo ≤ hi)
    (hmask : mask.toNat = 2 ^ hi * (2 ^ (32 - hi) - 1) + (2 ^ lo - 1)) :
    TableRow.holds ⟨mask, v⟩ w = true ↔ 2 ^ hi * (w.toNat / 2 ^ hi) + w.toNat % 2 ^ lo = v.toNat := by
  rw [TableRow.holds, beq_iff_eq, ← BitVec.toNat_inj, BitVec.toNat_and, hmask, and_maskOutside w.isLt hlo]

/-- Every row but that of the explicit INIT leaves the operand field `[top - 1 : 8]` free, which is X and Y, X, or nothing (R94, R95). -/
theorem operandRow_holds {mask v w : Word} (top : Nat) (htop : top = 8 ∨ top = 16 ∨ top = 24)
    (hmask : mask.toNat = 2 ^ top * (2 ^ (32 - top) - 1) + (2 ^ 8 - 1)) (hv : v.toNat < 2 ^ 8) :
    TableRow.holds ⟨mask, v⟩ w = true ↔ bits w 31 29 = 0 ∧ bits w 7 0 = v.toNat ∧ bits w 28 top = 0 := by
  have hw := w.isLt
  rw [row_holds_iff (by omega) hmask]
  simp only [bits]
  rcases htop with rfl | rfl | rfl
  · omega
  · omega
  · omega

theorem blockRow_holds (w v : Word) (hv : v.toNat < 2 ^ 8) :
    TableRow.holds ⟨0xFFFFFFFF, v⟩ w = true ↔ bits w 31 29 = 0 ∧ bits w 7 0 = v.toNat ∧ bits w 28 8 = 0 :=
  operandRow_holds 8 (by decide) (by decide) hv

theorem xRow_holds (w v : Word) (hv : v.toNat < 2 ^ 8) :
    TableRow.holds ⟨0xFFFF00FF, v⟩ w = true ↔ bits w 31 29 = 0 ∧ bits w 7 0 = v.toNat ∧ bits w 28 16 = 0 :=
  operandRow_holds 16 (by decide) (by decide) hv

theorem xyRow_holds (w v : Word) (hv : v.toNat < 2 ^ 8) :
    TableRow.holds ⟨0xFF0000FF, v⟩ w = true ↔ bits w 31 29 = 0 ∧ bits w 7 0 = v.toNat ∧ bits w 28 24 = 0 :=
  operandRow_holds 24 (by decide) (by decide) hv

/-- INIT has two rows: the default form, and the explicit form, which leaves PIDX free (R93). -/
theorem initRows_hold (w : Word) :
    TableRow.holds ⟨0xFFFFFFFF, 0x00000001⟩ w = true ∨ TableRow.holds ⟨0xF0FFFFFF, 0x10000001⟩ w = true ↔
      bits w 31 29 = 0 ∧ bits w 7 0 = 0x01 ∧ bits w 23 8 = 0 ∧ (bits w 28 28 = 0 → bits w 27 24 = 0) := by
  have hw := w.isLt
  rw [blockRow_holds w 0x01 (by decide), row_holds_iff (lo := 24) (hi := 28) (by decide) (by decide),
    show (0x00000001 : Word).toNat = 0x00000001 from rfl, show (0x10000001 : Word).toNat = 0x10000001 from rfl,
    imp_iff_not_or]
  simp only [bits]
  omega

/-- The words of the table's rows are exactly the words of R92. -/
theorem exists_row_iff (w : Word) : (∃ row ∈ opcodeTable, row.holds w = true) ↔ LegalFields w := by
  simp only [opcodeTable, List.cons_append, List.nil_append, List.exists_mem_cons_iff, List.not_mem_nil, false_and,
    exists_false, or_false]
  rw [← or_assoc, initRows_hold, xyRow_holds w 0x10 (by decide), xyRow_holds w 0x11 (by decide),
    xyRow_holds w 0x12 (by decide), xRow_holds w 0x13 (by decide), xyRow_holds w 0x14 (by decide),
    xRow_holds w 0x15 (by decide), blockRow_holds w 0x20 (by decide), blockRow_holds w 0x30 (by decide),
    blockRow_holds w 0x40 (by decide), blockRow_holds w 0x50 (by decide)]
  simp only [← and_or_left]
  rfl

/-! ## What a word that is no table row does, and EXP past its table -/

/-- The core ends an illegal word with IllegalCommand (R96). -/
theorem coreTurn_illegal {s : State} {e : IllegalWord} (hb : s.status.busy = true) (h : decode s.cmd = .error e) :
    coreTurn s = .next (s.ended 0 8) := by
  rw [coreTurn, if_pos hb, h]
  rfl

/-- The index is checked before INIT is, so the state does not matter (R124). -/
theorem exec_exp_pastEnd {idx : Nat} (h : 1020 < idx) (s : State) : exec (.exp idx) s = .next (s.ended 0 1) := by
  have hcheck : expCheck idx s = some .invalidParameters := by simp [expCheck, firstError, h]
  rw [exec, execExp, hcheck]
  rfl

end Sys2Proof.Machine
end

section
/-! CLAIMS. The statements on illegal words and on the worked encodings (30_encoding.md). -/

namespace Sys2Proof.Proofs

open Sys2Proof.Machine

/-- Settles O5: the decoder and the table's rows have the same legal words, those of R92, and the core ends any other with
code 8. -/
theorem illegalWordCompletes : Obligations.IllegalWordCompletes := by
  refine fun w => ⟨?_, fun s ⟨e, he⟩ hb => ⟨writeCsr_cmd_idle w hb, coreTurn_illegal rfl he⟩⟩
  rw [decode_error_iff, decode_ok_iff, ← exists_row_iff]
  simp only [not_exists, not_and, Bool.not_eq_true]

/-- Settles O4: the words are closed terms; EXP 1021 is one past the end of the table in every state. -/
theorem workedEncodings : Obligations.WorkedEncodings :=
  ⟨by decide, by decide, by decide, exec_exp_pastEnd (by decide)⟩

end Sys2Proof.Proofs
end

section
/-! SUPPORT. The GF(256) tables after INIT entry by entry (R117 to R119), the laws of the quotient and the inverse beside those of
Laws/Field.lean (R126), and what a scalar command answers in every state (R113, R120 to R125). -/

namespace Sys2Proof.Machine

/-! ## The entries of EXP and LOG -/

theorem expEntry_mod (idx : Fin 16) {j : Nat} (h : j ≤ 510) : expEntry idx j = expEntry idx (j % 255) := by
  rw [expEntry_eq h, expEntry_eq (by omega), gpow_mod]

theorem expEntry_multiple (idx : Fin 16) {j : Nat} (h : j ≤ 510) (hj : j % 255 = 0) : expEntry idx j = 1 := by
  rw [expEntry_mod idx h, hj]
  rfl

/-- The tail of the table is zero (R117). -/
theorem expEntry_tail (idx : Fin 16) {j : Nat} (h : 511 ≤ j) : expEntry idx j = 0 := by
  rw [expEntry, if_neg (by omega), if_neg (by omega), if_neg (by omega), if_neg (by omega)]

theorem logEntry_expEntry (idx : Fin 16) {j : Nat} (h1 : 1 ≤ j) (h2 : j ≤ 255) : (logEntry idx (expEntry idx j)).toNat = j := by
  rw [expEntry_eq (by omega), logEntry_gpow idx h1 h2]

theorem logEntry_bounds (idx : Fin 16) {x : Byte} (hx : x ≠ 0) : 1 ≤ (logEntry idx x).toNat ∧ (logEntry idx x).toNat ≤ 255 := by
  obtain ⟨j, h1, h2, -, hlog⟩ := exists_log idx hx
  rw [hlog]
  exact ⟨h1, h2⟩

/-- The sentinel of LOG[0] is the largest entry (R118). -/
theorem logEntry_le (idx : Fin 16) (x : Byte) : (logEntry idx x).toNat ≤ 512 := by
  by_cases hx : x = 0
  · subst hx
    exact le_rfl
  · exact (logEntry_bounds idx hx).2.trans (by decide)

theorem logEntry_ne_zero (idx : Fin 16) (x : Byte) : logEntry idx x ≠ 0 := by
  by_cases hx : x = 0
  · subst hx
    exact (by decide : (512 : BitVec 10) ≠ 0)
  · intro h
    have := (logEntry_bounds idx hx).1
    rw [h] at this
    exact absurd this (by decide)

/-- The generator is 2. -/
theorem gpow_one (idx : Fin 16) : gpow idx 1 = 2 := by revert idx; decide

theorem logEntry_two (idx : Fin 16) : logEntry idx 2 = 1 := by
  rw [← gpow_one idx]
  exact BitVec.eq_of_toNat_eq (logEntry_gpow idx (by decide) (by decide))

/-! ## The entries of MULT and DIVT -/

theorem multEntry_eq_expEntry (idx : Fin 16) {x y : Byte} (hx : x ≠ 0) (hy : y ≠ 0) :
    multEntry idx y x = expEntry idx (((logEntry idx x).toNat + (logEntry idx y).toNat) % 255) := by
  rw [multEntry, if_neg hy, if_neg hx]

/-- R115 subtracts LOG[y] from 255 first and R119 from the sum; they agree as no LOG entry of a non-zero byte is above 255. -/
theorem divtEntry_eq_expEntry (idx : Fin 16) {x y : Byte} (hx : x ≠ 0) (hy : y ≠ 0) :
    divtEntry idx y x = expEntry idx (((logEntry idx x).toNat + 255 - (logEntry idx y).toNat) % 255) := by
  rw [divtEntry, if_neg hy, if_neg hx, Nat.add_sub_assoc (logEntry_bounds idx hy).2 (logEntry idx x).toNat]

/-! ## The quotient, the inverse and the field product -/

theorem gdiv_zero (idx : Fin 16) (x : Byte) : gfDiv (.built idx) x 0 = 0 := rfl

theorem gzero_div (idx : Fin 16) (y : Byte) : gfDiv (.built idx) 0 y = 0 := by
  show divtEntry idx y 0 = 0
  unfold divtEntry
  split <;> simp

theorem gone_mul (idx : Fin 16) (x : Byte) : gfMul (.built idx) 1 x = x := by rw [gmul_comm, gmul_one]

theorem gdiv_one (idx : Fin 16) (x : Byte) : gfDiv (.built idx) x 1 = x := by
  simpa only [gmul_one] using gmul_div idx x 1 (by decide)

theorem gdiv_self (idx : Fin 16) {x : Byte} (hx : x ≠ 0) : gfDiv (.built idx) x x = 1 := by
  simpa only [gone_mul] using gmul_div idx 1 x hx

theorem ginv_zero (idx : Fin 16) : gfInv (.built idx) 0 = 0 := gdiv_zero idx 1

theorem ginv_one (idx : Fin 16) : gfInv (.built idx) 1 = 1 := gdiv_one idx 1

/-- Both `x` and the double inverse are inverse to the inverse of `x`. -/
theorem ginv_ginv (idx : Fin 16) {x : Byte} (hx : x ≠ 0) : gfInv (.built idx) (gfInv (.built idx) x) = x := by
  have hne : gfInv (.built idx) x ≠ 0 := ginv_ne hx
  refine gmul_cancel (idx := idx) hne ?_
  rw [gmul_comm, ginv idx _ hne, ginv idx x hx]

/-- The product read from MULT is the product by shift and XOR: on powers of the generator both add the exponents. -/
theorem gmul_eq_fieldProduct (idx : Fin 16) (x y : Byte) : gfMul (.built idx) x y = fieldProduct idx x y := by
  by_cases hx : x = 0
  · subst hx
    rw [gzero_mul, fieldProduct_zero_left]
  by_cases hy : y = 0
  · subst hy
    rw [gmul_zero, fieldProduct_zero_right]
  obtain ⟨a, -, rfl⟩ := gpow_surj idx x hx
  obtain ⟨b, -, rfl⟩ := gpow_surj idx y hy
  rw [fieldProduct_gpow]
  exact multEntry_gpow idx a b

theorem gfAdd_self (x : Byte) : gfAdd x x = 0 := BitVec.xor_self

theorem gfAdd_zero (x : Byte) : gfAdd x 0 = x := BitVec.xor_zero

/-! ## The command words of the scalar commands -/

/-- OPC lies below the operand field, so the word's sum is the concatenation of R94. -/
theorem commandWord_operands (ops : Nat) {opc : Nat} (h : opc < 2 ^ 8) :
    commandWord 0 ops opc = BitVec.ofNat 32 (ops <<< 8 ||| opc) := by
  rw [commandWord, Nat.zero_mul, Nat.zero_add, ← Nat.shiftLeft_eq, Nat.shiftLeft_add_eq_or_of_lt h]

theorem commandWord_pairXY (x y : Byte) {opc : Nat} (h : opc < 2 ^ 8) :
    commandWord 0 (pairXY x y) opc = BitVec.ofNat 32 (y.toNat <<< 16 ||| x.toNat <<< 8 ||| opc) := by
  rw [commandWord_operands _ h, pairXY, ← Nat.shiftLeft_eq, Nat.shiftLeft_add_eq_or_of_lt x.isLt, Nat.shiftLeft_or_distrib,
    ← Nat.shiftLeft_add]

/-! ## What the scalar commands answer -/

theorem polyIndexOf_eq {p : Nat} (h : p < 16) : polyIndexOf p = ⟨p, h⟩ := Fin.ext (Nat.mod_eq_of_lt h)

/-- The state that an INIT of index `idx` leaves (R113). -/
def State.afterInit (idx : Fin 16) (s : State) : State := (s.buildTables idx).ended ((polyOf idx).setWidth 32) 0

theorem exec_init (s : State) : exec .init s = .next (s.afterInit 3) := rfl

theorem exec_initP {p : Nat} (h : p < 16) (s : State) : exec (.initP p) s = .next (s.afterInit ⟨p, h⟩) := by
  rw [← polyIndexOf_eq h]
  rfl

theorem exec_add (x y : Byte) (s : State) : exec (.add x y) s = .next (s.ended ((gfAdd x y).setWidth 32) 0) := rfl

/-- A table read ends with its value once the tables are built. -/
theorem tableRead_initialized {s : State} (hinit : s.status.init = true) (v : Word) :
    checked (tableCheck s) s (finish v s) = .next (s.ended v 0) := by
  rw [tableCheck_eq_none.mpr hinit]
  rfl

/-- A table read ends with UninitializedContext before an INIT (R121 to R125). -/
theorem tableRead_uninitialized {s : State} (hinit : s.status.init = false) (v : Word) :
    checked (tableCheck s) s (finish v s) = .next (s.ended 0 3) :=
  checked_uninitialized s _ (tableCheck_uninitialized hinit)

theorem exec_exp_initialized {s : State} {idx : Nat} (hidx : idx ≤ 1020) (hinit : s.status.init = true) :
    exec (.exp idx) s = .next (s.ended ((s.store.exp idx).setWidth 32) 0) := by
  rw [exec, execExp, expCheck_eq_none.mpr ⟨hidx, hinit⟩]
  rfl

section Built

variable {s : State} {idx : Fin 16} (hinit : s.status.init = true) (hstore : s.store = .built idx)
include hinit hstore

theorem exec_mul_built (x y : Byte) : exec (.mul x y) s = .next (s.ended ((gfMul (.built idx) x y).setWidth 32) 0) := by
  rw [← hstore]
  exact tableRead_initialized hinit _

theorem exec_div_built (x y : Byte) : exec (.div x y) s = .next (s.ended ((gfDiv (.built idx) x y).setWidth 32) 0) := by
  rw [← hstore]
  exact tableRead_initialized hinit _

theorem exec_inv_built (x : Byte) : exec (.inv x) s = .next (s.ended ((gfInv (.built idx) x).setWidth 32) 0) := by
  rw [← hstore]
  exact tableRead_initialized hinit _

theorem exec_exp_built {j : Nat} (hj : j ≤ 1020) : exec (.exp j) s = .next (s.ended ((expEntry idx j).setWidth 32) 0) := by
  rw [exec_exp_initialized hj hinit, hstore]
  rfl

theorem exec_log_built (x : Byte) : exec (.log x) s = .next (s.ended ((logEntry idx x).setWidth 32) 0) := by
  change _ = Host.Outcome.next (s.ended (((Store.built idx).log x).setWidth 32) 0)
  rw [← hstore]
  exact tableRead_initialized hinit _

end Built

end Sys2Proof.Machine
end

section
/-! CLAIMS. The statements on the GF(256) tables and on the scalar commands (40_gf_arithmetic.md). -/

namespace Sys2Proof.Proofs

open Sys2Proof.Machine

/-- Settles O28: EXP lists the powers of the generator and LOG their exponents in 1 to 255, with 512 for the byte 0. -/
theorem expAndLogTables : Obligations.ExpAndLogTables := fun idx =>
  ⟨⟨expEntry_mod idx (by decide), expEntry_multiple idx (by decide) (by decide), fun _ => expEntry_mod idx,
      fun _ h _ => expEntry_tail idx h⟩,
    rfl, fun _ => logEntry_expEntry idx, rfl, fun x => ⟨logEntry_ne_zero idx x, fun hx => (logEntry_bounds idx hx).2⟩⟩

/-- Settles O29: the entries of R115, with DIVT's exponent rearranged by the bound on LOG. -/
theorem productAndQuotientTables : Obligations.ProductAndQuotientTables := fun idx =>
  ⟨fun x => ⟨gmul_zero idx x, gdiv_zero idx x, gzero_mul idx x, gzero_div idx x⟩,
    fun _ _ hx hy => ⟨multEntry_eq_expEntry idx hx hy, divtEntry_eq_expEntry idx hx hy⟩, fun _ => rfl⟩

/-- Settles O30: MULT agrees with the product by shift and XOR, and DIVT and INVT undo it. -/
theorem tableLaws : Obligations.TableLaws := by
  intro idx
  refine ⟨fun x => ⟨gmul_zero idx x, gzero_mul idx x, gmul_one idx x, gfAdd_self x, gfAdd_zero x⟩,
    fun x hx => ⟨ginv idx x hx, ginv_ginv idx hx, exp_log idx hx⟩,
    fun x y hy => ⟨gmul_div idx x y hy, gdiv_mul idx x y hy⟩, rfl, ?_, ?_, fun x y z => ?_, fun x y z => ?_⟩
  · exact expEntry_multiple idx (by decide) rfl
  · exact expEntry_multiple idx (by decide) rfl
  · exact ⟨BitVec.xor_comm x y, BitVec.xor_assoc x y z⟩
  · exact ⟨gmul_eq_fieldProduct idx x y, gmul_comm idx x y, gmul_assoc idx x y z, gmul_add idx x y z⟩

/-- Settles O34: MUL reads MULT after one check; its corner cases are laws of the product. -/
theorem mulResult : Obligations.MulResult := by
  refine ⟨fun x y => commandWord_pairXY x y (by decide), fun s x y hinit => tableRead_initialized hinit _,
    fun s x y hinit => tableRead_uninitialized hinit _, fun s idx x y hinit hstore => ?_, fun s hinit hstore => ?_⟩
  · simp only [exec_mul_built hinit hstore, gmul_zero, gzero_mul, gmul_one, gmul_comm idx y x]
    exact ⟨rfl, rfl, trivial, trivial⟩
  · have product : gfMul (.built 3) 0x53 0xCA = 0x94 ∧ gfMul (.built 3) 0x80 0x02 = 0x4D := by decide +kernel
    simp only [exec_mul_built hinit hstore, product]
    exact ⟨rfl, rfl⟩

/-- Settles O35: DIV reads DIVT after one check, so a division by zero is row 0 of the table and no error. -/
theorem divResult : Obligations.DivResult := by
  refine ⟨fun x y => commandWord_pairXY x y (by decide), fun s x y hinit => tableRead_initialized hinit _,
    fun s x y hinit => tableRead_uninitialized hinit _, fun s idx x hinit hstore => ?_, fun s hinit hstore => ?_⟩
  · simp only [exec_div_built hinit hstore, gdiv_zero, gzero_div, gdiv_one]
    refine ⟨rfl, rfl, trivial, fun hx => ?_⟩
    rw [gdiv_self idx hx]
    rfl
  · have quotient : gfDiv (.built 3) 0x53 0xCA = 0x44 := by decide +kernel
    simp only [exec_div_built hinit hstore, quotient, gdiv_zero]
    exact ⟨rfl, rfl⟩

/-- Settles O36: INV reads INVT after one check; the double inverse is the identity on non-zero bytes. -/
theorem invResult : Obligations.InvResult := by
  refine ⟨fun x => commandWord_operands _ (by decide), fun s x hinit => tableRead_initialized hinit _,
    fun s x hinit => tableRead_uninitialized hinit _, fun s idx x hinit hstore => ?_, fun s hinit hstore => ?_⟩
  · have entry : s.store.invt x = gfInv (.built idx) x := by rw [hstore, gfInv]
    simp only [exec_inv_built hinit hstore, entry, ginv_zero, ginv_one]
    refine ⟨rfl, rfl, fun hx => ?_⟩
    rw [ginv_ginv idx hx]
  · have inverse : gfInv (.built 3) 0x02 = 0xA6 ∧ gfInv (.built 3) 0x80 = 0x93 := by decide +kernel
    simp only [exec_inv_built hinit hstore, inverse]
    exact ⟨rfl, rfl⟩

/-- Settles O37: EXP checks its index, then INIT, then reads the table, whose tail is 0. -/
theorem expResult : Obligations.ExpResult := by
  refine ⟨fun idx _ => commandWord_operands idx (by decide), fun s idx => exec_exp_initialized,
    fun s idx h => exec_exp_pastEnd h s,
    fun s idx hidx hinit => checked_uninitialized s _ (expCheck_uninitialized hinit hidx), fun s p hinit hstore => ?_,
    fun s hinit hstore => ?_⟩
  · have one : ∀ j, j ≤ 510 → j % 255 = 0 → exec (.exp j) s = .next (s.ended 1 0) := by
      intro j hj hmod
      rw [exec_exp_built hinit hstore (by omega), expEntry_multiple p hj hmod]
      rfl
    refine ⟨one 0 (by decide) rfl, one 255 (by decide) rfl, one 510 (by decide) rfl, fun j h511 h1020 => ?_⟩
    rw [exec_exp_built hinit hstore h1020, expEntry_tail p h511]
    rfl
  · have powers : expEntry 3 8 = 0x4D ∧ expEntry 3 300 = 0xA4 ∧ expEntry 3 1020 = 0 := by decide +kernel
    rw [exec_exp_built hinit hstore (by decide), exec_exp_built hinit hstore (by decide), exec_exp_built hinit hstore (by decide)]
    simp only [powers]
    exact ⟨rfl, rfl, rfl⟩

/-- Settles O38: LOG reads a 10-bit entry after one check, at most the sentinel 512. -/
theorem logResult : Obligations.LogResult := by
  refine ⟨fun x => commandWord_operands _ (by decide), fun s x hinit => tableRead_initialized hinit _,
    fun s x hinit => tableRead_uninitialized hinit _, fun s idx hinit hstore => ?_, fun s hinit hstore => ?_⟩
  · refine ⟨exec_log_built hinit hstore 0, exec_log_built hinit hstore 1, ?_, fun x t h => ?_⟩
    · rw [exec_log_built hinit hstore, logEntry_two]
      rfl
    · rw [exec_log_built hinit hstore] at h
      cases h
      rw [ended_result, BitVec.toNat_setWidth]
      exact (Nat.mod_le _ _).trans (logEntry_le idx x)
  · have exponent : logEntry 3 0x80 = 7 := by decide +kernel
    refine ⟨?_, exec_log_built hinit hstore 0⟩
    rw [exec_log_built hinit hstore, exponent]
    rfl

/-- Settles O32: neither form has a check, so both end in `State.afterInit` from every state. -/
theorem initBuildsTheTables : Obligations.InitBuildsTheTables := by
  refine ⟨rfl, fun p _ => ?_, exec_init, fun s p h => exec_initP h s, fun s t h => ?_, _, exec_init State.reset, by decide,
    by decide⟩
  · rw [encode, commandWord]
    congr 1
    omega
  · rw [exec_init] at h
    cases h
    exact ⟨rfl, _, exec_init _, rfl⟩

/-- Settles O33: ADD has no check and reads no table. -/
theorem addResult : Obligations.AddResult := by
  refine ⟨fun x y => commandWord_pairXY x y (by decide), fun s x y => exec_add x y s, fun s x => ?_, fun s => exec_add _ _ s⟩
  simp only [exec_add, gfAdd_self, gfAdd_zero]
  exact ⟨rfl, trivial⟩

end Sys2Proof.Proofs
end

section
/-! SUPPORT. Which error each check of ENCODE raises where it is the first to fail (R160), and how a failed check ends the command. -/

namespace Sys2Proof.Machine

theorem badBlockParameters_eq_true {s : State} :
    (s.badBlockCounts || s.badBlockBytes) = true ↔ ¬ (s.goodBlockCounts ∧ s.goodBlockBytes) := by
  rw [← badBlockCounts_eq_false, ← badBlockBytes_eq_false, ← Bool.or_eq_false_iff, Bool.not_eq_false]

theorem isNull_eq_true {a : Word} : isNull a = true ↔ a = 0 := beq_iff_eq

/-- A range that is not empty is out of memory when it ends past it (R62, R64). -/
theorem outOfRange_of_pos {s : State} {r : Range} (hlen : 0 < r.len) (hend : s.cfg.memBytes < r.base + r.len) :
    s.outOfRange r = true := by
  rw [← Bool.not_eq_false, outOfRange_eq_false]
  omega

theorem encodeCheck_invalidParameters {s : State} (h : ¬ (s.goodBlockCounts ∧ s.goodBlockBytes)) :
    encodeCheck s = some .invalidParameters := by
  rw [encodeCheck, firstError, badBlockParameters_eq_true.mpr h, if_pos rfl]

section GoodParameters

variable {s : State} (hc : s.goodBlockCounts) (hb : s.goodBlockBytes)
include hc hb

theorem encodeCheck_nullData (h : s.src = 0 ∨ s.dst = 0) : encodeCheck s = some .nullData := by
  have hnull : (isNull s.src || isNull s.dst) = true := by rwa [Bool.or_eq_true, isNull_eq_true, isNull_eq_true]
  simp [encodeCheck, firstError, badBlockCounts_eq_false.mpr hc, badBlockBytes_eq_false.mpr hb, hnull]

/-- Neither buffer is empty, since K, M and BLOCK_BYTES are positive. -/
theorem encodeBuffers_outOfRange
    (h : s.cfg.memBytes < s.src.toNat + s.k.toNat * s.blockBytes.toNat ∨
      s.cfg.memBytes < s.dst.toNat + s.m.toNat * s.blockBytes.toNat) :
    (s.outOfRange s.encodeInput || s.outOfRange s.encodeOutput) = true := by
  obtain ⟨hk, hm, -⟩ := hc
  obtain ⟨hpos, -⟩ := hb
  rw [Bool.or_eq_true]
  exact h.imp (outOfRange_of_pos (Nat.mul_pos hk hpos)) (outOfRange_of_pos (Nat.mul_pos hm hpos))

theorem encodeCheck_addressRange (hs : s.src ≠ 0) (hd : s.dst ≠ 0) (hi : s.status.init = true)
    (h : s.cfg.memBytes < s.src.toNat + s.k.toNat * s.blockBytes.toNat ∨
      s.cfg.memBytes < s.dst.toNat + s.m.toNat * s.blockBytes.toNat) :
    encodeCheck s = some .addressRange := by
  simp [encodeCheck, firstError, badBlockCounts_eq_false.mpr hc, badBlockBytes_eq_false.mpr hb, isNull_eq_false.mpr hs,
    isNull_eq_false.mpr hd, uninitialized_eq_false.mpr hi, encodeBuffers_outOfRange hc hb h]

end GoodParameters

/-- A failed check ends ENCODE with its code, RESULT 0 and no other effect (R231, R233). -/
theorem exec_encode_checkFails {s : State} {e : ErrorKind} (h : encodeCheck s = some e) :
    exec .encode s = .next (s.ended 0 e.code) := by
  rw [exec, execEncode, h, checked_some, raise_eq_ended]

end Sys2Proof.Machine
end

section
/-! CLAIMS. The statement on the checks of ENCODE (42_encoder.md). -/

namespace Sys2Proof.Proofs

open Sys2Proof.Machine

/-- Settles O42: each clause makes one check the first that fails, and its error alone ends the command. -/
theorem encodeChecks : Obligations.EncodeChecks := fun _ =>
  ⟨fun h => exec_encode_checkFails (encodeCheck_invalidParameters h), fun hc hb =>
    ⟨fun h => exec_encode_checkFails (encodeCheck_nullData hc hb h),
      fun hs hd hi => exec_encode_checkFails (encodeCheck_uninitialized hi hc hb hs hd),
      fun hs hd hi h => exec_encode_checkFails (encodeCheck_addressRange hc hb hs hd hi h)⟩⟩

end Sys2Proof.Proofs
end

section
/-! SUPPORT. What `gf_invert` answers over a table store that is a field (R183): an inverse, which is then the only one, or singular
for a matrix that has none. -/

namespace Sys2Proof.Machine

variable {F : Type} [Field F] {st : Store} {φ : Byte → F} {n : Nat}

/-- The left inverse that the elimination finds is an inverse on both sides. -/
theorem isInverse_of_gfInvert_eq_some (hφ : FieldModel st φ) {a b : Mat} (h : gfInvert st n a = some b) :
    isInverse st n a.get b.get := by
  rcases gfInvert_cases hφ n a with ⟨b', hb', hleft⟩ | ⟨hnone, -⟩
  · obtain rfl := Option.some.inj (h.symm.trans hb')
    exact (isInverse_iff hφ n a.get b.get).mpr ⟨hleft.comm, hleft⟩
  · cases h.symm.trans hnone

/-- The kernel vector of a matrix found singular is not 0, so no inverse exists. -/
theorem not_isInverse_of_gfInvert_eq_none (hφ : FieldModel st φ) {a : Mat} (h : gfInvert st n a = none)
    (b : Nat → Nat → Byte) : ¬ isInverse st n a.get b := by
  intro hb
  obtain ⟨-, hleft⟩ := (isInverse_iff hφ n a.get b).mp hb
  rcases gfInvert_cases hφ n a with ⟨b', hb', -⟩ | ⟨-, i, hi, v, hv, hker⟩
  · cases h.symm.trans hb'
  · exact one_ne_zero (hv.symm.trans (hleft.kernel hker hi))

theorem gfInvert_eq_none_iff (hφ : FieldModel st φ) {a : Mat} :
    gfInvert st n a = none ↔ ¬ ∃ b, isInverse st n a.get b := by
  constructor
  · rintro h ⟨b, hb⟩
    exact not_isInverse_of_gfInvert_eq_none hφ h b hb
  · intro h
    cases hg : gfInvert st n a with
    | none => rfl
    | some b => exact absurd ⟨b.get, isInverse_of_gfInvert_eq_some hφ hg⟩ h

theorem isInverse_unique (hφ : FieldModel st φ) {a b b' : Nat → Nat → Byte} (hb : isInverse st n a b)
    (hb' : isInverse st n a b') {r c : Nat} (hr : r < n) (hc : c < n) : b' r c = b r c := by
  obtain ⟨hright, -⟩ := (isInverse_iff hφ n a b).mp hb
  obtain ⟨-, hleft⟩ := (isInverse_iff hφ n a b').mp hb'
  exact hφ.inj (hleft.unique hright hr hc)

end Sys2Proof.Machine
end

section
/-! SUPPORT. Which error each check of INVERT raises where it is the first to fail (R180), and how a failed check ends the
command. -/

namespace Sys2Proof.Machine

theorem invertCheck_invalidParameters {s : State} (h : ¬ (1 ≤ s.n.toNat ∧ s.n.toNat ≤ 256)) :
    invertCheck s = some .invalidParameters := by
  have hbad : (decide (s.n.toNat < 1) || decide (256 < s.n.toNat)) = true := by
    rw [Bool.or_eq_true, decide_eq_true_eq, decide_eq_true_eq]
    omega
  rw [invertCheck, firstError, hbad, if_pos rfl]

section GoodSize

variable {s : State} (h1 : 1 ≤ s.n.toNat) (h256 : s.n.toNat ≤ 256)
include h1 h256

theorem invertCheck_nullData (h : s.src = 0 ∨ s.dst = 0) : invertCheck s = some .nullData := by
  have hnull : (isNull s.src || isNull s.dst) = true := by rwa [Bool.or_eq_true, isNull_eq_true, isNull_eq_true]
  simp [invertCheck, firstError, Nat.not_lt.mpr h256, Nat.ne_zero_of_lt h1, hnull]

/-- Both buffers hold N·N bytes, at least one. -/
theorem invertCheck_addressRange (hs : s.src ≠ 0) (hd : s.dst ≠ 0) (hi : s.status.init = true)
    (h : s.cfg.memBytes < s.src.toNat + s.n.toNat * s.n.toNat ∨ s.cfg.memBytes < s.dst.toNat + s.n.toNat * s.n.toNat) :
    invertCheck s = some .addressRange := by
  have hlen := Nat.mul_pos h1 h1
  have hrange : (s.outOfRange s.invertInput || s.outOfRange s.invertOutput) = true := by
    rw [Bool.or_eq_true]
    exact h.imp (outOfRange_of_pos hlen) (outOfRange_of_pos hlen)
  simp [invertCheck, firstError, Nat.not_lt.mpr h256, Nat.ne_zero_of_lt h1, isNull_eq_false.mpr hs, isNull_eq_false.mpr hd,
    uninitialized_eq_false.mpr hi, hrange]

end GoodSize

/-- A failed check ends INVERT with its code, RESULT 0 and no other effect (R231, R233). -/
theorem exec_invert_checkFails {s : State} {e : ErrorKind} (h : invertCheck s = some e) :
    exec .invert s = .next (s.ended 0 e.code) := by
  rw [exec, execInvert, h, checked_some, raise_eq_ended]

end Sys2Proof.Machine
end

section
/-! CLAIMS. The statements on `gf_invert` and on the checks of INVERT (43_inverter.md). -/

namespace Sys2Proof.Proofs

open Sys2Proof.Machine

/-- Settles O48: over the field of the built tables the elimination ends in an inverse, or shows a kernel vector that excludes one. -/
theorem gaussJordanIsCorrect : Obligations.GaussJordanIsCorrect := by
  intro idx n a
  obtain ⟨F, _, φ, hφ⟩ := exists_fieldModel idx
  refine ⟨gfInvert_eq_none_iff hφ, fun b h => ?_⟩
  have hb := isInverse_of_gfInvert_eq_some hφ h
  exact ⟨hb, fun b' hb' r hr c hc => isInverse_unique hφ hb hb' hr hc⟩

/-- Settles O47: each clause makes one check the first that fails, and its error alone ends the command. -/
theorem invertChecks : Obligations.InvertChecks := fun _ =>
  ⟨fun h => exec_invert_checkFails (invertCheck_invalidParameters h), fun h1 h256 =>
    ⟨fun h => exec_invert_checkFails (invertCheck_nullData h1 h256 h),
      fun hs hd hi => exec_invert_checkFails (invertCheck_uninitialized hi h1 h256 hs hd),
      fun hs hd hi h => exec_invert_checkFails (invertCheck_addressRange h1 h256 hs hd hi h)⟩⟩

end Sys2Proof.Proofs
end

section
/-! SUPPORT. Which error each parameter check of DECODE raises where it is the first to fail (R200), how a failed check ends the
command, and step 1 of DECODE when every data row is present (R203, R204). -/

namespace Sys2Proof.Machine

theorem decodeCheck_invalidParameters {s : State} (h : ¬ (s.goodBlockCounts ∧ s.goodBlockBytes)) :
    decodeCheck s = some .invalidParameters := by
  rw [decodeCheck, decodeParamCheck, firstError, badBlockParameters_eq_true.mpr h, if_pos rfl, orElseCheck]

theorem decodeCheck_nullData {s : State} (hc : s.goodBlockCounts) (hb : s.goodBlockBytes) (h : s.src = 0) :
    decodeCheck s = some .nullData := by
  simp [decodeCheck, decodeParamCheck, orElseCheck, firstError, badBlockCounts_eq_false.mpr hc, badBlockBytes_eq_false.mpr hb,
    isNull_eq_true.mpr h]

/-- A failed check ends DECODE with its code, RESULT 0 and no other effect (R231, R233). -/
theorem exec_decode_checkFails {s : State} {e : ErrorKind} (h : decodeCheck s = some e) :
    exec .decode s = .next (s.ended 0 e.code) := by
  rw [exec, execDecode, h, checked_some, raise_eq_ended]

theorem missing_eq_nil_iff {s : State} : s.missing = [] ↔
    ∀ i, i < s.k.toNat → ∃ e, e < s.nblk.toNat ∧ (s.desc e).present = true ∧ (s.desc e).row = i := by
  simp only [List.eq_nil_iff_forall_not_mem, mem_missing, rowMissing_iff, not_and, not_not]

/-- With nothing missing the body of DECODE ends in its first step (R204). -/
theorem decodeBody_nothingMissing {s : State} (h : s.missing = []) : decodeBody s = .next (s.ended 0 0) := by
  rw [State.missing] at h
  rw [decodeBody, if_pos (List.length_eq_zero_iff.mpr h), finish_eq_next]

end Sys2Proof.Machine
end

section
/-! CLAIMS. The statements on the parameter checks of DECODE and on DECODE with no data row missing (44_decoder.md). -/

namespace Sys2Proof.Proofs

open Sys2Proof.Machine

/-- Settles O53: the checks pass, the buffers are apart, and step 1 finds no missing row. -/
theorem nothingMissingWritesNothing : Obligations.NothingMissingWritesNothing := by
  intro s hready hapart hpresent
  have hmissing : s.missing = [] := missing_eq_nil_iff.mpr hpresent
  rw [exec, execDecode_ready hready hapart, decodeBody_nothingMissing hmissing]

/-- Settles O50: each clause makes one check the first that fails, and its error alone ends the command. -/
theorem decodeParameterChecks : Obligations.DecodeParameterChecks := fun _ =>
  ⟨fun h => exec_decode_checkFails (decodeCheck_invalidParameters h),
    fun hc hb h => exec_decode_checkFails (decodeCheck_nullData hc hb h),
    fun hc hb hs hi => exec_decode_checkFails (decodeCheck_uninitialized hi hc hb hs)⟩

end Sys2Proof.Proofs
end

section
/-! CLAIMS. The statement on the accept of a command (60_exceptions.md). -/

namespace Sys2Proof.Proofs

open Sys2Proof.Machine

/-- Settles O7: while idle a CMD write is the accept of R232, while busy a write that is ignored (R42); the statement writes both
updates of STATUS out. -/
theorem cmdWriteAccepts : Obligations.CmdWriteAccepts := fun _ w =>
  ⟨fun hidle => writeCsr_cmd_idle w hidle, fun hbusy => writeCsr_busy (c := .cmd) w rfl nofun hbusy⟩

end Sys2Proof.Proofs
end

section
/-! SUPPORT. The fields of a command word (R91): the word of a command holds each operand in its field, and a word with 0 in its
reserved bits is made of its fields. What each form of the decoder answers. -/

namespace Sys2Proof.Machine

/-! ## A command word and its fields -/

section Fields

variable {top ops opc : Nat} (ht : top < 32) (ho : ops < 2 ^ 16) (hp : opc < 256)
include ht ho hp

theorem commandWord_toNat : (commandWord top ops opc).toNat = top * 2 ^ 24 + ops * 2 ^ 8 + opc := by
  rw [commandWord, BitVec.toNat_ofNat, Nat.mod_eq_of_lt (by omega)]

theorem bits_commandWord_operands : bits (commandWord top ops opc) 23 8 = ops ∧
    bits (commandWord top ops opc) 15 8 = ops % 2 ^ 8 ∧ bits (commandWord top ops opc) 23 16 = ops / 2 ^ 8 := by
  simp only [bits, commandWord_toNat ht ho hp]
  omega

theorem bits_commandWord_top : bits (commandWord top ops opc) 28 28 = top / 2 ^ 4 ∧
    bits (commandWord top ops opc) 27 24 = top % 2 ^ 4 ∧ bits (commandWord top ops opc) 28 24 = top := by
  simp only [bits, commandWord_toNat ht ho hp]
  omega

theorem bits_commandWord_upper : bits (commandWord top ops opc) 28 16 = top * 2 ^ 8 + ops / 2 ^ 8 := by
  simp only [bits, commandWord_toNat ht ho hp]
  omega

end Fields

/-- A word with 0 in bits 31:29 is put together from its top byte, its operand field and OPC. -/
theorem commandWord_of_bits {w : Word} (h : bits w 31 29 = 0) : commandWord (bits w 28 24) (bits w 23 8) (bits w 7 0) = w := by
  have hw := w.isLt
  apply BitVec.eq_of_toNat_eq
  rw [commandWord, BitVec.toNat_ofNat]
  simp only [bits] at h ⊢
  omega

/-! ## The operand bytes -/

theorem pairXY_bytes (x y : Byte) : BitVec.ofNat 8 (pairXY x y % 2 ^ 8) = x ∧ BitVec.ofNat 8 (pairXY x y / 2 ^ 8) = y := by
  have hx := x.isLt
  have hsum : pairXY x y % 2 ^ 8 = x.toNat ∧ pairXY x y / 2 ^ 8 = y.toNat := by
    simp only [pairXY]
    omega
  rw [hsum.1, hsum.2, BitVec.ofNat_toNat, BitVec.ofNat_toNat, BitVec.setWidth_eq, BitVec.setWidth_eq]
  exact ⟨rfl, rfl⟩

theorem pairXY_operands (w : Word) : pairXY (operandX w) (operandY w) = bits w 23 8 := by
  simp only [pairXY, operandX, operandY, bits, BitVec.toNat_ofNat]
  omega

theorem operandX_toNat (w : Word) : (operandX w).toNat = bits w 15 8 := by
  simp only [operandX, bits, BitVec.toNat_ofNat]
  omega

/-! ## The forms of the decoder on the word of a command -/

/-- The word of a command has 0 in its reserved bits and the command's opcode in OPC (R91, R92). -/
theorem opcodeField (i : Instr) : Laws.OpcodeField.Statement i := by
  cases i with
  | init => exact Laws.OpcodeField.init
  | initP p => exact Laws.OpcodeField.initP p
  | add x y => exact Laws.OpcodeField.add x y
  | mul x y => exact Laws.OpcodeField.mul x y
  | div x y => exact Laws.OpcodeField.div x y
  | inv x => exact Laws.OpcodeField.inv x
  | exp idx => exact Laws.OpcodeField.exp idx
  | log x => exact Laws.OpcodeField.log x
  | cauchy => exact Laws.OpcodeField.cauchy
  | encode => exact Laws.OpcodeField.encode
  | invert => exact Laws.OpcodeField.invert
  | decode => exact Laws.OpcodeField.decode

theorem decodeXY_commandWord (x y : Byte) {opc : Nat} (hp : opc < 256) (mk : Byte → Byte → Instr) :
    decodeXY (commandWord 0 (pairXY x y) opc) mk = .ok (mk x y) := by
  have ho := Laws.OpcodeField.pairXY_lt x y
  obtain ⟨-, -, htop⟩ := bits_commandWord_top (top := 0) (by decide) ho hp
  obtain ⟨-, hx, hy⟩ := bits_commandWord_operands (top := 0) (by decide) ho hp
  obtain ⟨ex, ey⟩ := pairXY_bytes x y
  simp only [decodeXY, operandX, operandY, htop, hx, hy, ex, ey, ne_eq, not_true_eq_false, if_false]

theorem decodeX_commandWord (x : Byte) {opc : Nat} (hp : opc < 256) (mk : Byte → Instr) :
    decodeX (commandWord 0 x.toNat opc) mk = .ok (mk x) := by
  have hlt := x.isLt
  have ho := Laws.OpcodeField.byte_lt x
  have hupper := bits_commandWord_upper (top := 0) (by decide) ho hp
  obtain ⟨-, hx, -⟩ := bits_commandWord_operands (top := 0) (by decide) ho hp
  rw [decodeX, hupper, if_neg (by omega), operandX, hx, Nat.mod_eq_of_lt hlt, BitVec.ofNat_toNat, BitVec.setWidth_eq]

theorem decodeIdx_commandWord {idx opc : Nat} (hi : idx < 2 ^ 16) (hp : opc < 256) :
    decodeIdx (commandWord 0 idx opc) = .ok (.exp idx) := by
  obtain ⟨-, -, htop⟩ := bits_commandWord_top (top := 0) (by decide) hi hp
  obtain ⟨hidx, -, -⟩ := bits_commandWord_operands (top := 0) (by decide) hi hp
  rw [decodeIdx, htop, if_neg (by decide), hidx]

theorem decodeInit_commandWord {p : Nat} (h : p < 16) : decodeInit (commandWord (0x10 + p) 0 0x01) = .ok (.initP p) := by
  have ht : 0x10 + p < 32 := by omega
  obtain ⟨hsel, hidx, -⟩ := bits_commandWord_top (ops := 0) (opc := 0x01) ht (by decide) (by decide)
  obtain ⟨hzero, -, -⟩ := bits_commandWord_operands (ops := 0) (opc := 0x01) ht (by decide) (by decide)
  rw [decodeInit, hzero, if_neg (by decide), hsel, if_neg (by omega), hidx]
  congr 2
  omega

/-! ## The forms of the decoder on a legal word -/

theorem ite_error_eq_ok {p : Prop} [Decidable p] {e : IllegalWord} {r : Except IllegalWord Instr} {i : Instr} :
    (if p then .error e else r) = .ok i ↔ ¬ p ∧ r = .ok i := by
  by_cases hp : p
  · simp [hp]
  · simp [hp]

theorem decodeXY_eq_ok {w : Word} {mk : Byte → Byte → Instr} {i : Instr} :
    decodeXY w mk = .ok i ↔ bits w 28 24 = 0 ∧ mk (operandX w) (operandY w) = i := by
  rw [decodeXY, ite_error_eq_ok, not_not, Except.ok.injEq]

theorem decodeX_eq_ok {w : Word} {mk : Byte → Instr} {i : Instr} :
    decodeX w mk = .ok i ↔ bits w 28 16 = 0 ∧ mk (operandX w) = i := by
  rw [decodeX, ite_error_eq_ok, not_not, Except.ok.injEq]

theorem decodeIdx_eq_ok {w : Word} {i : Instr} : decodeIdx w = .ok i ↔ bits w 28 24 = 0 ∧ .exp (bits w 23 8) = i := by
  rw [decodeIdx, ite_error_eq_ok, not_not, Except.ok.injEq]

theorem decodeBlock_eq_ok {w : Word} {c i : Instr} : decodeBlock w c = .ok i ↔ bits w 28 8 = 0 ∧ c = i := by
  rw [decodeBlock, ite_error_eq_ok, not_not, Except.ok.injEq]

theorem decodeInit_eq_ok {w : Word} {i : Instr} : decodeInit w = .ok i ↔ bits w 23 8 = 0 ∧
    ((bits w 28 28 = 0 ∧ bits w 27 24 = 0 ∧ .init = i) ∨ (bits w 28 28 ≠ 0 ∧ .initP (bits w 27 24) = i)) := by
  rw [decodeInit, ite_error_eq_ok, not_not]
  by_cases hsel : bits w 28 28 = 0
  · rw [if_pos hsel, ite_error_eq_ok, not_not, Except.ok.injEq]
    simp [hsel]
  · simp [hsel]

/-! ## Well-formedness, form by form -/

/-- `i` is well-formed and `w` is its word. -/
def EncodesTo (i : Instr) (w : Word) : Prop := i.wf = true ∧ encode i = w

section Forms

variable {w : Word} {opc : Nat} (hres : bits w 31 29 = 0) (hopc : bits w 7 0 = opc)
include hres hopc

theorem commandWord_of_fields {top ops : Nat} (ht : bits w 28 24 = top) (ho : bits w 23 8 = ops) :
    commandWord top ops opc = w := by
  subst ht ho hopc
  exact commandWord_of_bits hres

theorem commandWord_operandXY (h : bits w 28 24 = 0) : commandWord 0 (pairXY (operandX w) (operandY w)) opc = w :=
  commandWord_of_fields hres hopc h (pairXY_operands w).symm

theorem commandWord_operandX (h : bits w 28 16 = 0) : commandWord 0 (operandX w).toNat opc = w := by
  refine commandWord_of_fields hres hopc ?_ ?_
  · simp only [bits] at h ⊢
    omega
  · rw [operandX_toNat]
    simp only [bits] at h ⊢
    omega

theorem commandWord_block (h : bits w 28 8 = 0) : commandWord 0 0 opc = w := by
  refine commandWord_of_fields hres hopc ?_ ?_
  · simp only [bits] at h ⊢
    omega
  · simp only [bits] at h ⊢
    omega

end Forms

theorem decodeInit_encodes {w : Word} {i : Instr} (hres : bits w 31 29 = 0) (hopc : bits w 7 0 = 0x01)
    (h : decodeInit w = .ok i) : EncodesTo i w := by
  obtain ⟨hzero, ⟨hsel, hidx, rfl⟩ | ⟨hsel, rfl⟩⟩ := decodeInit_eq_ok.mp h
  · refine ⟨rfl, commandWord_of_fields hres hopc ?_ hzero⟩
    simp only [bits] at hsel hidx ⊢
    omega
  · refine ⟨decide_eq_true (Nat.mod_lt _ (by decide)), commandWord_of_fields hres hopc ?_ hzero⟩
    simp only [bits] at hsel ⊢
    omega

/-- An opcode that is not reserved, in the order of R92. -/
theorem assigned_cases {n : Nat} (h : n ∈ assignedOpcodes) : n = 0x01 ∨ n = 0x10 ∨ n = 0x11 ∨ n = 0x12 ∨ n = 0x13 ∨
    n = 0x14 ∨ n = 0x15 ∨ n = 0x20 ∨ n = 0x30 ∨ n = 0x40 ∨ n = 0x50 := by
  simpa only [assignedOpcodes, List.mem_cons, List.not_mem_nil, or_false] using h

/-- A word that decodes has 0 in its reserved bits and an assigned opcode. -/
theorem decode_ok_low {w : Word} {i : Instr} (h : decode w = .ok i) : bits w 31 29 = 0 ∧ bits w 7 0 ∈ assignedOpcodes := by
  by_cases hres : bits w 31 29 = 0
  · refine ⟨hres, ?_⟩
    by_contra hopc
    exact nomatch (decode_reservedOpcode hres hopc).symm.trans h
  · exact nomatch (decode_reservedBits hres).symm.trans h

theorem decode_encodes {w : Word} {i : Instr} (h : decode w = .ok i) : EncodesTo i w := by
  obtain ⟨hres, hopc⟩ := decode_ok_low h
  rcases assigned_cases hopc with e | e | e | e | e | e | e | e | e | e | e <;>
    simp only [decode, hres, e, ne_eq, not_true_eq_false, if_false, if_true, Nat.reduceEqDiff] at h
  · exact decodeInit_encodes hres e h
  iterate 3
    obtain ⟨htop, rfl⟩ := decodeXY_eq_ok.mp h
    exact ⟨rfl, commandWord_operandXY hres e htop⟩
  · obtain ⟨htop, rfl⟩ := decodeX_eq_ok.mp h
    exact ⟨rfl, commandWord_operandX hres e htop⟩
  · obtain ⟨htop, rfl⟩ := decodeIdx_eq_ok.mp h
    exact ⟨decide_eq_true (Nat.mod_lt _ (by decide)), commandWord_of_fields hres e htop rfl⟩
  · obtain ⟨htop, rfl⟩ := decodeX_eq_ok.mp h
    exact ⟨rfl, commandWord_operandX hres e htop⟩
  all_goals
    obtain ⟨hzero, rfl⟩ := decodeBlock_eq_ok.mp h
    exact ⟨rfl, commandWord_block hres e hzero⟩

/-! ## The rows of the opcode table -/

/-- The bits that every row fixes: OPC, and the bit that tells the two INIT forms apart (R92, R93). -/
def rowKey : Word := 0x100000FF

theorem TableRow.key_of_holds {row : TableRow} (hrow : row ∈ opcodeTable) {w : Word} (h : row.holds w = true) :
    row.bitsSet &&& rowKey = w &&& rowKey := by
  have fixed : ∀ r ∈ opcodeTable, r.mask &&& rowKey = rowKey := by decide
  have hw : w &&& row.mask = row.bitsSet := beq_iff_eq.mp h
  rw [← hw, BitVec.and_assoc, fixed row hrow]

theorem rowKeys_nodup : (opcodeTable.map fun row => row.bitsSet &&& rowKey).Nodup := by decide

end Sys2Proof.Machine
end

section
/-! CLAIMS. The statements on the decoder, the encoder and the opcode table (30_encoding.md). -/

namespace Sys2Proof.Proofs

open Sys2Proof.Machine

/-- Settles O1: the opcode selects the form, and each form reads the operands back from their fields. -/
theorem decodeOfEncode : Obligations.DecodeOfEncode := by
  intro i hwf
  obtain ⟨hopc, hres⟩ := opcodeField i hwf
  rw [decode, hres, hopc]
  cases i <;> simp only [Laws.OpcodeField.opcode, ne_eq, not_true_eq_false, Nat.reduceEqDiff, if_false, if_true]
  case init | cauchy | encode | invert | decode => decide
  case initP p => exact decodeInit_commandWord (of_decide_eq_true hwf)
  case add x y | mul x y | div x y => exact decodeXY_commandWord x y (by decide) _
  case inv x | log x => exact decodeX_commandWord x (by decide) _
  case exp idx => exact decodeIdx_commandWord (of_decide_eq_true hwf) (by decide)

/-- Settles O2: a legal word is put together again from the fields that the decoder reads, and each of them fits. -/
theorem encodeOfDecode : Obligations.EncodeOfDecode := fun _ _ h => decode_encodes h

/-- Settles O3: the decoder and the table agree on the fields of R92; OPC and the INIT form select one row of the table. -/
theorem legalWordsAreTheTable : Obligations.LegalWordsAreTheTable := by
  refine ⟨fun w => (decode_ok_iff w).trans (exists_row_iff w).symm, fun w a b ra rb ha hb hra hrb => ?_⟩
  have keys : ra.bitsSet &&& rowKey = rb.bitsSet &&& rowKey :=
    (TableRow.key_of_holds (List.mem_of_getElem? ha) hra).trans (TableRow.key_of_holds (List.mem_of_getElem? hb) hrb).symm
  have same : (opcodeTable.map fun row => row.bitsSet &&& rowKey)[a]? =
      (opcodeTable.map fun row => row.bitsSet &&& rowKey)[b]? := by
    rw [List.getElem?_map, List.getElem?_map, ha, hb]
    exact congrArg some keys
  obtain ⟨hlt, -⟩ := List.getElem?_eq_some_iff.mp ha
  exact (List.getElem?_inj (by rwa [List.length_map]) rowKeys_nodup).mp same

end Sys2Proof.Proofs
end

section
/-! SUPPORT. The invariant of a safe run, operation by operation (R60, R31, R29, R41, R232): each update that a step is made of
keeps it. -/

namespace Sys2Proof.Machine

/-- The invariant speaks of memory, STATUS, the tables, POLY and MEM_BYTES only. -/
theorem State.Inv.of_kept {s t : State} (h : s.Inv) (hmem : t.mem = s.mem) (hcfg : t.cfg = s.cfg) (hstatus : t.status = s.status)
    (hstore : t.store = s.store) (hpoly : t.poly = s.poly) : t.Inv := by
  obtain ⟨hw, hb, he, h1, h0, hc⟩ := h
  constructor <;> simpa only [hmem, hcfg, hstatus, hstore, hpoly]

section Kept

variable {s : State} (h : s.Inv)
include h

theorem State.Inv.writeAll {ws : List Host.Cell} (hws : ∀ w ∈ ws, w.1 < s.cfg.memBytes) : (s.writeAll ws).Inv :=
  { h with memWf := Memory.writeAll_wf ws h.memWf, memBelow := Memory.writeAll_below hws h.memBelow }

theorem State.Inv.ended (v : Word) {code : BitVec 4} (hc : code.toNat ≤ 8) : (s.ended v code).Inv :=
  { h with errLegal := hc, busyClean := nofun }

theorem State.Inv.accept (w : Word) : (s.accept w).Inv :=
  { h with errLegal := Nat.zero_le _, busyClean := fun _ => ⟨rfl, rfl⟩ }

theorem State.Inv.buildTables (idx : Fin 16) : (s.buildTables idx).Inv :=
  { h with storeBuilt := fun _ => ⟨idx, rfl, rfl⟩, storeUnbuilt := nofun }

/-- A write to STATUS can clear DONE and WIGN only (R26). -/
theorem State.Inv.writeStatus (v : Word) : (s.writeStatus v).Inv := by
  refine { h with busyClean := fun hb => ?_ }
  obtain ⟨hdone, herr⟩ := h.busyClean hb
  exact ⟨by simp [hdone], herr⟩

theorem State.Inv.ignoreWrite : s.ignoreWrite.Inv := { h with }

theorem State.Inv.resetRegisters : s.resetRegisters.Inv :=
  { h with errLegal := Nat.zero_le _, storeBuilt := nofun, storeUnbuilt := fun _ => ⟨rfl, _, rfl⟩, busyClean := nofun }

theorem State.Inv.writeIdle (c : Csr) (v : Word) : (s.writeIdle c v).Inv := by
  cases c with
  | cmd => exact h.accept v
  | _ => exact h.of_kept rfl rfl rfl rfl rfl

theorem State.Inv.writeCsr (off : Nat) (v : Word) : (s.writeCsr off v).Inv := by
  rcases writeCsr_cases s off v with ⟨-, e⟩ | ⟨-, e⟩ | ⟨-, e⟩ | ⟨c, -, -, -, e⟩ <;> rw [e]
  · exact h
  · exact h.writeStatus v
  · exact h.ignoreWrite
  · exact h.writeIdle c v

end Kept

/-! ## The steps of the three agents -/

/-- The host's data lies in memory where an access is performed (R60). -/
theorem cellsAt_below {a top : Nat} {data : List Byte} (h : data.length = 0 ∨ a + data.length ≤ top) :
    ∀ w ∈ cellsAt a data, w.1 < top := by
  intro w hw
  obtain ⟨q, hq, rfl⟩ := mem_cellsAt.mp hw
  show a + q < top
  omega

theorem hostTurn_inv {s t : State} (hs : s.Inv) (h : hostTurn s = .next t) : t.Inv := by
  rcases hostTurn_next h with ⟨-, rfl⟩ | ⟨off, width, v, rest, -, -, rfl⟩ | ⟨off, width, name, rest, -, -, rfl⟩ |
    ⟨a, data, rest, -, hfit, -, rfl⟩ | ⟨a, n, name, rest, -, -, -, rfl⟩ | ⟨rest, -, rfl⟩
  · exact hs
  · exact State.Inv.writeCsr (s := { s with host := rest }) (hs.of_kept rfl rfl rfl rfl rfl) off v
  · exact hs.of_kept rfl rfl rfl rfl rfl
  · exact State.Inv.writeAll (s := { s with host := rest }) (hs.of_kept rfl rfl rfl rfl rfl) (cellsAt_below hfit)
  · exact hs.of_kept rfl rfl rfl rfl rfl
  · unfold hostPoll
    split
    · exact hs.of_kept rfl rfl rfl rfl rfl
    · exact hs.of_kept rfl rfl rfl rfl rfl

theorem exec_inv {i : Instr} {s t : State} (hs : s.Inv) (h : exec i s = .next t) : t.Inv := by
  rcases exec_next h with ⟨idx, -, rfl⟩ | ⟨-, -, ws, v, code, hws, hcode, rfl⟩
  · exact (hs.buildTables idx).ended _ (by decide)
  · exact (hs.writeAll fun w hw => writeSet_below (hws w hw)).ended v hcode

theorem coreTurn_inv {s t : State} (hs : s.Inv) (h : coreTurn s = .next t) : t.Inv := by
  rcases coreTurn_next h with ⟨-, rfl⟩ | ⟨-, -, rfl⟩ | ⟨-, i, -, he⟩
  · exact hs
  · exact hs.ended 0 (by decide)
  · exact exec_inv hs he

/-- The write set in flight is empty, or that of the command in CMD (R75, R96). -/
theorem writeSetInFlight_cases (s : State) :
    s.writeSetInFlight = [] ∨ ∃ i, decode s.cmd = .ok i ∧ s.writeSetInFlight = writeSet i s := by
  unfold State.writeSetInFlight
  split
  · split
    · exact .inr ⟨_, ‹_›, rfl⟩
    · exact .inl rfl
  · exact .inl rfl

theorem mem_freeCells {free : Nat} {rs : List Range} {w : Host.Cell} (h : w ∈ freeCells free rs) : anyHas rs w.1 = true := by
  simp only [freeCells, List.mem_flatMap, List.mem_map, List.mem_range] at h
  obtain ⟨r, hr, q, hq, rfl⟩ := h
  exact anyHas_iff.mpr ⟨r, hr, Nat.le_add_right .., Nat.add_lt_add_left hq _⟩

theorem writeSetInFlight_below {s : State} {a : Nat} (h : anyHas s.writeSetInFlight a = true) : a < s.cfg.memBytes := by
  rcases writeSetInFlight_cases s with hnone | ⟨i, -, hi⟩
  · simp [hnone, anyHas] at h
  · exact writeSet_below (hi ▸ h)

theorem resetTurn_inv {s : State} (hs : s.Inv) : (resetTurn s).Inv :=
  (hs.writeAll fun _ hw => writeSetInFlight_below (mem_freeCells hw)).resetRegisters

end Sys2Proof.Machine
end

section
/-! SUPPORT. What a command, and the host's step, can move outside memory (R233, R236, R42), the errors a command can end with
(R230, R231), and that a command reads inside memory (R64). -/

namespace Sys2Proof.Machine

/-- Everything a completing command keeps and sets outside memory and RESULT. -/
theorem exec_frame {i : Instr} {s t : State} (h : exec i s = .next t) :
    sameOutside s t ∧ t.status.busy = false ∧ t.status.done = true ∧ t.status.err.toNat ≤ 8 ∧ t.status.wign = s.status.wign ∧
      ((i ≠ .init ∧ ∀ p, i ≠ .initP p) → t.poly = s.poly ∧ t.store = s.store ∧ t.status.init = s.status.init) := by
  rcases exec_next h with ⟨idx, hi, rfl⟩ | ⟨-, -, ws, v, code, -, hcode, rfl⟩
  · refine ⟨by simp [sameOutside], rfl, rfl, Nat.zero_le _, rfl, fun ⟨h1, h2⟩ => ?_⟩
    rcases hi with rfl | ⟨p, rfl⟩
    · exact absurd rfl h1
    · exact absurd rfl (h2 p)
  · exact ⟨by simp [sameOutside], rfl, rfl, hcode, rfl, fun _ => ⟨rfl, rfl, rfl⟩⟩

/-- Every byte a command may read exists (R64). -/
theorem readSet_below {i : Instr} {s : State} {a : Nat} (h : anyHas (readSet i s) a = true) : a < s.cfg.memBytes := by
  obtain ⟨r, hr, h1, h2⟩ := anyHas_iff.mp h
  cases i
  case encode =>
    obtain ⟨hc, hr⟩ := mem_rangesIf.mp hr
    obtain ⟨-, -, -, -, -, h4, -⟩ := encodeCheck_eq_none.mp hc
    obtain rfl := List.mem_singleton.mp hr
    exact h2.trans_le h4
  case invert =>
    obtain ⟨hc, hr⟩ := mem_rangesIf.mp hr
    obtain ⟨-, -, -, -, -, h4, -⟩ := invertCheck_eq_none.mp hc
    obtain rfl := List.mem_singleton.mp hr
    exact h2.trans_le h4
  case decode =>
    rcases List.mem_append.mp hr with hr | hr
    · obtain ⟨hc, hr⟩ := mem_rangesIf.mp hr
      obtain ⟨-, htable⟩ := orElseCheck_eq_none.mp hc
      have htable : s.tableInRange := tablePastEnd_eq_false.mp (by simpa [firstError_eq_none] using htable)
      obtain rfl := List.mem_singleton.mp hr
      exact h2.trans_le htable
    · obtain ⟨hc, hr⟩ := mem_rangesIf.mp hr
      obtain ⟨-, -, hpayload⟩ := decodeCheck_eq_none.mp hc
      obtain ⟨e, he, -, rfl⟩ := mem_presentPayloads.mp hr
      exact h2.trans_le (hpayload e he)
  all_goals simp [readSet] at hr

/-! ## Errors -/

theorem mem_of_firstError {l : List (Bool × ErrorKind)} {e : ErrorKind} (h : firstError l = some e) : ∃ c ∈ l, c.2 = e := by
  induction l with
  | nil => cases h
  | cons c rest ih =>
    obtain ⟨b, e'⟩ := c
    cases b with
    | true => exact ⟨_, List.mem_cons_self .., Option.some.inj h⟩
    | false =>
      obtain ⟨c, hc, he⟩ := ih h
      exact ⟨c, List.mem_cons_of_mem _ hc, he⟩

/-- A list of checks that does not name an error kind does not raise it. -/
theorem firstError_ne {l : List (Bool × ErrorKind)} {e : ErrorKind} (h : ∀ c ∈ l, c.2 ≠ e) : firstError l ≠ some e := fun he => by
  obtain ⟨c, hc, hce⟩ := mem_of_firstError he
  exact h c hc hce

theorem orElseCheck_ne {a b : Option ErrorKind} {e : ErrorKind} (ha : a ≠ some e) (hb : b ≠ some e) : orElseCheck a b ≠ some e := by
  cases a with
  | none => exact hb
  | some e' => exact ha

/-- No check of any command raises BlockBuffer (R231). -/
theorem checks_ne_blockBuffer (s : State) : tableCheck s ≠ some .blockBuffer ∧ (∀ idx, expCheck idx s ≠ some .blockBuffer) ∧
    cauchyCheck s ≠ some .blockBuffer ∧ encodeCheck s ≠ some .blockBuffer ∧ invertCheck s ≠ some .blockBuffer ∧
    decodeCheck s ≠ some .blockBuffer :=
  ⟨firstError_ne (by simp), fun idx => firstError_ne (by simp), firstError_ne (by simp), firstError_ne (by simp),
    firstError_ne (by simp), orElseCheck_ne (firstError_ne (by simp)) (firstError_ne (by simp))⟩

theorem code_le (e : ErrorKind) : e.code.toNat ≤ 8 := by cases e <;> decide

/-- The codes of R230 are distinct. -/
theorem code_inj {e e' : ErrorKind} (h : e.code = e'.code) : e = e' := by
  revert h
  cases e <;> cases e' <;> decide

/-- How a command ends with an error: with no other effect, or DECODE with BlockBuffer after its installs. -/
def EndsCleanly (i : Instr) (s t : State) : Prop :=
  t.status.err = 0 ∨ (t.mem = s.mem ∧ t.result = 0 ∧ t.status.err ≠ 6) ∨ (i = .decode ∧ t.status.err = 6)

theorem endsCleanly_of_error {i : Instr} {s : State} {c : Option ErrorKind} {e : ErrorKind} (hc : c ≠ some .blockBuffer)
    (he : c = some e) : EndsCleanly i s (s.ended 0 e.code) :=
  .inr (.inl ⟨rfl, rfl, fun h => hc (he.trans (congrArg some (code_inj (e' := .blockBuffer) h)))⟩)

theorem exec_endsCleanly {i : Instr} {s t : State} (h : exec i s = .next t) : EndsCleanly i s t := by
  obtain ⟨htable, hexp, hcauchy, hencode, hinvert, hdecode⟩ := checks_ne_blockBuffer s
  cases i with
  | init | initP p | add x y => exact .inl (by rw [finish_eq_next.mp h]; rfl)
  | mul x y | div x y | inv x | log x =>
    rcases tableRead_next h with ⟨e, he, rfl⟩ | ⟨-, rfl⟩
    · exact endsCleanly_of_error htable he
    · exact .inl rfl
  | exp idx =>
    rcases tableRead_next h with ⟨e, he, rfl⟩ | ⟨-, rfl⟩
    · exact endsCleanly_of_error (hexp idx) he
    · exact .inl rfl
  | cauchy =>
    rcases execCauchy_next h with ⟨e, he, rfl⟩ | ⟨-, rfl⟩
    · exact endsCleanly_of_error hcauchy he
    · exact .inl rfl
  | encode =>
    rcases execEncode_next h with ⟨e, he, rfl⟩ | ⟨-, -, rfl⟩
    · exact endsCleanly_of_error hencode he
    · exact .inl rfl
  | invert =>
    rcases execInvert_next h with ⟨e, he, rfl⟩ | ⟨-, -, rfl⟩ | ⟨-, b, -, rfl⟩
    · exact endsCleanly_of_error hinvert he
    · exact endsCleanly_of_error (by decide) rfl
    · exact .inl rfl
  | decode =>
    rcases execDecode_next h with ⟨e, he, rfl⟩ | ⟨-, -, hb⟩
    · exact endsCleanly_of_error hdecode he
    · rcases decodeBody_next hb with ⟨-, rfl⟩ | ⟨-, -, rfl⟩ | ⟨-, -, -, rfl⟩ | ⟨-, -, -, sinv, -, rfl⟩
      · exact .inl rfl
      · exact endsCleanly_of_error (by decide) rfl
      · exact endsCleanly_of_error (by decide) rfl
      · by_cases hfew : (emptySlots s.descriptors).length < s.missing.length
        · exact .inr (.inr ⟨rfl, by simp [hfew, ErrorKind.code]⟩)
        · exact .inl (by simp [hfew])

/-! ## Writers of the registers -/

/-- A host step changes ERR by an accept only, and RESULT, the tables, POLY and MEM_BYTES never. -/
theorem hostTurn_registers {s t : State} (h : hostTurn s = .next t) : t.result = s.result ∧ t.store = s.store ∧ t.poly = s.poly ∧
    t.cfg = s.cfg ∧ (t.status.err = s.status.err ∨ (t.status.busy = true ∧ t.status.err = 0)) := by
  rcases hostTurn_csrWrite_or_csrs_kept h with ⟨off, v, rest, -, rfl⟩ | ⟨_, _, _, rfl⟩
  · rcases writeCsr_cases { s with host := rest } off v with ⟨-, e⟩ | ⟨-, e⟩ | ⟨-, e⟩ | ⟨c, -, -, -, e⟩ <;> rw [e]
    · exact ⟨rfl, rfl, rfl, rfl, .inl rfl⟩
    · exact ⟨rfl, rfl, rfl, rfl, .inl rfl⟩
    · exact ⟨rfl, rfl, rfl, rfl, .inl rfl⟩
    · cases c with
      | cmd => exact ⟨rfl, rfl, rfl, rfl, .inr ⟨rfl, rfl⟩⟩
      | _ => exact ⟨rfl, rfl, rfl, rfl, .inl rfl⟩
  · exact ⟨rfl, rfl, rfl, rfl, .inl rfl⟩

/-- A core step changes nothing while idle; it leaves a legal ERR, and the tables and POLY change under INIT only. -/
theorem coreTurn_registers {s t : State} (h : coreTurn s = .next t) : t = s ∨
    (s.status.busy = true ∧ t.status.err.toNat ≤ 8 ∧ t.cfg = s.cfg ∧ ((t.store = s.store ∧ t.poly = s.poly) ∨ s.InitInCmd)) := by
  rcases coreTurn_next h with ⟨-, rfl⟩ | ⟨hb, -, rfl⟩ | ⟨hb, i, hd, he⟩
  · exact .inl rfl
  · exact .inr ⟨hb, code_le _, rfl, .inl ⟨rfl, rfl⟩⟩
  · rcases exec_next he with ⟨idx, hi, rfl⟩ | ⟨-, -, ws, v, code, -, hcode, rfl⟩
    · refine .inr ⟨hb, Nat.zero_le _, rfl, .inr ?_⟩
      rcases hi with rfl | ⟨p, rfl⟩
      · exact .inl hd
      · exact .inr ⟨p, hd⟩
    · exact .inr ⟨hb, hcode, rfl, .inl ⟨rfl, rfl⟩⟩

/-! ## Reset of a machine in flight -/

theorem writeSetInFlight_of_ok {s : State} {i : Instr} (hb : s.status.busy = true) (h : decode s.cmd = .ok i) :
    s.writeSetInFlight = writeSet i s := by
  rw [State.writeSetInFlight, if_pos hb, h]

theorem writeSetInFlight_of_error {s : State} {e : IllegalWord} (h : decode s.cmd = .error e) : s.writeSetInFlight = [] := by
  rw [State.writeSetInFlight, h, ite_self]

/-- A reset writes the write set in flight only (R261). -/
theorem resetTurn_frame {s : State} {a : Nat} (h : anyHas s.writeSetInFlight a = false) :
    (resetTurn s).mem.read a = s.mem.read a := by
  refine Memory.read_writeAll_of_forall_ne fun w hw e => ?_
  subst e
  exact nomatch h.symm.trans (mem_freeCells hw)

end Sys2Proof.Machine
end

section
/-! CLAIMS. The statements on every step and on every command: the invariant, the frame, the sets, the errors, the writers of the
registers, and reset in flight (10_state.md, 20_memory.md, 60_exceptions.md, 70_reset_and_hazards.md). -/

namespace Sys2Proof.Proofs

open Sys2Proof.Machine

/-- Settles O17: the reset state is a state with no memory listed whose registers have been reset. -/
theorem resetIsSafe : Obligations.ResetIsSafe where
  memWf := rfl
  memBelow := rfl
  errLegal := by decide
  storeBuilt := nofun
  storeUnbuilt := fun _ => ⟨rfl, _, rfl⟩
  busyClean := nofun

/-- Settles O18: the host's step, the core's and the reset each keep the invariant, since each update they make does. -/
theorem stepKeepsInvariant : Obligations.StepKeepsInvariant := by
  intro s t hs h
  have hturn : s.takeTurn.Inv := hs.of_kept rfl rfl rfl rfl rfl
  rcases step_next h with ⟨-, hh⟩ | ⟨-, hc⟩ | ⟨-, rfl⟩
  · exact hostTurn_inv hturn hh
  · exact coreTurn_inv hturn hc
  · exact resetTurn_inv hturn

/-- Settles O19: a command that completes builds the tables, or writes memory, and then ends. -/
theorem commandFrame : Obligations.CommandFrame := fun _ _ _ => exec_frame

/-- Settles O20: a command writes cells of its write set only, and the checks that give it its sets bound them. -/
theorem commandStaysInItsSets : Obligations.CommandStaysInItsSets := by
  refine fun i s => ⟨fun a ha => ha.elim readSet_below writeSet_below, fun t h a ha => ?_⟩
  rcases exec_next h with ⟨idx, -, rfl⟩ | ⟨-, -, ws, v, code, hws, -, rfl⟩
  · rfl
  · refine Memory.read_writeAll_of_forall_ne fun w hw e => ?_
    subst e
    exact nomatch ha.symm.trans (hws w hw)

/-- Settles O21: no check raises BlockBuffer, and DECODE's step 6 is the one writer that can end with an error. -/
theorem onlyBlockBufferLeavesWrites : Obligations.OnlyBlockBufferLeavesWrites := by
  intro i s t h hne
  rcases exec_endsCleanly h with h0 | ⟨hmem, hresult, h6⟩ | ⟨hi, h6⟩
  · exact absurd h0 hne
  · exact ⟨fun _ => ⟨hmem, hresult⟩, fun e => absurd e h6⟩
  · exact ⟨fun e => absurd h6 e, fun _ => hi⟩

/-- Settles O24: the host moves ERR by an accept only, and the core moves a register at a complete only. -/
theorem registerWriters : Obligations.RegisterWriters := by
  intro s t h
  rcases step_next h with ⟨hm, hh⟩ | ⟨hm, hc⟩ | ⟨hm, rfl⟩
  · obtain ⟨hresult, hstore, hpoly, hcfg, herr⟩ := hostTurn_registers hh
    exact ⟨fun e => absurd hresult e, fun e => .inr (.inr ⟨hm, herr.resolve_left e⟩),
      fun e => (e.elim (absurd hstore) (absurd hpoly)), hcfg⟩
  · rcases coreTurn_registers hc with rfl | ⟨hb, herr, hcfg, htables⟩
    · exact ⟨fun e => absurd rfl e, fun e => absurd rfl e, fun e => (e.elim (absurd rfl) (absurd rfl)), rfl⟩
    · refine ⟨fun _ => .inr ⟨hm, hb⟩, fun _ => .inr (.inl ⟨hm, hb, herr⟩), fun e => .inr ⟨hm, hb, ?_⟩, hcfg⟩
      rcases htables with ⟨hstore, hpoly⟩ | hinit
      · exact e.elim (absurd hstore) (absurd hpoly)
      · exact hinit
  · exact ⟨fun _ => .inl hm, fun _ => .inl hm, fun _ => .inl hm, rfl⟩

/-- Settles O16: the registers are reset, and the only bytes written are those of the write set in flight. -/
theorem resetAbandonsTheCommand : Obligations.ResetAbandonsTheCommand := by
  refine fun s hb => ⟨rfl, rfl, rfl, fun a => resetTurn_frame, fun i => writeSetInFlight_of_ok hb, fun ⟨e, he⟩ => ?_⟩
  simp [resetTurn, writeSetInFlight_of_error he, freeCells, Memory.writeAll]

end Sys2Proof.Proofs
end

section
/-! SUPPORT. The fields of STATUS where a read finds them (R26), the reads and writes of the parameter CSRs (R24), and whose turn a
step takes (R275). -/

namespace Sys2Proof.Machine

/-! ## STATUS as read -/

/-- The read of STATUS field by field; the fields are finitely many values. -/
theorem status_word_fields (st : Status) : st.word.getLsbD 0 = st.busy ∧ st.word.getLsbD 1 = st.done ∧
    st.word.getLsbD 2 = st.init ∧ st.word.getLsbD 3 = st.wign ∧ st.word.extractLsb' 4 4 = st.err := by
  obtain ⟨busy, done, init, wign, err⟩ := st
  revert busy done init wign err
  decide

/-! ## The parameter CSRs -/

/-- The parameter CSRs of R34 to R39. -/
def Csr.isParameter : Csr → Bool
  | .k | .m | .blockBytes | .n | .src | .dst | .nblk => true
  | .cmd | .status | .ctrl | .result | .poly => false

/-- The idle write of a parameter CSR is seen at that CSR only. -/
theorem csr_writeIdle {c : Csr} (hc : c.isParameter = true) (v : Word) (s : State) (c' : Csr) :
    (s.writeIdle c v).csr c' = if c' = c then v else s.csr c' := by
  cases c with
  | cmd | status | ctrl | result | poly => cases hc
  | k | m | blockBytes | n | src | dst | nblk => cases c' <;> rfl

theorem writeIdle_parameter_kept {c : Csr} (hc : c.isParameter = true) (v : Word) (s : State) :
    (s.writeIdle c v).mem = s.mem ∧ (s.writeIdle c v).store = s.store ∧ (s.writeIdle c v).status = s.status := by
  cases c with
  | cmd | status | ctrl | result | poly => cases hc
  | k | m | blockBytes | n | src | dst | nblk => exact ⟨rfl, rfl, rfl⟩

/-- An idle write of a parameter CSR at its offset, as the host reads it back. -/
theorem readCsr_writeCsr_parameter {off : Nat} {c : Csr} {s : State} (h : csrAt off = some c) (hc : c.isParameter = true) (v : Word)
    (hb : s.status.busy = false) (other : Nat) :
    (s.writeCsr off v).readCsr other = if other = off then v else s.readCsr other := by
  rw [writeCsr_idle v h (by rintro rfl; cases hc) hb]
  cases ho : csrAt other with
  | none =>
    rw [readCsr_unmapped ho, readCsr_unmapped ho, if_neg]
    rintro rfl
    exact nomatch h.symm.trans ho
  | some c' =>
    have same : other = off ↔ c' = c :=
      ⟨fun e => Option.some.inj (ho.symm.trans (e ▸ h)), fun e => csrAt_inj ho (e ▸ h)⟩
    rw [readCsr_mapped ho, readCsr_mapped ho, csr_writeIdle hc]
    simp only [same]

/-! ## Whose turn it is -/

theorem mover_of_turns {s : State} {t : Turn} {rest : List Turn} (h : s.turns = t :: rest) :
    s.mover = t ∧ s.takeTurn = { s with turns := rest } := by
  simp only [State.mover, State.takeTurn, h, List.tail_cons, and_self]

theorem mover_of_no_turns {s : State} (h : s.turns = []) :
    s.mover = (if s.status.busy then .core else .host) ∧ s.takeTurn = s := by
  refine ⟨by simp only [State.mover, h], ?_⟩
  rw [State.takeTurn, h, List.tail_nil, ← h]

theorem step_of_core {s : State} (h : s.mover = .core) : step s = coreTurn s.takeTurn := by
  simp only [step, modelStep, h]

theorem step_of_reset {s : State} (h : s.mover = .reset) : step s = .next (resetTurn s.takeTurn) := by
  simp only [step, modelStep, h]

theorem coreTurn_of_ok {s : State} {i : Instr} (hb : s.status.busy = true) (h : decode s.cmd = .ok i) : coreTurn s = exec i s := by
  rw [coreTurn, if_pos hb, h]

theorem decodeTableWord_eq_some {nbits w : Nat} {i : Instr} :
    decodeTableWord nbits w = some i ↔ decode (tableWord nbits w) = .ok i := by
  unfold decodeTableWord
  cases decode (tableWord nbits w) with
  | ok j => simp
  | error e => simp

/-- A command word of all 32 bits is the word itself. -/
theorem tableWord_full (w : Nat) : tableWord 32 w = BitVec.ofNat 32 w := by
  apply BitVec.eq_of_toNat_eq
  rw [tableWord, BitVec.toNat_ofNat, BitVec.toNat_ofNat, Nat.mod_mod]

end Sys2Proof.Machine
end

section
/-! CLAIMS. The statements on whose step it is, on STATUS and on the parameter CSRs (10_state.md, 70_reset_and_hazards.md). -/

namespace Sys2Proof.Proofs

open Sys2Proof.Machine

/-- Settles O6: the step asks for the mover and runs that agent's turn on the state with the turn taken. -/
theorem stepRunsTheCommand : Obligations.StepRunsTheCommand := by
  refine ⟨fun s t rest => mover_of_turns, fun s => mover_of_no_turns, fun s => ⟨step_of_host, step_of_reset, fun hm hb => ?_,
    fun hm hb ⟨e, he⟩ => ?_⟩, fun s i hb hi => ⟨fun rest h => ?_, fun h => ?_⟩, fun s w i h => ?_⟩
  · rw [step_of_core hm, coreTurn_idle (s := s.takeTurn) hb]
  · rw [step_of_core hm, coreTurn_illegal (s := s.takeTurn) hb he]
  · obtain ⟨hm, hturn⟩ := mover_of_turns h
    rw [step_of_core hm, coreTurn_of_ok (s := s.takeTurn) hb hi, hturn]
  · obtain ⟨hm, hturn⟩ := mover_of_no_turns h
    rw [step_of_core (hm.trans (if_pos hb)), hturn, coreTurn_of_ok hb hi]
  · have hi : decode (tableWord 32 w) = .ok i := decodeTableWord_eq_some.mp h
    rw [step_of_core rfl, coreTurn_of_ok (s := (s.withFetchWord 32 w).takeTurn) rfl hi, ← tableWord_full]
    rfl

/-- Settles O9: STATUS is the sum of its fields at their places; a write clears DONE and WIGN bit by bit. -/
theorem statusFields : Obligations.StatusFields := by
  refine ⟨fun s => ?_, by decide, fun s => ⟨rfl, rfl, ?_, rfl⟩, writeCsr_status⟩
  · obtain ⟨hbusy, hdone, hinit, hwign, herr⟩ := status_word_fields s.status
    exact ⟨hbusy, hdone, hinit, hwign, herr, fun i => readCsr_status_reserved s⟩
  · rw [readCsr_ctrl_bit, decide_eq_true rfl, Bool.and_true]

/-- Settles O10: each parameter CSR stands at its offset, and its idle write is one field of the state. -/
theorem parameterCsrsHoldEveryValue : Obligations.ParameterCsrsHoldEveryValue := by
  refine ⟨fun s => ⟨rfl, rfl, rfl, rfl, rfl, rfl, rfl⟩, fun s v hb => ?_, fun s v hb off hoff => ?_⟩
  · exact ⟨writeCsr_idle (c := .k) v rfl nofun hb, writeCsr_idle (c := .m) v rfl nofun hb,
      writeCsr_idle (c := .blockBytes) v rfl nofun hb, writeCsr_idle (c := .n) v rfl nofun hb,
      writeCsr_idle (c := .src) v rfl nofun hb, writeCsr_idle (c := .dst) v rfl nofun hb,
      writeCsr_idle (c := .nblk) v rfl nofun hb⟩
  · obtain ⟨c, hat, hc⟩ : ∃ c, csrAt off = some c ∧ c.isParameter = true := by
      revert off
      decide
    have read := readCsr_writeCsr_parameter hat hc v hb
    refine ⟨by rw [read, if_pos rfl], fun other hne => by rw [read, if_neg hne], ?_⟩
    rw [writeCsr_idle v hat (by rintro rfl; cases hc) hb]
    exact writeIdle_parameter_kept hc v s

end Sys2Proof.Proofs
end

section
/-! SUPPORT. The sixteen polynomials one by one (R112), and that the EXP entries of one period are distinct non-zero bytes (R114). -/

namespace Sys2Proof.Machine

theorem polyOf_ends (idx : Fin 16) : (polyOf idx).getLsbD 8 = true ∧ (polyOf idx).getLsbD 0 = true := by
  revert idx
  decide

theorem expEntry_ne_zero (idx : Fin 16) {j : Nat} (h : j ≤ 510) : expEntry idx j ≠ 0 := by
  rw [expEntry_eq h]
  exact gpow_ne_zero idx j

theorem expEntry_inj {idx : Fin 16} {a b : Nat} (ha : a ≤ 254) (hb : b ≤ 254) (h : expEntry idx a = expEntry idx b) : a = b := by
  rw [expEntry_eq (by omega), expEntry_eq (by omega)] at h
  exact gpow_inj (by omega) (by omega) h

end Sys2Proof.Machine
end

section
/-! CLAIMS. The statements on the polynomials and on MULT (40_gf_arithmetic.md). -/

namespace Sys2Proof.Proofs

open Sys2Proof.Machine

/-- Settles O27: the EXP entries are the powers of 2, which differ and are not 0 over one period of 255. -/
theorem sixteenPrimitivePolynomials : Obligations.SixteenPrimitivePolynomials := by
  refine ⟨by decide, fun idx => ?_⟩
  obtain ⟨h8, h0⟩ := polyOf_ends idx
  exact ⟨h8, h0, fun a b ha hb => ⟨expEntry_ne_zero idx (ha.trans (by decide)), expEntry_inj ha hb⟩⟩

/-- Settles O31: on powers of 2 both products add the exponents, and each is 0 where a factor is. -/
theorem multIsTheFieldProduct : Obligations.MultIsTheFieldProduct := gmul_eq_fieldProduct

end Sys2Proof.Proofs
end

section
/-! SUPPORT. The Cauchy matrix (R150): its nodes are distinct, so its entries are not zero and its square submatrices have an
inverse (R152). The checks of CAUCHY where each is the first to fail (R151). -/

namespace Sys2Proof.Machine

/-! ## The entries -/

theorem ofNat_byte_inj {a b : Nat} (ha : a < 256) (hb : b < 256) (h : BitVec.ofNat 8 a = BitVec.ofNat 8 b) : a = b := by
  have := congrArg BitVec.toNat h
  rwa [BitVec.toNat_ofNat, BitVec.toNat_ofNat, Nat.mod_eq_of_lt ha, Nat.mod_eq_of_lt hb] at this

theorem gfAdd_eq_zero {x y : Byte} : gfAdd x y = 0 ↔ x = y := BitVec.xor_eq_zero_iff

/-- The node of recovery row `i` is not the node of data column `j`: the rows are numbered after the columns. -/
theorem cauchyNodes_ne {k i j : Nat} (hi : k + i < 256) (hj : j < k) : gfAdd (BitVec.ofNat 8 (k + i)) (BitVec.ofNat 8 j) ≠ 0 := by
  rw [Ne, gfAdd_eq_zero]
  intro h
  have := ofNat_byte_inj hi (by omega) h
  omega

theorem cauchyEntry_ne_zero (idx : Fin 16) {k i j : Nat} (hi : k + i < 256) (hj : j < k) : cauchyEntry (.built idx) k i j ≠ 0 :=
  ginv_ne (cauchyNodes_ne hi hj)

/-! ## Square submatrices -/

/-- The square submatrix of the Cauchy matrix on the given rows and columns. -/
def cauchySubmatrix (st : Store) (k : Nat) (rows cols : Nat → Nat) (n : Nat) : Mat :=
  Mat.build n n fun t u => cauchyEntry st k (rows t) (cols u)

theorem cauchySubmatrix_get {st : Store} {k n t u : Nat} {rows cols : Nat → Nat} (ht : t < n) (hu : u < n) :
    (cauchySubmatrix st k rows cols n).get t u = cauchyEntry st k (rows t) (cols u) := get_build ht hu

theorem productIsIdentity_congr {st : Store} {n : Nat} {a a' b b' : Nat → Nat → Byte} (ha : ∀ r, r < n → ∀ c, c < n → a r c = a' r c)
    (hb : ∀ r, r < n → ∀ c, c < n → b r c = b' r c) (h : productIsIdentity st n a b) : productIsIdentity st n a' b' := by
  intro r hr c hc
  rw [← h r hr c hc]
  exact xorSum_congr fun j hj => by rw [ha r hr j hj, hb j hj c hc]

/-- An inverse is one of the n × n entries only. -/
theorem isInverse_congr {st : Store} {n : Nat} {a a' b : Nat → Nat → Byte} (h : ∀ r, r < n → ∀ c, c < n → a r c = a' r c)
    (hab : isInverse st n a b) : isInverse st n a' b :=
  ⟨productIsIdentity_congr h (fun _ _ _ _ => rfl) hab.1, productIsIdentity_congr (fun _ _ _ _ => rfl) h hab.2⟩

section Submatrix

variable {idx : Fin 16} {k m n : Nat} {rows cols : Nat → Nat} (hkm : k + m ≤ 256) (hrow : ∀ t, t < n → rows t < m)
  (hcol : ∀ u, u < n → cols u < k) (hrows : Set.InjOn rows (Finset.range n)) (hcols : Set.InjOn cols (Finset.range n))
include hkm hrow hcol hrows hcols

/-- The elimination never finds a square submatrix of the Cauchy matrix singular: its kernel is 0 (R152). -/
theorem gfInvert_cauchySubmatrix_ne_none :
    gfInvert (.built idx) n (cauchySubmatrix (.built idx) k rows cols n) ≠ none := by
  intro hnone
  obtain ⟨F, _, φ, hφ⟩ := exists_fieldModel idx
  rcases gfInvert_cases hφ n (cauchySubmatrix (.built idx) k rows cols n) with ⟨b, hb, -⟩ | ⟨-, i, hi, v, hv, hker⟩
  · cases hnone.symm.trans hb
  refine one_ne_zero (hv.symm.trans (cauchy_kernel hφ.two (n := n) (x := fun t => φ (BitVec.ofNat 8 (k + rows t)))
    (y := fun u => φ (BitVec.ofNat 8 (cols u))) ?_ ?_ (fun t ht u hu => ?_) (fun t ht => ?_) hi))
  · intro t ht t' ht' e
    have h1 := hrow t (Finset.mem_range.mp ht)
    have h2 := hrow t' (Finset.mem_range.mp ht')
    have := ofNat_byte_inj (by omega) (by omega) (hφ.inj e)
    exact hrows ht ht' (by omega)
  · intro u hu u' hu' e
    have h1 := hcol u (Finset.mem_range.mp hu)
    have h2 := hcol u' (Finset.mem_range.mp hu')
    exact hcols hu hu' (ofNat_byte_inj (by omega) (by omega) (hφ.inj e))
  · have := hrow t ht
    rw [← hφ.add, hφ.ne_zero]
    exact cauchyNodes_ne (by omega) (hcol u hu)
  · rw [← hker t ht]
    refine Finset.sum_congr rfl fun u hu => ?_
    rw [Mat.val, cauchySubmatrix_get ht (Finset.mem_range.mp hu), cauchyEntry, hφ.inv, hφ.add]

/-- Every square submatrix of the Cauchy matrix has an inverse, which `gf_invert` finds (R152). -/
theorem gfInvert_cauchySubmatrix : ∃ b, gfInvert (.built idx) n (cauchySubmatrix (.built idx) k rows cols n) = some b ∧
    isInverse (.built idx) n (fun t u => cauchyEntry (.built idx) k (rows t) (cols u)) b.get := by
  obtain ⟨b, hb⟩ := Option.ne_none_iff_exists'.mp (gfInvert_cauchySubmatrix_ne_none hkm hrow hcol hrows hcols)
  obtain ⟨F, _, φ, hφ⟩ := exists_fieldModel idx
  exact ⟨b, hb, isInverse_congr (fun t ht u hu => cauchySubmatrix_get ht hu) (isInverse_of_gfInvert_eq_some hφ hb)⟩

end Submatrix

theorem injOn_getD {l : List Nat} (h : l.Nodup) : Set.InjOn (fun t => l.getD t 0) (Finset.range l.length) := by
  intro t ht u hu e
  have ht := Finset.mem_range.mp ht
  have hu := Finset.mem_range.mp hu
  simp only [List.getD, List.getElem?_eq_getElem ht, List.getElem?_eq_getElem hu, Option.getD_some] at e
  exact (h.getElem_inj_iff).mp e

/-! ## CAUCHY -/

theorem cauchyCheck_invalidParameters {s : State} (h : ¬ s.goodBlockCounts) : cauchyCheck s = some .invalidParameters := by
  have hbad : s.badBlockCounts = true := by rwa [← Bool.not_eq_false, badBlockCounts_eq_false]
  rw [cauchyCheck, firstError, hbad, if_pos rfl]

theorem cauchyCheck_nullData {s : State} (hc : s.goodBlockCounts) (hd : s.dst = 0) : cauchyCheck s = some .nullData := by
  simp [cauchyCheck, firstError, badBlockCounts_eq_false.mpr hc, isNull_eq_true.mpr hd]

theorem cauchyCheck_addressRange {s : State} (hc : s.goodBlockCounts) (hd : s.dst ≠ 0) (hi : s.status.init = true)
    (h : s.cfg.memBytes < s.dst.toNat + s.m.toNat * s.k.toNat) : cauchyCheck s = some .addressRange := by
  obtain ⟨hk, hm, -⟩ := id hc
  have hrange : s.outOfRange s.cauchyOutput = true := outOfRange_of_pos (Nat.mul_pos hm hk) h
  simp [cauchyCheck, firstError, badBlockCounts_eq_false.mpr hc, isNull_eq_false.mpr hd, uninitialized_eq_false.mpr hi, hrange]

/-- A failed check ends CAUCHY with its code, RESULT 0 and no other effect (R231, R233). -/
theorem exec_cauchy_checkFails {s : State} {e : ErrorKind} (h : cauchyCheck s = some e) :
    exec .cauchy s = .next (s.ended 0 e.code) := by
  rw [exec, execCauchy, h, checked_some, raise_eq_ended]

theorem exec_cauchy_ready {s : State} (h : s.cauchyReady) :
    exec .cauchy s = .next ((s.writeAll s.cauchyCells).ended 0 0) := by
  rw [exec, execCauchy, cauchyCheck_eq_none.mpr h, checked_none, finish_eq_next]

end Sys2Proof.Machine
end

section
/-! CLAIMS. The statements on CAUCHY and on the Cauchy matrix (41_cauchy.md). -/

namespace Sys2Proof.Proofs

open Sys2Proof.Machine

/-- Settles O39: each clause makes one check the first that fails, and its error alone ends the command. -/
theorem cauchyChecks : Obligations.CauchyChecks := fun _ =>
  ⟨fun h => exec_cauchy_checkFails (cauchyCheck_invalidParameters h),
    fun hc hd => exec_cauchy_checkFails (cauchyCheck_nullData hc hd),
    fun hc hd hi => exec_cauchy_checkFails (cauchyCheck_uninitialized hi hc hd),
    fun hc hd hi h => exec_cauchy_checkFails (cauchyCheck_addressRange hc hd hi h)⟩

/-- Settles O40: the writes are the matrix in row-major order; an entry is the inverse of a sum of two different nodes. -/
theorem cauchyWritesTheMatrix : Obligations.CauchyWritesTheMatrix := by
  intro s hready hw
  obtain ⟨-, -, hkm⟩ := hready.1
  refine ⟨_, exec_cauchy_ready hready, rfl, fun i hi j hj => ?_, fun a ha => Memory.read_matrixCells_outside ha⟩
  have hread := Memory.read_matrixCells (base := s.dst.toNat) (f := fun i j => cauchyEntry s.store s.k.toNat i j) hw hi hj
  refine ⟨hread, fun ⟨idx, hstore⟩ => ?_⟩
  refine Eq.trans_ne hread ?_
  rw [hstore]
  exact cauchyEntry_ne_zero idx (by omega) hj

/-- Settles O41: a kernel vector of the submatrix would be one of a Cauchy matrix on distinct nodes, which has none but 0. -/
theorem cauchySubmatricesInvert : Obligations.CauchySubmatricesInvert := by
  intro idx k m rows cols hkm hrows hcols hr hc hlen
  refine gfInvert_cauchySubmatrix hkm (fun t ht => hr _ (getD_mem_of_lt ht 0)) (fun u hu => hc _ (getD_mem_of_lt (hlen ▸ hu) 0))
    (injOn_getD hrows) ?_
  rw [hlen]
  exact injOn_getD hcols

end Sys2Proof.Proofs
end

section
/-! SUPPORT. ENCODE past its checks (R161, R162): its parity bytes as sums, and the loops of its in-place pseudocode, each with what
it leaves in the recovery bytes and in every other byte. INVERT past its checks (R181). -/

namespace Sys2Proof.Machine

theorem exec_encode_ready {s : State} (hr : s.encodeReady) (ha : s.encodeApart) :
    exec .encode s = .next ((s.writeAll s.encodeCells).ended 0 0) := by
  rw [exec, execEncode, encodeCheck_eq_none.mpr hr, checked_none, encodeOverlaps_eq_false.mpr ha, finish_eq_next.mpr rfl]
  rfl

/-! ## The parity bytes -/

theorem parityByte_eq {s : State} {idx : Fin 16} (hstore : s.store = .built idx) (i p : Nat) : s.parityByte i p =
    xorSum s.k.toNat fun j =>
      gfMul s.store (s.mem.read (s.src.toNat + j * s.blockBytes.toNat + p)) (cauchyEntry s.store s.k.toNat i j) := by
  rw [State.parityByte, hstore, foldl_gfAccumulate idx _ (fun j => cauchyEntry (.built idx) s.k.toNat i j)
    (fun j => s.mem.read (s.dataByteAddr j p))]
  exact BitVec.zero_xor

theorem xorSum_zero (n : Nat) : xorSum n (fun _ => 0) = 0 := by
  unfold xorSum
  induction n with
  | zero => rfl
  | succ n ih =>
    rw [List.range_succ, List.foldl_append, ih]
    exact BitVec.xor_zero

theorem xorSum_one (f : Nat → Byte) : xorSum 1 f = f 0 := BitVec.zero_xor

/-- The one coefficient of a code of one data block and one recovery block. -/
theorem cauchyEntry_one (idx : Fin 16) : cauchyEntry (.built idx) 1 0 0 = 1 := ginv_one idx

/-- An offset into a matrix has a row and a column. -/
theorem exists_rowMajor {rows cols q : Nat} (h : q < rows * cols) : ∃ r, r < rows ∧ ∃ c, c < cols ∧ q = r * cols + c := by
  have hpos : 0 < cols := Nat.pos_of_lt_mul_left h
  exact ⟨q / cols, Nat.div_lt_of_lt_mul (Nat.mul_comm rows cols ▸ h), q % cols, Nat.mod_lt q hpos,
    by rw [Nat.mul_comm, Nat.div_add_mod]⟩

/-! ## The loops of ENCODE's pseudocode -/

theorem dataByteAddr_ne_recoveryByteAddr {s : State} (ha : s.encodeApart) {i j p q : Nat} (hj : j < s.k.toNat)
    (hp : p < s.blockBytes.toNat) (hi : i < s.m.toNat) (hq : q < s.blockBytes.toNat) :
    s.dataByteAddr j p ≠ s.recoveryByteAddr i q := by
  have h1 := rowMajor_lt hj hp
  have h2 := rowMajor_lt hi hq
  intro e
  simp only [State.dataByteAddr, State.recoveryByteAddr] at e
  exact ha (s.src.toNat + j * s.blockBytes.toNat + p) (by omega) (by omega) ⟨by omega, by omega⟩

theorem recoveryByteAddr_inj {s : State} {i i' p p' : Nat} (hp : p < s.blockBytes.toNat) (hp' : p' < s.blockBytes.toNat)
    (h : s.recoveryByteAddr i p = s.recoveryByteAddr i' p') : i = i' ∧ p = p' := by
  simp only [State.recoveryByteAddr] at h
  exact rowMajor_inj hp hp' (by omega)

/-- A recovery byte lies in the recovery buffer. -/
theorem recoveryByteAddr_offset {s : State} {i p : Nat} (hi : i < s.m.toNat) (hp : p < s.blockBytes.toNat) :
    ∃ q, q < s.m.toNat * s.blockBytes.toNat ∧ s.recoveryByteAddr i p = s.dst.toNat + q :=
  ⟨_, rowMajor_lt hi hp, Nat.add_assoc ..⟩

/-- An address in the recovery buffer is that of a recovery byte. -/
theorem exists_recoveryByteAddr {s : State} {q : Nat} (h : q < s.m.toNat * s.blockBytes.toNat) :
    ∃ i, i < s.m.toNat ∧ ∃ p, p < s.blockBytes.toNat ∧ s.dst.toNat + q = s.recoveryByteAddr i p := by
  obtain ⟨i, hi, p, hp, rfl⟩ := exists_rowMajor h
  exact ⟨i, hi, p, hp, (Nat.add_assoc ..).symm⟩

/-- A loop that rewrites the bytes from `base` on one by one, each from itself and from the byte as far into a range apart. -/
theorem foldl_rewrite (f : Byte → Byte → Byte) {base other n : Nat} (hapart : ∀ p, p < n → ∀ q, q < n → other + p ≠ base + q)
    {mem mem' : Memory} (hw : mem.wf = true) (hmem' : mem' = (List.range n).foldl
      (fun mm p => mm.write (base + p) (f (mm.read (other + p)) (mm.read (base + p)))) mem) :
    mem'.wf = true ∧ (∀ p, p < n → mem'.read (base + p) = f (mem.read (other + p)) (mem.read (base + p))) ∧
      ∀ a, (∀ p, p < n → a ≠ base + p) → mem'.read a = mem.read a := by
  induction n generalizing mem' with
  | zero => subst hmem'; exact ⟨hw, fun p hp => absurd hp (Nat.not_lt_zero p), fun _ _ => rfl⟩
  | succ n ih =>
    rw [List.range_succ, List.foldl_append] at hmem'
    obtain ⟨hwn, hin, hout⟩ := ih (fun p hp q hq => hapart p (by omega) q (by omega)) rfl
    generalize List.foldl _ mem (List.range n) = memn at hmem' hwn hin hout
    subst hmem'
    have hother : memn.read (other + n) = mem.read (other + n) := hout _ fun q hq => hapart n (by omega) q (by omega)
    have hbase : memn.read (base + n) = mem.read (base + n) := hout _ fun q hq => by omega
    simp only [List.foldl_cons, List.foldl_nil, Memory.read_write hwn, hother, hbase]
    refine ⟨Memory.write_wf _ _ hwn, fun p hp => ?_, fun a ha => ?_⟩
    · by_cases hpn : p = n
      · rw [if_pos (by omega), hpn]
      · rw [if_neg (by omega), hin p (by omega)]
    · rw [if_neg (ha n (by omega)), hout a fun p hp => ha p (by omega)]

/-- The first `n` columns of recovery row `i` accumulated into `acc` at byte `p`, with the data bytes of `mem` (R161). -/
def State.addColumns (s : State) (mem : Memory) (i n p : Nat) (acc : Byte) : Byte :=
  (List.range n).foldl
    (fun acc j => gfAccumulate s.store (cauchyEntry s.store s.k.toNat i j) (mem.read (s.dataByteAddr j p)) acc) acc

theorem addColumns_succ (s : State) (mem : Memory) (i n p : Nat) (acc : Byte) : s.addColumns mem i (n + 1) p acc =
    gfAccumulate s.store (cauchyEntry s.store s.k.toNat i n) (mem.read (s.dataByteAddr n p)) (s.addColumns mem i n p acc) := by
  rw [State.addColumns, List.range_succ, List.foldl_append]
  rfl

/-- `mem'` is `mem` with the first `n` columns added into recovery row `i`. -/
structure ColumnsAdded (s : State) (i n : Nat) (mem mem' : Memory) : Prop where
  wf : mem'.wf = true
  row : ∀ p, p < s.blockBytes.toNat →
    mem'.read (s.recoveryByteAddr i p) = s.addColumns mem i n p (mem.read (s.recoveryByteAddr i p))
  frame : ∀ a, (∀ p, p < s.blockBytes.toNat → a ≠ s.recoveryByteAddr i p) → mem'.read a = mem.read a

/-- `mem'` is `mem` with all columns added into the first `n` recovery rows. -/
structure RowsAdded (s : State) (n : Nat) (mem mem' : Memory) : Prop where
  wf : mem'.wf = true
  rows : ∀ i, i < n → ∀ p, p < s.blockBytes.toNat →
    mem'.read (s.recoveryByteAddr i p) = s.addColumns mem i s.k.toNat p (mem.read (s.recoveryByteAddr i p))
  frame : ∀ a, (∀ i, i < n → ∀ p, p < s.blockBytes.toNat → a ≠ s.recoveryByteAddr i p) → mem'.read a = mem.read a

section Loops

variable {s : State} (ha : s.encodeApart) {mem : Memory} (hw : mem.wf = true)
include ha hw

/-- The innermost loop adds one column. -/
theorem encodeColumn_spec {i j : Nat} (hi : i < s.m.toNat) (hj : j < s.k.toNat) :
    (encodeColumn s i j mem).wf = true ∧
      (∀ p, p < s.blockBytes.toNat → (encodeColumn s i j mem).read (s.recoveryByteAddr i p) =
        gfAccumulate s.store (cauchyEntry s.store s.k.toNat i j) (mem.read (s.dataByteAddr j p))
          (mem.read (s.recoveryByteAddr i p))) ∧
      ∀ a, (∀ p, p < s.blockBytes.toNat → a ≠ s.recoveryByteAddr i p) → (encodeColumn s i j mem).read a = mem.read a := by
  unfold gfAccumulate
  by_cases hzero : cauchyEntry s.store s.k.toNat i j = 0
  · have hcolumn : encodeColumn s i j mem = mem := if_pos hzero
    rw [hcolumn]
    exact ⟨hw, fun p _ => (if_pos hzero).symm, fun _ _ => rfl⟩
  · have hloop := foldl_rewrite
      (fun d o => o ^^^ if cauchyEntry s.store s.k.toNat i j = 1 then d else s.store.mult (cauchyEntry s.store s.k.toNat i j) d)
      (fun p hp q hq => dataByteAddr_ne_recoveryByteAddr ha hj hp hi hq) hw (if_neg hzero : encodeColumn s i j mem = _)
    obtain ⟨hwf, hrow, hframe⟩ := hloop
    refine ⟨hwf, fun p hp => (hrow p hp).trans ?_, hframe⟩
    rw [if_neg hzero]
    split <;> rfl

theorem columnsAdded {i n : Nat} (hi : i < s.m.toNat) (hn : n ≤ s.k.toNat) :
    ColumnsAdded s i n mem ((List.range n).foldl (fun mj j => encodeColumn s i j mj) mem) := by
  induction n with
  | zero => exact ⟨hw, fun _ _ => rfl, fun _ _ => rfl⟩
  | succ n ih =>
    obtain ⟨hwn, hrow, hframe⟩ := ih (by omega)
    rw [List.range_succ, List.foldl_append]
    generalize List.foldl _ mem (List.range n) = memn at hwn hrow hframe
    obtain ⟨hwf, hin, hout⟩ := encodeColumn_spec ha hwn hi (show n < s.k.toNat by omega)
    refine ⟨hwf, fun p hp => ?_, fun a hne => (hout a hne).trans (hframe a hne)⟩
    have hdata : memn.read (s.dataByteAddr n p) = mem.read (s.dataByteAddr n p) :=
      hframe _ fun q hq => dataByteAddr_ne_recoveryByteAddr ha (by omega) hp hi hq
    rw [addColumns_succ, ← hrow p hp, ← hdata]
    exact hin p hp

theorem rowsAdded {n : Nat} (hn : n ≤ s.m.toNat) : RowsAdded s n mem ((List.range n).foldl
    (fun mi i => (List.range s.k.toNat).foldl (fun mj j => encodeColumn s i j mj) mi) mem) := by
  induction n with
  | zero => exact ⟨hw, fun i hi => absurd hi (Nat.not_lt_zero i), fun _ _ => rfl⟩
  | succ n ih =>
    obtain ⟨hwn, hrows, hframe⟩ := ih (by omega)
    rw [List.range_succ, List.foldl_append]
    generalize List.foldl _ mem (List.range n) = memn at hwn hrows hframe
    obtain ⟨hwf, hrow, hout⟩ := columnsAdded ha hwn (show n < s.m.toNat by omega) (le_refl s.k.toNat)
    refine ⟨hwf, fun i hi p hp => ?_, fun a hne => ?_⟩
    · by_cases hin : i = n
      · subst hin
        have hold : memn.read (s.recoveryByteAddr i p) = mem.read (s.recoveryByteAddr i p) := hframe _ fun i' hi' p' hp' e => by
          have := (recoveryByteAddr_inj hp hp' e).1
          omega
        refine (hrow p hp).trans ?_
        rw [hold]
        refine foldl_congr_mem (fun j hj acc => ?_) _
        rw [hframe _ fun i' hi' q hq =>
          dataByteAddr_ne_recoveryByteAddr ha (List.mem_range.mp hj) hp (show i' < s.m.toNat by omega) hq]
      · rw [← hrows i (by omega) p hp]
        exact hout _ fun p' hp' e => hin (recoveryByteAddr_inj hp hp' e).1
    · exact (hout a (hne n (by omega))).trans (hframe a fun i hi => hne i (by omega))

end Loops

/-- ENCODE's writes leave the memory that its pseudocode leaves (R161). -/
theorem encodePseudocode_eq {s : State} (ha : s.encodeApart) (hw : s.mem.wf = true) :
    encodePseudocode s = s.mem.writeAll s.encodeCells := by
  obtain ⟨hwz, hzero, hframe⟩ := foldl_rewrite (fun _ _ => 0) (base := s.dst.toNat)
    (other := s.dst.toNat + s.m.toNat * s.blockBytes.toNat) (n := s.m.toNat * s.blockBytes.toNat)
    (fun p hp q hq => by omega) hw rfl
  unfold encodePseudocode
  generalize List.foldl _ s.mem _ = memz at hwz hzero hframe
  obtain ⟨hwf, hrows, hout⟩ := rowsAdded ha hwz (le_refl s.m.toNat)
  refine Memory.ext_of_read hwf (Memory.writeAll_wf _ hw) fun a => ?_
  by_cases hin : s.dst.toNat ≤ a ∧ a < s.dst.toNat + s.m.toNat * s.blockBytes.toNat
  · obtain ⟨q, rfl⟩ := Nat.exists_eq_add_of_le hin.1
    have hq : q < s.m.toNat * s.blockBytes.toNat := by omega
    have hz := hzero q hq
    obtain ⟨i, hi, p, hp, e⟩ := exists_recoveryByteAddr hq
    have hparity : (s.mem.writeAll s.encodeCells).read (s.recoveryByteAddr i p) = s.addColumns s.mem i s.k.toNat p 0 :=
      Memory.read_matrixCells hw hi hp
    rw [e] at hz ⊢
    rw [hrows i hi p hp, hparity, hz]
    refine foldl_congr_mem (fun j hj acc => ?_) _
    rw [hframe]
    intro q hq e
    obtain ⟨i', hi', p', hp', e'⟩ := exists_recoveryByteAddr hq
    exact dataByteAddr_ne_recoveryByteAddr ha (List.mem_range.mp hj) hp hi' hp' (e.trans e')
  · have hparity : (s.mem.writeAll s.encodeCells).read a = s.mem.read a := Memory.read_matrixCells_outside hin
    rw [hparity, hout, hframe]
    · intro q hq
      omega
    · intro i hi p hp e
      obtain ⟨q, hq, e'⟩ := recoveryByteAddr_offset hi hp
      omega

/-! ## INVERT -/

theorem invertMatrix_get {s : State} {r c : Nat} (hr : r < s.n.toNat) (hc : c < s.n.toNat) :
    s.invertMatrix.get r c = s.mem.read (s.src.toNat + r * s.n.toNat + c) := get_build hr hc

theorem exec_invert_singular {s : State} (hr : s.invertReady) (h : gfInvert s.store s.n.toNat s.invertMatrix = none) :
    exec .invert s = .next (s.ended 0 5) := by
  rw [exec, execInvert, invertCheck_eq_none.mpr hr, checked_none, invertBody, h]
  rfl

theorem exec_invert_inverse {s : State} {b : Mat} (hr : s.invertReady) (h : gfInvert s.store s.n.toNat s.invertMatrix = some b) :
    exec .invert s = .next ((s.writeAll (s.invertCells b)).ended 0 0) := by
  rw [exec, execInvert, invertCheck_eq_none.mpr hr, checked_none, invertBody, h]
  rfl

end Sys2Proof.Machine
end

section
/-! CLAIMS. The statements on what ENCODE and INVERT write (42_encoder.md, 43_inverter.md). -/

namespace Sys2Proof.Proofs

open Sys2Proof.Machine

/-- Settles O43: the writes are the parity bytes in row-major order, each the sum that R162 gives. -/
theorem encodeClosedForm : Obligations.EncodeClosedForm := by
  intro s idx hr ha hw hstore
  refine ⟨_, exec_encode_ready hr ha, rfl, fun i hi p hp => ?_, fun a hout => Memory.read_matrixCells_outside hout⟩
  exact (Memory.read_matrixCells (f := fun i p => s.parityByte i p) hw hi hp).trans (parityByte_eq hstore i p)

/-- Settles O44: each loop of the pseudocode reads data bytes that no loop writes, so it accumulates what ENCODE writes at once. -/
theorem encodeIsItsPseudocode : Obligations.EncodeIsItsPseudocode := by
  intro s hr ha hw
  rw [exec_encode_ready hr ha, encodePseudocode_eq ha hw]
  rfl

/-- Settles O45: both cases are the closed form, with its one coefficient 1 or with every summand 0. -/
theorem encodeCornerCases : Obligations.EncodeCornerCases := by
  intro s t idx hr ha hw hstore ht
  obtain ⟨t', ht', -, hbytes, -⟩ := encodeClosedForm s idx hr ha hw hstore
  obtain rfl := Host.Outcome.next.inj (ht'.symm.trans ht)
  refine ⟨fun hk hm p hp => ?_, fun hzero q hq => ?_⟩
  · have hbyte := hbytes 0 (by rw [hm]; decide) p hp
    rw [hk, show (1 : Word).toNat = 1 from rfl, xorSum_one, hstore, cauchyEntry_one, gmul_one] at hbyte
    simpa using hbyte
  · obtain ⟨i, hi, p, hp, rfl⟩ := exists_rowMajor hq
    rw [← Nat.add_assoc, hbytes i hi p hp, ← xorSum_zero s.k.toNat]
    refine xorSum_congr fun j hj => ?_
    rw [Nat.add_assoc, hzero _ (rowMajor_lt hj hp), hstore, gzero_mul]

/-- Settles O49: the whole matrix is read before the first write, and `gf_invert` finds the inverse exactly when there is one. -/
theorem invertWritesTheInverse : Obligations.InvertWritesTheInverse := by
  intro s idx a hr hw hstore hread
  obtain ⟨F, _, φ, hφ⟩ := exists_fieldModel idx
  rw [← hstore] at hφ
  have entry : ∀ r, r < s.n.toNat → ∀ c, c < s.n.toNat → a r c = s.invertMatrix.get r c := fun r hr c hc => by
    rw [hread, invertMatrix_get hr hc]
  refine ⟨fun b hb => ?_, fun hnone => ?_⟩
  · have hb' : isInverse s.store s.n.toNat s.invertMatrix.get b := isInverse_congr entry hb
    cases hg : gfInvert s.store s.n.toNat s.invertMatrix with
    | none => exact absurd hb' (not_isInverse_of_gfInvert_eq_none hφ hg b)
    | some inv =>
      refine ⟨_, exec_invert_inverse hr hg, rfl, fun r hr c hc => ?_, fun a hout => Memory.read_matrixCells_outside hout⟩
      rw [isInverse_unique hφ (isInverse_of_gfInvert_eq_some hφ hg) hb' hr hc]
      exact Memory.read_matrixCells (f := fun r c => inv.get r c) hw hr hc
  · refine exec_invert_singular hr ((gfInvert_eq_none_iff hφ).mpr fun ⟨b, hb⟩ => hnone ⟨b, ?_⟩)
    exact isInverse_congr (fun r hr c hc => (entry r hr c hc).symm) hb

end Sys2Proof.Proofs
end

section
/-! SUPPORT. The host's memory accesses by their outcome (R60, R79): out of memory, on buffers in use, or performed. -/

namespace Sys2Proof.Machine

theorem outOfRange_empty (s : State) (a : Nat) : s.outOfRange ⟨a, 0⟩ = false := outOfRange_eq_false.mpr (.inl rfl)

theorem outOfRange_of_fits {s : State} {a n : Nat} (h : a + n ≤ s.cfg.memBytes) : s.outOfRange ⟨a, n⟩ = false :=
  outOfRange_eq_false.mpr (.inr h)

/-- An access touches ranges where one of its bytes lies in one of them. -/
theorem touches_eq_true {a n : Nat} {rs : List Range} : touches a n rs = true ↔ ∃ q, q < n ∧ anyHas rs (a + q) = true := by
  rw [← Bool.not_eq_false, touches_eq_false]
  simp only [not_forall, Bool.not_eq_false, exists_prop]

theorem touches_empty (a : Nat) (rs : List Range) : touches a 0 rs = false :=
  touches_eq_false.mpr fun q hq => absurd hq (Nat.not_lt_zero q)

section Write

variable {s : State} {a : Nat} {data : List Byte} {rest : List HostAction} (h : s.host = .memw a data :: rest)
include h

theorem hostTurn_memw : hostTurn s = hostMemWrite a data { s with host := rest } := by
  simp only [hostTurn, h]

theorem hostTurn_memw_outside (hlen : 0 < data.length) (hout : s.cfg.memBytes < a + data.length) :
    hostTurn s = .fault .noSuchAddress := by
  rw [hostTurn_memw h, hostMemWrite, outOfRange_of_pos hlen hout, if_pos rfl]

theorem hostTurn_memw_inUse (hin : a + data.length ≤ s.cfg.memBytes)
    (ht : touches a data.length (s.readSetInFlight ++ s.writeSetInFlight) = true) : hostTurn s = .refused .buffersInUse := by
  rw [hostTurn_memw h, hostMemWrite]
  exact (if_neg (Bool.eq_false_iff.mp (outOfRange_of_fits hin))).trans (if_pos ht)

theorem hostTurn_memw_performed (hin : s.outOfRange ⟨a, data.length⟩ = false)
    (ht : touches a data.length (s.readSetInFlight ++ s.writeSetInFlight) = false) :
    hostTurn s = .next { s with host := rest, mem := s.mem.writeAll (cellsAt a data) } := by
  rw [hostTurn_memw h, hostMemWrite]
  exact (if_neg (Bool.eq_false_iff.mp hin)).trans (if_neg (Bool.eq_false_iff.mp ht))

end Write

section Read

variable {s : State} {a n : Nat} {name : String} {rest : List HostAction} (h : s.host = .memr a n name :: rest)
include h

theorem hostTurn_memr : hostTurn s = hostMemRead a n name { s with host := rest } := by
  simp only [hostTurn, h]

theorem hostTurn_memr_outside (hlen : 0 < n) (hout : s.cfg.memBytes < a + n) : hostTurn s = .fault .noSuchAddress := by
  rw [hostTurn_memr h, hostMemRead, outOfRange_of_pos hlen hout, if_pos rfl]

theorem hostTurn_memr_inUse (hin : a + n ≤ s.cfg.memBytes) (ht : touches a n s.writeSetInFlight = true) :
    hostTurn s = .refused .buffersInUse := by
  rw [hostTurn_memr h, hostMemRead]
  exact (if_neg (Bool.eq_false_iff.mp (outOfRange_of_fits hin))).trans (if_pos ht)

theorem hostTurn_memr_performed (hin : s.outOfRange ⟨a, n⟩ = false) (ht : touches a n s.writeSetInFlight = false) :
    hostTurn s = .next { s with
      host := rest, bindings := (name, .bytes (s.mem.readBytes a n)) :: s.bindings.filter fun b => b.1 != name } := by
  rw [hostTurn_memr h, hostMemRead]
  exact (if_neg (Bool.eq_false_iff.mp hin)).trans (if_neg (Bool.eq_false_iff.mp ht))

end Read

/-- Data written by the host changes the bytes it names only. -/
theorem read_cellsAt_outside {mem : Memory} {a c : Nat} {data : List Byte} (h : ¬ (a ≤ c ∧ c < a + data.length)) :
    (mem.writeAll (cellsAt a data)).read c = mem.read c := by
  refine Memory.read_writeAll_of_forall_ne fun w hw e => h ?_
  obtain ⟨q, hq, rfl⟩ := mem_cellsAt.mp hw
  simp only at e
  omega

end Sys2Proof.Machine
end

section
/-! SUPPORT. A command answers alike in two states that agree on what it reads (R75, R77): the same writes, the same RESULT and the
same ERR. The host's step in flight gives two such states. -/

namespace Sys2Proof.Machine

/-! ## The same end -/

/-- Where `o` is a next state, a command that ran in `s` and one that ran in `s1` have ended alike: the same writes, all to the
ranges `rs`, over the memory of each, the same RESULT and the same ERR. -/
def SameEnd (s s1 : State) (rs : List Range) (o o1 : Host.Outcome State Fault Refusal) : Prop :=
  ∀ t, o = .next t → ∃ ws v code, (∀ w ∈ ws, anyHas rs w.1 = true) ∧ t = (s.writeAll ws).ended v code ∧
    o1 = .next ((s1.writeAll ws).ended v code)

section SameEnd

variable {s s1 : State} {rs : List Range}

theorem SameEnd.ended {ws : List Host.Cell} (hws : ∀ w ∈ ws, anyHas rs w.1 = true) (v : Word) (code : BitVec 4) :
    SameEnd s s1 rs (.next ((s.writeAll ws).ended v code)) (.next ((s1.writeAll ws).ended v code)) :=
  fun _ h => ⟨ws, v, code, hws, (Host.Outcome.next.inj h).symm, rfl⟩

theorem SameEnd.fails (e : ErrorKind) : SameEnd s s1 rs (failWith e 0 s) (failWith e 0 s1) :=
  SameEnd.ended (ws := []) nofun 0 e.code

theorem SameEnd.finishes (v : Word) : SameEnd s s1 rs (finish v s) (finish v s1) := SameEnd.ended (ws := []) nofun v 0

theorem SameEnd.refused (r : Refusal) (o1 : Host.Outcome State Fault Refusal) : SameEnd s s1 rs (.refused r) o1 := nofun

theorem SameEnd.checked {c c1 : Option ErrorKind} {body body1 : Host.Outcome State Fault Refusal} (hc : c1 = c)
    (h : c = none → SameEnd s s1 rs body body1) : SameEnd s s1 rs (checked c s body) (Machine.checked c1 s1 body1) := by
  subst hc
  cases c1 with
  | none => exact h rfl
  | some e => exact SameEnd.fails e

theorem SameEnd.ite {p : Prop} [Decidable p] {a b a1 b1 : Host.Outcome State Fault Refusal} (ha : p → SameEnd s s1 rs a a1)
    (hb : ¬ p → SameEnd s s1 rs b b1) : SameEnd s s1 rs (if p then a else b) (if p then a1 else b1) := by
  by_cases hp : p
  · rw [if_pos hp, if_pos hp]
    exact ha hp
  · rw [if_neg hp, if_neg hp]
    exact hb hp

end SameEnd

/-! ## The same inputs -/

/-- `s1` holds the parameters, the tables and the bytes of the read set that command `i` finds in `s`. -/
structure SameInputs (i : Instr) (s s1 : State) : Prop where
  k : s1.k = s.k
  m : s1.m = s.m
  blockBytes : s1.blockBytes = s.blockBytes
  n : s1.n = s.n
  src : s1.src = s.src
  dst : s1.dst = s.dst
  nblk : s1.nblk = s.nblk
  store : s1.store = s.store
  init : s1.status.init = s.status.init
  cfg : s1.cfg = s.cfg
  reads : ∀ a, anyHas (readSet i s) a = true → s1.mem.read a = s.mem.read a

section Inputs

variable {i : Instr} {s s1 : State} (h : SameInputs i s s1)
include h

theorem SameInputs.read_range {r : Range} (hr : r ∈ readSet i s) {p : Nat} (hp : p < r.len) :
    s1.mem.read (r.base + p) = s.mem.read (r.base + p) :=
  h.reads _ (anyHas_iff.mpr ⟨r, hr, Nat.le_add_right .., Nat.add_lt_add_left hp _⟩)

theorem SameInputs.uninitialized : s1.uninitialized = s.uninitialized := by
  rw [State.uninitialized, State.uninitialized, h.init]

theorem SameInputs.badBlockCounts : s1.badBlockCounts = s.badBlockCounts := by
  rw [State.badBlockCounts, State.badBlockCounts, h.k, h.m]

theorem SameInputs.badBlockBytes : s1.badBlockBytes = s.badBlockBytes := by
  rw [State.badBlockBytes, State.badBlockBytes, h.blockBytes]

theorem SameInputs.outOfRange (r : Range) : s1.outOfRange r = s.outOfRange r := by
  rw [State.outOfRange, State.outOfRange, h.cfg]

end Inputs

/-- The inputs of a command are not the turns, nor the host's actions and bindings. -/
theorem sameInputs_of_host (i : Instr) (s : State) (turns : List Turn) (host : List HostAction)
    (bindings : List (String × HostValue)) : SameInputs i s { s with turns := turns, host := host, bindings := bindings } :=
  ⟨rfl, rfl, rfl, rfl, rfl, rfl, rfl, rfl, rfl, rfl, fun _ _ => rfl⟩

/-! ## The commands that compute from CSRs, tables and one buffer -/

theorem mem_rangesIf_single {c : Option ErrorKind} {r : Range} (hc : c = none) : r ∈ rangesIf c [r] :=
  mem_rangesIf.mpr ⟨hc, List.mem_singleton_self r⟩

theorem matrixCells_in_range {base rows cols : Nat} {f : Nat → Nat → Byte} {rs : List Range} (hr : ⟨base, rows * cols⟩ ∈ rs) :
    ∀ w ∈ matrixCells base rows cols f, anyHas rs w.1 = true := fun _ hw => anyHas_iff.mpr ⟨_, hr, matrixCells_in hw⟩

theorem matrixCells_congr {base rows cols : Nat} {f g : Nat → Nat → Byte} (h : ∀ r, r < rows → ∀ c, c < cols → f r c = g r c) :
    matrixCells base rows cols f = matrixCells base rows cols g := by
  rw [matrixCells, matrixCells, List.flatMap_def, List.flatMap_def]
  congr 1
  refine List.map_congr_left fun r hr => List.map_congr_left fun c hc => ?_
  rw [h r (List.mem_range.mp hr) c (List.mem_range.mp hc)]

section Commands

variable {s s1 : State}

/-- A command of one table read: its check and its entry are functions of the tables and of INIT. -/
theorem tableRead_sameEnd {rs : List Range} {c c1 : Option ErrorKind} {v v1 : Word} (hc : c1 = c) (hv : v1 = v) :
    SameEnd s s1 rs (checked c s (finish v s)) (checked c1 s1 (finish v1 s1)) := by
  subst hv
  exact SameEnd.checked hc fun _ => SameEnd.finishes v1

theorem execCauchy_sameEnd (h : SameInputs .cauchy s s1) : SameEnd s s1 (writeSet .cauchy s) (execCauchy s) (execCauchy s1) := by
  have hcheck : cauchyCheck s1 = cauchyCheck s := by
    rw [cauchyCheck, cauchyCheck, h.badBlockCounts, h.uninitialized, h.outOfRange, State.cauchyOutput, State.cauchyOutput, h.k,
      h.m, h.dst]
  have hcells : s1.cauchyCells = s.cauchyCells := by
    rw [State.cauchyCells, State.cauchyCells, h.dst, h.m, h.k, h.store]
  refine SameEnd.checked hcheck fun hc => ?_
  rw [hcells]
  exact SameEnd.ended (matrixCells_in_range (mem_rangesIf_single hc)) 0 0

theorem execEncode_sameEnd (h : SameInputs .encode s s1) : SameEnd s s1 (writeSet .encode s) (execEncode s) (execEncode s1) := by
  have hin : s1.encodeInput = s.encodeInput := by rw [State.encodeInput, State.encodeInput, h.src, h.k, h.blockBytes]
  have hout : s1.encodeOutput = s.encodeOutput := by rw [State.encodeOutput, State.encodeOutput, h.dst, h.m, h.blockBytes]
  have hcheck : encodeCheck s1 = encodeCheck s := by
    rw [encodeCheck, encodeCheck, h.badBlockCounts, h.badBlockBytes, h.uninitialized, h.outOfRange, h.outOfRange, hin, hout, h.src,
      h.dst]
  have hoverlaps : s1.encodeOverlaps = s.encodeOverlaps := by rw [State.encodeOverlaps, State.encodeOverlaps, hin, hout]
  refine SameEnd.checked hcheck fun hc => ?_
  rw [hoverlaps]
  refine SameEnd.ite (fun _ => SameEnd.refused _ _) fun _ => ?_
  have hset : s.encodeInput ∈ readSet .encode s := mem_rangesIf_single hc
  have hcells : s1.encodeCells = s.encodeCells := by
    rw [State.encodeCells, State.encodeCells, h.dst, h.m, h.blockBytes]
    refine matrixCells_congr fun i _ p hp => ?_
    rw [State.parityByte, State.parityByte, h.k, h.store]
    refine foldl_congr_mem (fun j hj acc => ?_) _
    have hread : s1.mem.read (s.src.toNat + (j * s.blockBytes.toNat + p)) =
        s.mem.read (s.src.toNat + (j * s.blockBytes.toNat + p)) := h.read_range hset (rowMajor_lt (List.mem_range.mp hj) hp)
    rw [State.dataByteAddr, State.dataByteAddr, h.src, h.blockBytes, Nat.add_assoc, hread]
  rw [hcells]
  exact SameEnd.ended (matrixCells_in_range (mem_rangesIf_single hc)) 0 0

theorem execInvert_sameEnd (h : SameInputs .invert s s1) : SameEnd s s1 (writeSet .invert s) (execInvert s) (execInvert s1) := by
  have hcheck : invertCheck s1 = invertCheck s := by
    rw [invertCheck, invertCheck, h.uninitialized, h.outOfRange, h.outOfRange, State.invertInput, State.invertInput,
      State.invertOutput, State.invertOutput, h.n, h.src, h.dst]
  refine SameEnd.checked hcheck fun hc => ?_
  have hset : s.invertInput ∈ readSet .invert s := mem_rangesIf_single hc
  have hmatrix : s1.invertMatrix = s.invertMatrix := by
    rw [State.invertMatrix, State.invertMatrix, h.n, h.src, Mat.build, Mat.build]
    refine List.map_congr_left fun r hr => List.map_congr_left fun c hc => ?_
    rw [Nat.add_assoc]
    exact h.read_range hset (rowMajor_lt (List.mem_range.mp hr) (List.mem_range.mp hc))
  rw [invertBody, invertBody, hmatrix, h.store, h.n]
  cases gfInvert s.store s.n.toNat s.invertMatrix with
  | none => exact SameEnd.fails _
  | some b =>
    have hcells : s1.invertCells b = s.invertCells b := by rw [State.invertCells, State.invertCells, h.dst, h.n]
    simp only [hcells]
    exact SameEnd.ended (matrixCells_in_range (mem_rangesIf_single hc)) 0 0

end Commands

/-! ## DECODE -/

section Decode

variable {s s1 : State} (h : SameInputs .decode s s1)
include h

theorem decodeParamCheck_congr : decodeParamCheck s1 = decodeParamCheck s := by
  rw [decodeParamCheck, decodeParamCheck, h.badBlockCounts, h.badBlockBytes, h.uninitialized, h.src]

theorem tablePastEnd_congr : s1.tablePastEnd = s.tablePastEnd := by
  rw [State.tablePastEnd, State.tablePastEnd, h.cfg, h.src, h.nblk]

/-- Once the parameters and the table's range have passed, the table is read (R75). -/
theorem descriptors_congr (hp : decodeParamCheck s = none) (ht : s.tablePastEnd = false) : s1.descriptors = s.descriptors := by
  have hset : s.tableRange ∈ readSet .decode s :=
    List.mem_append_left _ (mem_rangesIf_single (orElseCheck_eq_none.mpr ⟨hp, by simp [firstError, ht]⟩))
  have hbyte : ∀ e, e < s.nblk.toNat → ∀ d, d < 8 →
      s1.mem.read (s.src.toNat + 8 * e + d) = s.mem.read (s.src.toNat + 8 * e + d) := fun e he d hd => by
    rw [Nat.add_assoc]
    exact h.read_range hset (show 8 * e + d < 8 * s.nblk.toNat by omega)
  rw [State.descriptors, State.descriptors, h.nblk]
  refine List.map_congr_left fun e he => ?_
  have hbyte := hbyte e (List.mem_range.mp he)
  have hbyte0 := hbyte 0 (by decide)
  rw [Nat.add_zero] at hbyte0
  refine (desc_eq s1 e).trans (Eq.trans ?_ (desc_eq s e).symm)
  rw [h.src, hbyte0, hbyte 1 (by decide), hbyte 2 (by decide), hbyte 3 (by decide), hbyte 4 (by decide), hbyte 5 (by decide)]

theorem decodeCheck_congr : decodeCheck s1 = decodeCheck s := by
  rw [decodeCheck, decodeCheck, decodeParamCheck_congr h]
  cases hp : decodeParamCheck s with
  | some e => rfl
  | none =>
    rw [decodeRangeCheck, decodeRangeCheck, tablePastEnd_congr h]
    cases ht : s.tablePastEnd with
    | true => rfl
    | false => simp only [descriptors_congr h hp ht, h.outOfRange, h.blockBytes]

variable (hc : decodeCheck s = none)
include hc

theorem decodeDescriptors_congr : s1.descriptors = s.descriptors := by
  obtain ⟨hp, hr⟩ := orElseCheck_eq_none.mp hc
  exact descriptors_congr h hp (firstError_eq_none.mp hr _ (List.mem_cons_self ..))

theorem decodeCells_congr (sinv : Mat) : s1.decodeCells sinv = s.decodeCells sinv := by
  have hdesc := decodeDescriptors_congr h hc
  have hpayload : ∀ u, s1.rebuiltPayload sinv u = s.rebuiltPayload sinv u := fun u => by
    rw [State.rebuiltPayload, State.rebuiltPayload, h.blockBytes, h.k, h.m, h.store, hdesc]
    refine List.map_congr_left fun p hp => rebuiltByte_congr (fun r hr q hq => ?_) sinv u (List.mem_range.mp hp)
    obtain ⟨e, he, hpresent, rfl⟩ := payloadsRead_present hr
    exact h.read_range (List.mem_append_right _ (mem_rangesIf.mpr ⟨hc, mem_presentPayloads.mpr ⟨e, he, hpresent, rfl⟩⟩)) hq
  have hinstall : s1.installCellsAt sinv = s.installCellsAt sinv := funext fun u => by
    rw [State.installCellsAt, State.installCellsAt, h.src, h.k, hdesc, hpayload]
  rw [State.decodeCells, State.decodeCells, h.k, hdesc, hinstall]

theorem decodeInstall_sameEnd (sinv : Mat) :
    SameEnd s s1 (writeSet .decode s) (decodeInstall s sinv) (decodeInstall s1 sinv) := by
  have hdesc := decodeDescriptors_congr h hc
  have hreaches : s1.installReachesPayload = s.installReachesPayload := by
    rw [State.installReachesPayload, State.installReachesPayload, State.payloadsRead, State.payloadsRead, hdesc, h.k, h.m, h.src,
      h.blockBytes]
  rw [decodeInstall, decodeInstall, hreaches, hdesc, h.k, decodeCells_congr h hc]
  have hin := fun w hw => decodeCells_in (sinv := sinv) (w := w) (decodeCheck_eq_none.mp hc) hw
  exact SameEnd.ite (fun _ => SameEnd.refused _ _) fun _ =>
    SameEnd.ite (fun _ => SameEnd.ended hin _ _) fun _ => SameEnd.ended hin _ _

theorem decodeBody_sameEnd : SameEnd s s1 (writeSet .decode s) (decodeBody s) (decodeBody s1) := by
  rw [decodeBody, decodeBody, decodeSolve, decodeSolve, decodeDescriptors_congr h hc, h.k, h.m, h.store]
  refine SameEnd.ite (fun _ => SameEnd.finishes 0) fun _ => SameEnd.ite (fun _ => SameEnd.fails _) fun _ => ?_
  cases gfInvert s.store (missingRows s.k.toNat s.descriptors).length
      (submatrix s.store s.k.toNat (recoveryRows s.k.toNat s.m.toNat s.descriptors) (missingRows s.k.toNat s.descriptors)) with
  | none => exact SameEnd.fails _
  | some sinv => exact decodeInstall_sameEnd h hc sinv

end Decode

theorem execDecode_sameEnd {s s1 : State} (h : SameInputs .decode s s1) :
    SameEnd s s1 (writeSet .decode s) (execDecode s) (execDecode s1) := by
  refine SameEnd.checked (decodeCheck_congr h) fun hc => ?_
  have hoverlaps : s1.decodeOverlaps = s.decodeOverlaps := by
    rw [State.decodeOverlaps, State.decodeOverlaps, State.tableRange, State.tableRange, decodeDescriptors_congr h hc, h.src, h.nblk,
      h.blockBytes]
  rw [hoverlaps]
  exact SameEnd.ite (fun _ => SameEnd.refused _ _) fun _ => decodeBody_sameEnd h hc

/-! ## Every command -/

/-- A command but INIT ends alike in two states that agree on its inputs. -/
theorem exec_sameEnd {i : Instr} {s s1 : State} (hi : i ≠ .init) (hp : ∀ p, i ≠ .initP p) (h : SameInputs i s s1) :
    SameEnd s s1 (writeSet i s) (exec i s) (exec i s1) := by
  have htable : tableCheck s1 = tableCheck s := by rw [tableCheck, tableCheck, h.uninitialized]
  cases i with
  | init => exact absurd rfl hi
  | initP p => exact absurd rfl (hp p)
  | add x y => exact SameEnd.finishes _
  | mul x y | div x y | inv x | log x => exact tableRead_sameEnd htable (by rw [h.store])
  | exp idx => exact tableRead_sameEnd (by rw [expCheck, expCheck, h.uninitialized]) (by rw [h.store])
  | cauchy => exact execCauchy_sameEnd h
  | encode => exact execEncode_sameEnd h
  | invert => exact execInvert_sameEnd h
  | decode => exact execDecode_sameEnd h

/-- INIT has no inputs. -/
theorem exec_init_or (i : Instr) : (∃ idx, ∀ s, exec i s = .next (s.afterInit idx)) ∨ (i ≠ .init ∧ ∀ p, i ≠ .initP p) := by
  cases i with
  | init => exact .inl ⟨_, fun _ => rfl⟩
  | initP p => exact .inl ⟨_, fun _ => rfl⟩
  | _ => exact .inr ⟨nofun, nofun⟩

/-- A command that completes in `s` completes in every state that agrees on its inputs. -/
theorem exec_completes_of_sameInputs {i : Instr} {s s1 : State} (h : SameInputs i s s1) (hs : ∃ t, exec i s = .next t) :
    ∃ t, exec i s1 = .next t := by
  obtain ⟨t, ht⟩ := hs
  rcases exec_init_or i with ⟨idx, hinit⟩ | ⟨hi, hp⟩
  · exact ⟨_, hinit s1⟩
  · obtain ⟨ws, v, code, -, -, h1⟩ := exec_sameEnd hi hp h t ht
    exact ⟨_, h1⟩

/-- The same writes leave the same byte where the bytes were the same before. -/
theorem Memory.read_writeAll_congr {mem mem1 : Memory} (hw : mem.wf = true) (hw1 : mem1.wf = true) (ws : List Host.Cell) {a : Nat}
    (h : mem1.read a = mem.read a) : (mem1.writeAll ws).read a = (mem.writeAll ws).read a := by
  induction ws generalizing mem mem1 with
  | nil => exact h
  | cons w rest ih =>
    refine ih (Memory.write_wf _ _ hw) (Memory.write_wf _ _ hw1) ?_
    rw [Memory.read_write hw, Memory.read_write hw1, h]

/-! ## The host's step in flight -/

theorem writeCsr_mem (s : State) (off : Nat) (v : Word) : (s.writeCsr off v).mem = s.mem := by
  rcases writeCsr_cases s off v with ⟨-, h⟩ | ⟨-, h⟩ | ⟨-, h⟩ | ⟨c, -, -, -, h⟩ <;> rw [h]
  · rfl
  · rfl
  · cases c <;> rfl

/-- A host step writes no byte, or the bytes of an access that touches no buffer in use (R79). -/
theorem hostTurn_mem {s t : State} (h : hostTurn s = .next t) : ∃ a data,
    touches a data.length (s.readSetInFlight ++ s.writeSetInFlight) = false ∧ t.mem = s.mem.writeAll (cellsAt a data) := by
  have none : ∃ a data, touches a data.length (s.readSetInFlight ++ s.writeSetInFlight) = false ∧
      s.mem = s.mem.writeAll (cellsAt a data) := ⟨0, [], touches_empty _ _, rfl⟩
  rcases hostTurn_next h with ⟨-, rfl⟩ | ⟨off, width, v, rest, -, -, rfl⟩ | ⟨off, width, name, rest, -, -, rfl⟩ |
    ⟨a, data, rest, -, -, ht, rfl⟩ | ⟨a, n, name, rest, -, -, -, rfl⟩ | ⟨rest, -, rfl⟩
  · exact none
  · rw [writeCsr_mem]
    exact none
  · exact none
  · exact ⟨a, data, ht, rfl⟩
  · exact none
  · unfold hostPoll
    split
    · exact none
    · exact none

theorem readSetInFlight_of_ok {s : State} {i : Instr} (hb : s.status.busy = true) (h : decode s.cmd = .ok i) :
    s.readSetInFlight = readSet i s := by
  rw [State.readSetInFlight, if_pos hb, h]

/-- A host step leaves the bytes of both sets of the command in flight. -/
theorem hostTurn_read_sets {s t : State} {a : Nat} (h : hostTurn s = .next t)
    (ha : anyHas (s.readSetInFlight ++ s.writeSetInFlight) a = true) : t.mem.read a = s.mem.read a := by
  obtain ⟨b, data, ht, hmem⟩ := hostTurn_mem h
  rw [hmem]
  refine read_cellsAt_outside fun ⟨h1, h2⟩ => ?_
  obtain ⟨q, rfl⟩ := Nat.exists_eq_add_of_le h1
  exact nomatch ha.symm.trans (touches_eq_false.mp ht q (by omega))

theorem hostTurn_read_writeSet {s t : State} {i : Instr} {a : Nat} (hb : s.status.busy = true) (hi : decode s.cmd = .ok i)
    (h : hostTurn s = .next t) (ha : anyHas (writeSet i s) a = true) : t.mem.read a = s.mem.read a := by
  refine hostTurn_read_sets h ?_
  rw [writeSetInFlight_of_ok hb hi, anyHas, List.any_append]
  exact Bool.or_eq_true_iff.mpr (.inr ha)

theorem hostTurn_sameInputs {s t : State} {i : Instr} (hb : s.status.busy = true) (hi : decode s.cmd = .ok i)
    (h : hostTurn s = .next t) : SameInputs i s t := by
  obtain ⟨-, -, hk, hm, hbb, hn, hsrc, hdst, hnblk, -, -, -⟩ := hostTurn_keepsCommand hb h
  obtain ⟨-, hstore, -, hcfg, -⟩ := hostTurn_registers h
  refine ⟨hk, hm, hbb, hn, hsrc, hdst, hnblk, hstore, hostTurn_init h, hcfg, fun a ha => hostTurn_read_sets h ?_⟩
  rw [readSetInFlight_of_ok hb hi, anyHas, List.any_append]
  exact Bool.or_eq_true_iff.mpr (.inl ha)

end Sys2Proof.Machine
end

section
/-! SUPPORT. Runs in which the host waits (R100, R275): what each turn does to the poll, first while a command is in flight, then once
the core is idle. -/

namespace Sys2Proof.Machine

theorem run_succ {s s' : State} (h : step s = .next s') (n : Nat) :
    Host.Core.run Sys2Proof.core (n + 1) s = Host.Core.run Sys2Proof.core n s' := by
  have hstep : Sys2Proof.core.step s = .next s' := h
  simp only [Host.Core.run, hstep]

/-- At the end of a run the poll is over and the machine idle, at most `bound` steps from `s` on. -/
def PollEnds (s : State) (rest : List HostAction) (bound : Nat) : Prop :=
  ∃ n t, n ≤ bound ∧ Host.Core.run Sys2Proof.core n s = .next t ∧ t.status.busy = false ∧ t.host = rest

theorem PollEnds.step {s s' : State} {rest : List HostAction} {bound : Nat} (h : step s = .next s') (hs : PollEnds s' rest bound) :
    PollEnds s rest (bound + 1) := by
  obtain ⟨n, t, hn, hrun, hend⟩ := hs
  exact ⟨n + 1, t, Nat.succ_le_succ hn, (run_succ h n).trans hrun, hend⟩

theorem step_wait {s : State} {rest : List HostAction} (hm : s.mover = .host) (hw : s.host = .wait :: rest) :
    step s = .next (hostPoll s.takeTurn rest) := by
  have hw : s.takeTurn.host = .wait :: rest := hw
  simp only [step_of_host hm, hostTurn, hw]

/-- A poll of an idle machine is the last. -/
theorem pollEnds_of_host_idle {s : State} {rest : List HostAction} (hm : s.mover = .host) (hw : s.host = .wait :: rest)
    (hb : s.status.busy = false) (bound : Nat) : PollEnds s rest (bound + 1) := by
  have hpoll : (hostPoll s.takeTurn rest).status.busy = false ∧ (hostPoll s.takeTurn rest).host = rest := by
    rw [hostPoll, if_neg (by simp [hb])]
    exact ⟨hb, rfl⟩
  exact PollEnds.step (step_wait hm hw) ⟨0, _, Nat.zero_le _, rfl, hpoll⟩

/-- Once the core is idle, a core turn changes nothing and a host turn ends the poll. -/
theorem pollEnds_idle {turns : List Turn} {s : State} {rest : List HostAction} (hturns : s.turns = turns)
    (hb : s.status.busy = false) (hw : s.host = .wait :: rest) (hreset : ∀ x ∈ turns, x ≠ .reset) :
    PollEnds s rest (turns.length + 1) := by
  induction turns generalizing s with
  | nil =>
    refine pollEnds_of_host_idle ((mover_of_no_turns hturns).1.trans ?_) hw hb _
    rw [hb]
    rfl
  | cons x turns ih =>
    obtain ⟨hm, htake⟩ := mover_of_turns hturns
    cases x with
    | reset => exact absurd rfl (hreset _ (List.mem_cons_self ..))
    | host => exact pollEnds_of_host_idle hm hw hb _
    | core =>
      refine PollEnds.step ((step_of_core hm).trans (coreTurn_idle (s := s.takeTurn) hb)) (ih ?_ hb hw fun x hx => ?_)
      · rw [htake]
      · exact hreset x (List.mem_cons_of_mem _ hx)

/-- A completing core step leaves the host's actions and the turns. -/
theorem coreTurn_keepsHost {s t : State} (h : coreTurn s = .next t) : t.host = s.host ∧ t.turns = s.turns := by
  rcases coreTurn_next h with ⟨-, rfl⟩ | ⟨-, -, rfl⟩ | ⟨-, i, -, he⟩
  · exact ⟨rfl, rfl⟩
  · exact ⟨rfl, rfl⟩
  · obtain ⟨⟨-, -, -, -, -, -, -, -, -, -, hturns, hhost, -, -⟩, -⟩ := exec_frame he
    exact ⟨hhost, hturns⟩

/-- Whether the core's step completes does not depend on the turns and on the host's side. -/
theorem coreTurn_completes_of_host {s : State} (h : ∃ t, coreTurn s = .next t) (turns : List Turn) (host : List HostAction)
    (bindings : List (String × HostValue)) :
    ∃ t, coreTurn { s with turns := turns, host := host, bindings := bindings } = .next t := by
  obtain ⟨t, ht⟩ := h
  rcases coreTurn_next ht with ⟨hb, -⟩ | ⟨hb, ⟨e, he⟩, -⟩ | ⟨hb, i, hi, hexec⟩
  · exact ⟨_, coreTurn_idle hb⟩
  · exact ⟨_, coreTurn_illegal hb he⟩
  · obtain ⟨t', ht'⟩ := exec_completes_of_sameInputs (sameInputs_of_host i s turns host bindings) ⟨t, hexec⟩
    exact ⟨t', (coreTurn_of_ok (s := { s with turns := turns, host := host, bindings := bindings }) hb hi).trans ht'⟩

/-- The core's complete starts the idle part of the run. -/
theorem pollEnds_of_core {turns : List Turn} {s : State} {rest : List HostAction} (hm : s.mover = .core)
    (hturns : s.takeTurn.turns = turns) (hb : s.status.busy = true) (hw : s.host = .wait :: rest)
    (hreset : ∀ x ∈ turns, x ≠ .reset) (hc : ∃ t, coreTurn s = .next t) : PollEnds s rest (turns.length + 2) := by
  obtain ⟨t, ht⟩ := coreTurn_completes_of_host hc s.turns.tail s.host s.bindings
  have ht : coreTurn s.takeTurn = .next t := ht
  obtain ⟨hhost, hkept⟩ := coreTurn_keepsHost ht
  obtain ⟨hidle, -, -⟩ := coreTurn_completes (s := s.takeTurn) hb ht
  exact PollEnds.step ((step_of_core hm).trans ht) (pollEnds_idle (hkept.trans hturns) hidle (hhost.trans hw) hreset)

/-- While the command is in flight, a host turn is a poll that goes on, and a core turn completes the command. -/
theorem pollEnds_busy {turns : List Turn} {s : State} {rest : List HostAction} (hturns : s.turns = turns)
    (hb : s.status.busy = true) (hw : s.host = .wait :: rest) (hreset : ∀ x ∈ turns, x ≠ .reset)
    (hc : ∃ t, coreTurn s = .next t) : PollEnds s rest (turns.length + 2) := by
  induction turns generalizing s with
  | nil =>
    refine pollEnds_of_core ((mover_of_no_turns hturns).1.trans (if_pos hb)) ?_ hb hw hreset hc
    rw [takeTurn_turns, hturns]
    rfl
  | cons x turns ih =>
    have hreset' : ∀ x ∈ turns, x ≠ .reset := fun x hx => hreset x (List.mem_cons_of_mem _ hx)
    obtain ⟨hm, htake⟩ := mover_of_turns hturns
    cases x with
    | reset => exact absurd rfl (hreset _ (List.mem_cons_self ..))
    | core =>
      obtain ⟨n, t, hn, hend⟩ := pollEnds_of_core hm (by rw [htake]) hb hw hreset' hc
      exact ⟨n, t, hn.trans (Nat.le_succ _), hend⟩
    | host =>
      have hpoll : hostPoll s.takeTurn rest = s.takeTurn.bind "s" (.word (s.takeTurn.readCsr 0x04)) := if_pos hb
      refine PollEnds.step ((step_wait hm hw).trans (congrArg _ hpoll)) ?_
      refine ih ?_ hb hw hreset' (coreTurn_completes_of_host hc _ s.host _)
      rw [bind_turns, htake]

end Sys2Proof.Machine
end

section
/-! CLAIMS. The statements on the host's memory accesses, on latency and on WAIT (20_memory.md, 30_encoding.md,
70_reset_and_hazards.md). -/

namespace Sys2Proof.Proofs

open Sys2Proof.Machine

/-- Settles O14: an access is checked against memory first, then against the sets in flight, byte by byte. -/
theorem hostMemoryAccess : Obligations.HostMemoryAccess := by
  refine ⟨fun s a data rest hw hh hne => ?_, fun s a name rest => ⟨fun hh => ?_, fun hh => ?_⟩, fun s a n name rest hh hn => ?_⟩
  · refine ⟨hostTurn_memw_outside hh (List.length_pos_iff.mpr hne), fun hin => ⟨fun ht => ?_, fun ht => ?_⟩⟩
    · exact hostTurn_memw_inUse hh hin (touches_eq_true.mpr ht)
    · refine ⟨_, hostTurn_memw_performed hh (outOfRange_of_fits hin) (touches_eq_false.mpr ht), fun q hq => ?_, fun c hc => ?_⟩
      · exact Memory.read_cellsAt hw hq
      · exact read_cellsAt_outside hc
  · exact hostTurn_memw_performed hh (outOfRange_empty s a) (touches_empty a _)
  · exact hostTurn_memr_performed hh (outOfRange_empty s a) (touches_empty a _)
  · refine ⟨hostTurn_memr_outside hh hn, fun hin => ⟨fun ht => ?_, fun ht => ?_⟩⟩
    · exact hostTurn_memr_inUse hh hin (touches_eq_true.mpr ht)
    · exact hostTurn_memr_performed hh (outOfRange_of_fits hin) (touches_eq_false.mpr ht)

/-- Settles O25: the host's step leaves the inputs of the command and its write set, so the command makes the same writes. -/
theorem latencyDoesNotMatter : Obligations.LatencyDoesNotMatter := by
  intro s s1 t i hw hb hi hhost ht
  obtain ⟨-, -, -, -, -, -, -, -, -, -, hpoly, -⟩ := hostTurn_keepsCommand hb hhost
  have same := hostTurn_sameInputs hb hi hhost
  rcases exec_init_or i with ⟨idx, hinit⟩ | ⟨hne, hneP⟩
  · obtain rfl := Host.Outcome.next.inj ((hinit s).symm.trans ht)
    refine ⟨_, hinit s1, rfl, rfl, rfl, rfl, fun a => ?_⟩
    split
    · have hsets := hostTurn_read_writeSet hb hi hhost ‹_›
      exact hsets
    · rfl
  · obtain ⟨ws, v, code, hws, rfl, ht1⟩ := exec_sameEnd hne hneP same t ht
    refine ⟨_, ht1, rfl, rfl, same.store, hpoly, fun a => ?_⟩
    split
    · have hw1 : s1.mem.wf = true := by
        obtain ⟨b, data, -, hmem⟩ := hostTurn_mem hhost
        rw [hmem]
        exact Memory.writeAll_wf _ hw
      exact Memory.read_writeAll_congr hw hw1 ws (hostTurn_read_writeSet hb hi hhost ‹_›)
    · refine Memory.read_writeAll_of_forall_ne fun w hw' e => ?_
      subst e
      exact absurd (hws w hw') ‹_›

/-- Settles O26: until the core moves each host turn polls again; the core's turn completes the command, and the next poll is the
last. -/
theorem waitEnds : Obligations.WaitEnds := fun _ _ hb hw hreset hc => pollEnds_busy rfl hb hw hreset hc

end Sys2Proof.Proofs
end

section
/-! SUPPORT. DECODE's table, its missing rows and its recovery rows (R201, R203, R205): where its ranges fail, which slot supplies a
row, and how many recovery rows the present blocks allow (R210). -/

namespace Sys2Proof.Machine

/-! ## The validation pass -/

theorem decodeCheck_rangeFails {s : State} (hp : s.decodeParamsReady) {e : ErrorKind} (h : decodeRangeCheck s = some e) :
    decodeCheck s = some e := by
  rw [decodeCheck, decodeParamCheck_eq_none.mpr hp, orElseCheck, h]

theorem decodeRangeCheck_tablePastEnd {s : State} (h : s.cfg.memBytes < s.src.toNat + 8 * s.nblk.toNat) :
    decodeRangeCheck s = some .addressRange := by
  rw [decodeRangeCheck, firstError, State.tablePastEnd, decide_eq_true h, if_pos rfl]

/-- A payload past the end fails the pass, present or empty, whether or not the table's own range fails before it. -/
theorem decodeRangeCheck_payloadPastEnd {s : State} (hbb : 0 < s.blockBytes.toNat) {e : Nat} (he : e < s.nblk.toNat)
    (h : s.cfg.memBytes < (s.desc e).addr + s.blockBytes.toNat) : decodeRangeCheck s = some .addressRange := by
  have hany : (s.descriptors.any fun d => s.outOfRange (d.payload s.blockBytes.toNat)) = true :=
    any_descriptors.mpr ⟨e, he, outOfRange_of_pos hbb h⟩
  rw [decodeRangeCheck, firstError, firstError, hany]
  split <;> rfl

/-! ## Which slot supplies a row -/

theorem missing_pairwise (s : State) : s.missing.Pairwise (· < ·) := List.Pairwise.filter _ List.pairwise_lt_range

/-- A data row that is not missing is supplied by the lowest present descriptor with that row (R203). -/
theorem dataAddr_lowest {s : State} {l : Nat} (hl : l < s.k.toNat) (hm : l ∉ s.missing) :
    ∃ e, e < s.nblk.toNat ∧ (s.desc e).present = true ∧ (s.desc e).row = l ∧ dataAddr s.descriptors l = (s.desc e).addr ∧
      ∀ e', e' < e → ¬ ((s.desc e').present = true ∧ (s.desc e').row = l) := by
  cases hf : s.descriptors.find? fun d => d.carries l with
  | none =>
    refine absurd (mem_missing.mpr ⟨hl, rowMissing_iff.mpr fun ⟨e, he, hp, hr⟩ => ?_⟩) hm
    exact absurd (carries_iff.mpr ⟨hp, hr⟩) (List.find?_eq_none.mp hf _ (mem_descriptors.mpr ⟨e, he, rfl⟩))
  | some d =>
    obtain ⟨hd, e, he, rfl, hlow⟩ := List.find?_eq_some_iff_getElem.mp hf
    have he' : e < s.nblk.toNat := by rwa [length_descriptors] at he
    rw [getElem_descriptors] at hd hf
    obtain ⟨hp, hr⟩ := carries_iff.mp hd
    refine ⟨e, he', hp, hr, by rw [dataAddr, hf], fun e' hlt hcon => ?_⟩
    have hlow := hlow e' hlt
    rw [getElem_descriptors, carries_iff.mpr hcon] at hlow
    cases hlow

/-! ## Counting present blocks -/

/-- Rows that present descriptors carry, each listed once, are no more than the present descriptors. -/
theorem length_le_present {s : State} {rows : List Nat} (hnodup : rows.Nodup)
    (h : ∀ r ∈ rows, ∃ e, e < s.nblk.toNat ∧ (s.desc e).present = true ∧ (s.desc e).row = r) :
    rows.length ≤ (s.descriptors.filter fun d => d.present).length := by
  have hsub : rows ⊆ (s.descriptors.filter fun d => d.present).map fun d => d.row := by
    intro r hr
    obtain ⟨e, he, hp, hrow⟩ := h r hr
    exact List.mem_map.mpr ⟨s.desc e, List.mem_filter.mpr ⟨mem_descriptors.mpr ⟨e, he, rfl⟩, hp⟩, hrow⟩
  calc rows.length ≤ ((s.descriptors.filter fun d => d.present).map fun d => d.row).length := (hnodup.subperm hsub).length_le
    _ = _ := List.length_map ..

/-- The data rows are the missing and the present ones. -/
theorem length_missing_add_present (s : State) :
    s.missing.length + (presentRows s.k.toNat s.descriptors).length = s.k.toNat := by
  have := List.length_eq_length_filter_add (l := List.range s.k.toNat) fun i => rowMissing s.descriptors i
  rw [List.length_range] at this
  exact this.symm

/-- The data rows present and the recovery rows collected come from different present descriptors (R203, R205). -/
theorem presentRows_add_recovery_le (s : State) : (presentRows s.k.toNat s.descriptors).length + s.recovery.length ≤
    (s.descriptors.filter fun d => d.present).length := by
  obtain ⟨slots, ⟨-, hslots, hnodup, -, -⟩, hrec⟩ := exists_slots s
  have hdata : ∀ l ∈ presentRows s.k.toNat s.descriptors,
      l < s.k.toNat ∧ ∃ e, e < s.nblk.toNat ∧ (s.desc e).present = true ∧ (s.desc e).row = l := fun l hl => by
    obtain ⟨hlk, hp⟩ := List.mem_filter.mp hl
    have hnot : ¬ rowMissing s.descriptors l = true := by simpa using hp
    exact ⟨List.mem_range.mp hlk, not_not.mp (mt rowMissing_iff.mpr hnot)⟩
  have hrows : ∀ r ∈ slots.map fun e => (s.desc e).row, s.k.toNat ≤ r ∧
      ∃ e, e < s.nblk.toNat ∧ (s.desc e).present = true ∧ (s.desc e).row = r := fun r hr => by
    obtain ⟨e, he, rfl⟩ := List.mem_map.mp hr
    obtain ⟨hlt, hp, hk, -⟩ := hslots e he
    exact ⟨hk, e, hlt, hp, rfl⟩
  have := length_le_present (s := s) (rows := presentRows s.k.toNat s.descriptors ++ slots.map fun e => (s.desc e).row) ?_ ?_
  · rwa [List.length_append, List.length_map, ← List.length_map (as := slots) (f := recoveryOf s.desc s.k.toNat), ← hrec] at this
  · refine List.nodup_append.mpr ⟨List.Nodup.filter _ List.nodup_range, hnodup, fun a ha b hb e => ?_⟩
    have := (hdata a ha).1
    have := (hrows b hb).1
    omega
  · intro r hr
    rcases List.mem_append.mp hr with hr | hr
    · exact (hdata r hr).2
    · exact (hrows r hr).2

theorem recovery_lt_missing {s : State} (h : (s.descriptors.filter fun d => d.present).length < s.k.toNat) :
    s.recovery.length < s.missing.length := by
  have := length_missing_add_present s
  have := presentRows_add_recovery_le s
  omega

/-! ## Too few recovery rows -/

theorem exec_decode_insufficient {s : State} (hr : s.decodeReady) (ha : s.decodeApart) (h : s.recovery.length < s.missing.length) :
    exec .decode s = .next (s.ended 0 4) := by
  rw [exec, execDecode_ready hr ha, decodeBody]
  refine (if_neg (show ¬ s.missing.length = 0 by omega)).trans ?_
  exact if_pos h

/-- A table of no descriptors passes every check that is left, and holds no block. -/
theorem emptyTable_ready {s : State} (hp : s.decodeParamsReady) (hn : s.nblk = 0) (h : s.src.toNat ≤ s.cfg.memBytes) :
    s.decodeReady ∧ s.decodeApart ∧ (s.descriptors.filter fun d => d.present).length < s.k.toNat := by
  have hn : s.nblk.toNat = 0 := by rw [hn]; rfl
  obtain ⟨⟨hk, -⟩, -⟩ := id hp
  refine ⟨⟨hp, ?_, fun i hi => by omega⟩, fun i hi => by omega, ?_⟩
  · rw [State.tableInRange, hn]
    exact h
  · rw [List.eq_nil_of_length_eq_zero ((length_descriptors s).trans hn)]
    exact hk

end Sys2Proof.Machine
end

section
/-! SUPPORT. DECODE's submatrix is one of the Cauchy matrix, so it has an inverse (R152, R206), and what DECODE does with it: its
installs, or its refusal (R207, log 19). -/

namespace Sys2Proof.Machine

/-- A collected row stands at the place of its slot in table order. -/
theorem recoveryAt_slot {s : State} {slots : List Nat} (h : s.recovery = slots.map (recoveryOf s.desc s.k.toNat)) {t : Nat}
    (ht : t < s.recovery.length) :
    recoveryAt s.recovery t = recoveryOf s.desc s.k.toNat (slots.getD t 0) ∧ slots.getD t 0 ∈ slots := by
  have ht' : t < slots.length := by rwa [h, List.length_map] at ht
  refine ⟨?_, getD_mem_of_lt ht' 0⟩
  simp only [recoveryAt, h, List.getD, List.getElem?_map, List.getElem?_eq_getElem ht', Option.map_some, Option.getD_some]

/-- The slot of a collected row is present and holds a recovery row (R205). -/
theorem recoveryAt_present {s : State} {t : Nat} (ht : t < s.recovery.length) : ∃ e, e < s.nblk.toNat ∧ (s.desc e).present = true ∧
    s.k.toNat ≤ (s.desc e).row ∧ (s.desc e).row < s.k.toNat + s.m.toNat ∧
    recoveryAt s.recovery t = ⟨(s.desc e).row - s.k.toNat, (s.desc e).addr⟩ := by
  obtain ⟨slots, ⟨-, hslots, -⟩, hrec⟩ := exists_slots s
  obtain ⟨hat, hmem⟩ := recoveryAt_slot hrec ht
  obtain ⟨hlt, hp, hk, hm⟩ := hslots _ hmem
  exact ⟨_, hlt, hp, hk, hm, hat⟩

theorem recoveryAt_row_lt {s : State} {t : Nat} (ht : t < s.recovery.length) : (recoveryAt s.recovery t).row < s.m.toNat := by
  obtain ⟨e, -, -, hk, hm, hat⟩ := recoveryAt_present ht
  rw [hat]
  show (s.desc e).row - s.k.toNat < s.m.toNat
  omega

theorem recovery_rows_nodup (s : State) : (s.recovery.map fun r => r.row).Nodup := by
  obtain ⟨slots, ⟨-, hslots, hnodup, -⟩, hrec⟩ := exists_slots s
  rw [hrec, List.map_map]
  refine List.Nodup.map_on (fun e he e' he' hrow => ?_) (List.Nodup.of_map _ hnodup)
  have h1 := (hslots e he).2.2.1
  have h2 := (hslots e' he').2.2.1
  have hrow : (s.desc e).row - s.k.toNat = (s.desc e').row - s.k.toNat := hrow
  exact List.inj_on_of_nodup_map hnodup he he' (by omega)

theorem recovery_length_le (s : State) : s.recovery.length ≤ s.missing.length := by
  obtain ⟨slots, ⟨-, -, -, hlen, -⟩, hrec⟩ := exists_slots s
  rwa [hrec, List.length_map]

theorem recoveryAt_row_injOn (s : State) :
    Set.InjOn (fun t => (recoveryAt s.recovery t).row) (Finset.range s.recovery.length) := by
  have h := injOn_getD (recovery_rows_nodup s)
  rw [List.length_map] at h
  intro t ht u hu e
  refine h ht hu ?_
  have ht := Finset.mem_range.mp ht
  have hu := Finset.mem_range.mp hu
  simpa only [recoveryAt, List.getD, List.getElem?_map, List.getElem?_eq_getElem ht, List.getElem?_eq_getElem hu, Option.map_some,
    Option.getD_some] using e

theorem missing_lt {s : State} {u : Nat} (hu : u < s.missing.length) : s.missing.getD u 0 < s.k.toNat :=
  (mem_missing.mp (getD_mem_of_lt hu 0)).1

/-- The submatrix of R206 has an inverse, which `gf_invert` finds. -/
theorem exists_solvedBy {s : State} {idx : Fin 16} (hc : s.goodBlockCounts) (hstore : s.store = .built idx)
    (hl : s.missing.length ≤ s.recovery.length) : ∃ sinv, s.solvedBy sinv ∧ isInverse s.store s.missing.length
      (fun a b => cauchyEntry s.store s.k.toNat (recoveryAt s.recovery a).row (s.missing.getD b 0)) sinv.get := by
  obtain ⟨-, -, hkm⟩ := hc
  have hrange : (Finset.range s.missing.length : Set Nat) ⊆ Finset.range s.recovery.length :=
    Finset.coe_subset.mpr (Finset.range_subset_range.mpr hl)
  have hinverse := gfInvert_cauchySubmatrix (idx := idx) hkm (fun t ht => recoveryAt_row_lt (by omega)) (fun u hu => missing_lt hu)
    ((recoveryAt_row_injOn s).mono hrange) (injOn_getD (missing_nodup s))
  rw [← hstore] at hinverse
  exact hinverse

/-! ## Ends of DECODE -/

theorem decodeCheck_ne_matrixOperation (s : State) : decodeCheck s ≠ some .matrixOperation :=
  orElseCheck_ne (firstError_ne (by simp)) (firstError_ne (by simp))

theorem code_ne_zero (e : ErrorKind) : e.code ≠ 0 := by cases e <;> decide

/-- DECODE with its installs apart from the payloads (R207). -/
theorem exec_decode_installs {s : State} {sinv : Mat} (hr : s.decodeReady) (ha : s.decodeApart) (hi : s.installsApart)
    (hm : s.missing ≠ []) (hl : s.missing.length ≤ s.recovery.length) (hs : s.solvedBy sinv) : exec .decode s =
      .next ((s.writeAll (s.decodeCells sinv)).ended (BitVec.ofNat 32 (installCount s.k.toNat s.descriptors))
        (if (emptySlots s.descriptors).length < s.missing.length then 6 else 0)) := by
  rw [exec, execDecode_solved hr ha hm hl hs, decodeInstall, installReachesPayload_eq_false.mpr hi]
  refine (if_neg Bool.false_ne_true).trans ?_
  by_cases hfew : (emptySlots s.descriptors).length < s.missing.length
  · rw [if_pos hfew]
    exact if_pos hfew
  · rw [if_neg hfew]
    exact if_neg hfew

/-- The whole loop of step 6 leaves the memory of DECODE's writes, the count, and whether every block found a slot (R207). -/
theorem installLoop_all {s : State} (sinv : Mat) (ha : s.decodeApart) (hi : s.installsApart) :
    installLoop s sinv (List.range s.missing.length) (emptySlots s.descriptors) s.mem 0 =
      (s.mem.writeAll (s.decodeCells sinv), installCount s.k.toNat s.descriptors,
        decide (s.missing.length ≤ (emptySlots s.descriptors).length)) := by
  rw [List.range_eq_range']
  exact installLoop_eq sinv ha hi s.missing.length 0 (Nat.zero_add _) (Nat.zero_le _)

theorem exec_decode_reaching {s : State} {sinv : Mat} (hr : s.decodeReady) (ha : s.decodeApart) (hi : ¬ s.installsApart)
    (hm : s.missing ≠ []) (hl : s.missing.length ≤ s.recovery.length) (hs : s.solvedBy sinv) :
    exec .decode s = .refused .overlappingBuffers := by
  rw [exec, execDecode_solved hr ha hm hl hs, decodeInstall, if_pos]
  rwa [← Bool.not_eq_false, installReachesPayload_eq_false]

/-- The state that a DECODE with no error leaves after its installs, with RESULT `v` (R207). -/
def State.afterInstalls (s : State) (sinv : Mat) (v : Word) : State := (s.writeAll (s.decodeCells sinv)).ended v 0

/-- A DECODE that ends with ERR = 0 found nothing missing, or installed a block for every missing row. -/
theorem exec_decode_succeeds {s t : State} (h : exec .decode s = .next t) (h0 : t.status.err = 0) :
    s.decodeReady ∧ s.decodeApart ∧ ((s.missing = [] ∧ t = s.ended 0 0) ∨
      (s.missing.length ≤ s.recovery.length ∧ installCount s.k.toNat s.descriptors = s.missing.length ∧
        ∃ sinv v, s.solvedBy sinv ∧ t = s.afterInstalls sinv v)) := by
  rcases execDecode_next h with ⟨e, -, rfl⟩ | ⟨hr, ha, hb⟩
  · exact absurd h0 (code_ne_zero e)
  refine ⟨hr, ha, ?_⟩
  rcases decodeBody_next hb with hnone | ⟨-, -, rfl⟩ | ⟨-, -, -, rfl⟩ | ⟨-, hl, -, sinv, hs, rfl⟩
  · exact .inl hnone
  · exact absurd h0 (code_ne_zero .insufficientBlocks)
  · exact absurd h0 (code_ne_zero .matrixOperation)
  · by_cases hfew : (emptySlots s.descriptors).length < s.missing.length
    · rw [if_pos hfew] at h0
      exact absurd h0 (code_ne_zero .blockBuffer)
    · rw [if_neg hfew]
      exact .inr ⟨hl, Nat.min_eq_left (Nat.le_of_not_lt hfew), sinv, _, hs, rfl⟩

/-! ## The table after the installs -/

theorem exists_getD_of_mem {l : List Nat} {i : Nat} (h : i ∈ l) : ∃ u, u < l.length ∧ l.getD u 0 = i := by
  obtain ⟨u, hu, rfl⟩ := List.getElem_of_mem h
  exact ⟨u, hu, by rw [List.getD, List.getElem?_eq_getElem hu, Option.getD_some]⟩

section Installed

variable {s : State} (sinv : Mat) (v : Word) (hr : s.decodeReady) (ha : s.decodeApart) (hw : s.mem.wf = true)

section Slots
include ha hw

/-- Every slot that is not filled is as it was. -/
theorem desc_kept_or_installed {e : Nat} (he : e < s.nblk.toNat) : (s.afterInstalls sinv v).desc e = s.desc e ∨
    ∃ u, u < installCount s.k.toNat s.descriptors ∧ e = installSlot s.descriptors u := by
  by_cases h : ∃ u, u < installCount s.k.toNat s.descriptors ∧ e = installSlot s.descriptors u
  · exact .inr h
  · exact .inl ((desc_of_installs (t := s.afterInstalls sinv v) ha hw rfl rfl he).2 fun u hu e' => h ⟨u, hu, e'⟩)

include hr

/-- A slot that is filled holds its missing row, which fits a byte. -/
theorem desc_installed {u : Nat} (hu : u < installCount s.k.toNat s.descriptors) :
    (s.afterInstalls sinv v).desc (installSlot s.descriptors u) =
      ⟨(s.desc (installSlot s.descriptors u)).addr, s.missing.getD u 0, true⟩ := by
  obtain ⟨⟨-, -, hkm⟩, -⟩ := hr.1
  have hrow : s.missing.getD u 0 < 256 := by
    have := missing_lt (Nat.lt_of_lt_of_le hu (Nat.min_le_left ..))
    omega
  rw [(desc_of_installs (t := s.afterInstalls sinv v) ha hw rfl rfl (installSlot_mem hu).1).1 u hu rfl, BitVec.toNat_ofNat,
    Nat.mod_eq_of_lt hrow]

/-- No install moves a payload, and none touches a present descriptor. -/
theorem desc_kept {e : Nat} (he : e < s.nblk.toNat) : ((s.afterInstalls sinv v).desc e).addr = (s.desc e).addr ∧
    ((s.desc e).present = true → (s.afterInstalls sinv v).desc e = s.desc e) := by
  rcases desc_kept_or_installed sinv v ha hw he with h | ⟨u, hu, rfl⟩
  · rw [h]
    exact ⟨rfl, fun _ => rfl⟩
  · rw [desc_installed sinv v hr ha hw hu]
    exact ⟨rfl, fun hp => nomatch (installSlot_mem hu).2.symm.trans hp⟩

theorem afterInstalls_ready : (s.afterInstalls sinv v).decodeReady := by
  obtain ⟨hparams, htable, hpayload⟩ := id hr
  refine ⟨hparams, htable, fun e he => ?_⟩
  rw [(desc_kept sinv v hr ha hw he).1]
  exact hpayload e he

theorem afterInstalls_apart : (s.afterInstalls sinv v).decodeApart := by
  intro e he hempty
  have hold : (s.desc e).present = false := by
    rw [← Bool.not_eq_true]
    intro hp
    rw [(desc_kept sinv v hr ha hw he).2 hp, hp] at hempty
    cases hempty
  obtain ⟨htable, hothers⟩ := ha e he hold
  rw [(desc_kept sinv v hr ha hw he).1]
  refine ⟨htable, fun j hj hne => ?_⟩
  rw [(desc_kept sinv v hr ha hw hj).1]
  exact hothers j hj hne

/-- With a slot for every missing row, no row is missing after the installs. -/
theorem afterInstalls_complete (hcount : installCount s.k.toNat s.descriptors = s.missing.length) :
    (s.afterInstalls sinv v).missing = [] := by
  refine missing_eq_nil_iff.mpr fun i hi => ?_
  have hi : i < s.k.toNat := hi
  by_cases hm : i ∈ s.missing
  · obtain ⟨u, hu, rfl⟩ := exists_getD_of_mem hm
    have hu : u < installCount s.k.toNat s.descriptors := hcount ▸ hu
    have hdesc := desc_installed sinv v hr ha hw hu
    exact ⟨installSlot s.descriptors u, (installSlot_mem hu).1, by rw [hdesc], by rw [hdesc]⟩
  · obtain ⟨e, he, hp, hrow, -⟩ := dataAddr_lowest hi hm
    have hdesc := (desc_kept sinv v hr ha hw he).2 hp
    exact ⟨e, he, by rw [hdesc, hp], by rw [hdesc, hrow]⟩

end Slots

end Installed

end Sys2Proof.Machine
end

section
/-! SUPPORT. The algebra of a successful DECODE (R209): a residual is the recovery row's sum over the missing blocks, and the inverse
of S takes these sums back to the blocks. -/

namespace Sys2Proof.Machine

variable {F : Type} [Field F] {st : Store} {φ : Byte → F}

theorem FieldModel.map_ite_zero (h : FieldModel st φ) (p : Prop) [Decidable p] (x : Byte) :
    φ (if p then 0 else x) = if p then 0 else φ x := by
  split
  · exact h.zero
  · rfl

/-- A sum over the missing rows is one over their positions in `missing_indices`. -/
theorem sum_missing (s : State) (f : Nat → F) : ∑ v ∈ Finset.range s.missing.length, f (s.missing.getD v 0) =
    ∑ j ∈ Finset.range s.k.toNat, if rowMissing s.descriptors j then f j else 0 := by
  have himage : (Finset.range s.missing.length).image (fun v => s.missing.getD v 0) =
      (Finset.range s.k.toNat).filter fun j => rowMissing s.descriptors j = true := by
    ext j
    rw [Finset.mem_image, Finset.mem_filter, Finset.mem_range, ← mem_missing]
    constructor
    · rintro ⟨v, hv, rfl⟩
      exact getD_mem_of_lt (Finset.mem_range.mp hv) 0
    · intro hj
      obtain ⟨v, hv, e⟩ := exists_getD_of_mem hj
      exact ⟨v, Finset.mem_range.mpr hv, e⟩
  rw [← Finset.sum_filter, ← himage, Finset.sum_image (injOn_getD (missing_nodup s))]

/-- In a field of characteristic 2 a sum and the part of it at the indexes that `p` leaves out add up to the rest. -/
theorem sum_add_sum_ite (two : ∀ a : F, a + a = 0) (n : Nat) (p : Nat → Prop) [DecidablePred p] (f : Nat → F) :
    ∑ j ∈ Finset.range n, f j + (∑ j ∈ Finset.range n, if p j then 0 else f j) =
      ∑ j ∈ Finset.range n, if p j then f j else 0 := by
  rw [← Finset.sum_add_distrib]
  refine Finset.sum_congr rfl fun j _ => ?_
  split
  · exact add_zero _
  · exact two _

section Algebra

variable {s : State} (hφ : FieldModel s.store φ) {data : Nat → Nat → Byte}
  (hdata : ∀ e, e < s.nblk.toNat → (s.desc e).present = true → (s.desc e).row < s.k.toNat →
    ∀ p, p < s.blockBytes.toNat → s.mem.read ((s.desc e).addr + p) = data (s.desc e).row p)
  (hrec : ∀ e, e < s.nblk.toNat → (s.desc e).present = true → s.k.toNat ≤ (s.desc e).row →
    (s.desc e).row < s.k.toNat + s.m.toNat → ∀ p, p < s.blockBytes.toNat → s.mem.read ((s.desc e).addr + p) =
      xorSum s.k.toNat fun j => gfMul s.store (data j p) (cauchyEntry s.store s.k.toNat ((s.desc e).row - s.k.toNat) j))
include hφ hdata hrec

/-- The residual of a recovery row is its sum over the missing data blocks. -/
theorem residualClosed_eq {t p : Nat} (ht : t < s.recovery.length) (hp : p < s.blockBytes.toNat) : φ (s.residualClosed t p) =
    ∑ v ∈ Finset.range s.missing.length, φ (data (s.missing.getD v 0) p) *
      φ (cauchyEntry s.store s.k.toNat (recoveryAt s.recovery t).row (s.missing.getD v 0)) := by
  obtain ⟨e, he, hpresent, hk, hm, hat⟩ := recoveryAt_present ht
  have hpresentRow : ∀ l, l < s.k.toNat → ¬ rowMissing s.descriptors l = true →
      s.mem.read (dataAddr s.descriptors l + p) = data l p := fun l hl hmiss => by
    obtain ⟨e, he, hpres, hrow, haddr, -⟩ := dataAddr_lowest hl fun h => hmiss (mem_missing.mp h).2
    rw [haddr, hdata e he hpres (hrow ▸ hl) p hp, hrow]
  have hresidual : s.residualClosed t p = gfAdd
      (xorSum s.k.toNat fun j => gfMul s.store (data j p) (cauchyEntry s.store s.k.toNat (recoveryAt s.recovery t).row j))
      (xorSum s.k.toNat fun l => if rowMissing s.descriptors l then 0
        else gfMul s.store (data l p) (cauchyEntry s.store s.k.toNat (recoveryAt s.recovery t).row l)) := by
    rw [State.residualClosed, hat, hrec e he hpresent hk hm p hp]
    refine congrArg _ (xorSum_congr fun l hl => ?_)
    by_cases hmiss : rowMissing s.descriptors l = true
    · rw [if_pos hmiss, if_pos hmiss]
    · rw [if_neg hmiss, if_neg hmiss, hpresentRow l hl hmiss]
  rw [hresidual, hφ.add, hφ.xorSum, hφ.xorSum]
  simp only [hφ.map_ite_zero, hφ.mul]
  rw [sum_add_sum_ite hφ.two, ← sum_missing]

/-- The inverse of S takes the residuals back to the missing data blocks (R209). -/
theorem rebuiltClosed_eq {sinv : Mat} {u p : Nat} (hl : s.missing.length ≤ s.recovery.length)
    (hinv : isInverse s.store s.missing.length
      (fun a b => cauchyEntry s.store s.k.toNat (recoveryAt s.recovery a).row (s.missing.getD b 0)) sinv.get)
    (hu : u < s.missing.length) (hp : p < s.blockBytes.toNat) : s.rebuiltClosed sinv u p = data (s.missing.getD u 0) p := by
  obtain ⟨-, hleft⟩ := (isInverse_iff hφ _ _ _).mp hinv
  apply hφ.inj
  rw [State.rebuiltClosed, hφ.xorSum]
  calc ∑ t ∈ Finset.range s.missing.length, φ (gfMul s.store (s.residualClosed t p) (sinv.get u t))
      = ∑ t ∈ Finset.range s.missing.length, ∑ v ∈ Finset.range s.missing.length, φ (data (s.missing.getD v 0) p) *
          (φ (sinv.get u t) * φ (cauchyEntry s.store s.k.toNat (recoveryAt s.recovery t).row (s.missing.getD v 0))) := by
        refine Finset.sum_congr rfl fun t ht => ?_
        have ht := Finset.mem_range.mp ht
        rw [hφ.mul, residualClosed_eq hφ hdata hrec (by omega) hp, Finset.sum_mul]
        exact Finset.sum_congr rfl fun v _ => by ring
    _ = ∑ v ∈ Finset.range s.missing.length, φ (data (s.missing.getD v 0) p) * if u = v then 1 else 0 := by
        rw [Finset.sum_comm]
        refine Finset.sum_congr rfl fun v hv => ?_
        rw [← Finset.mul_sum, hleft u hu v (Finset.mem_range.mp hv)]
    _ = φ (data (s.missing.getD u 0) p) := by
        simp only [mul_ite, mul_one, mul_zero]
        rw [Finset.sum_ite_eq, if_pos (Finset.mem_range.mpr hu)]

end Algebra

end Sys2Proof.Machine
end

section
/-! CLAIMS. The statements on DECODE past its parameter checks (44_decoder.md, 70_reset_and_hazards.md). -/

namespace Sys2Proof.Proofs

open Sys2Proof.Machine

/-- Settles O51: each range that runs past memory fails the pass; a table of no descriptors holds fewer than k blocks. -/
theorem decodeValidation : Obligations.DecodeValidation := by
  refine ⟨desc_eq, fun s hp => ⟨fun h => ?_, fun e he h => ?_, fun hn h => ?_⟩⟩
  · exact exec_decode_checkFails (decodeCheck_rangeFails hp (decodeRangeCheck_tablePastEnd h))
  · obtain ⟨-, ⟨hbb, -⟩, -⟩ := id hp
    exact exec_decode_checkFails (decodeCheck_rangeFails hp (decodeRangeCheck_payloadPastEnd hbb he h))
  · obtain ⟨hr, ha, hfew⟩ := emptyTable_ready hp hn h
    exact exec_decode_insufficient hr ha (recovery_lt_missing hfew)

/-- Settles O52: the missing rows are filtered from the rows in order, and the first descriptor found supplies a row. -/
theorem missingRows : Obligations.MissingRows := by
  refine fun s => ⟨fun i => ?_, missing_pairwise s, fun l => dataAddr_lowest⟩
  rw [mem_missing, rowMissing_iff]

/-- Settles O54: the slots that step 3 collects meet every clause, and too few of them end the command. -/
theorem recoveryRows : Obligations.RecoveryRows := by
  refine fun s => ⟨?_, exec_decode_insufficient⟩
  obtain ⟨slots, ⟨horder, hslots, hnodup, hlen, hpassed⟩, hrec⟩ := exists_slots s
  exact ⟨slots, horder, hslots, hrec, hnodup, hlen, hpassed⟩

/-- Settles O55: data rows present and recovery rows collected come from different present descriptors, so fewer than k of these
leave fewer recovery rows than missing ones. -/
theorem fewerThanKPresentFails : Obligations.FewerThanKPresentFails := fun _ hr ha h =>
  exec_decode_insufficient hr ha (recovery_lt_missing h)

/-- Settles O56: no check raises MatrixOperation, and S is a square submatrix of the Cauchy matrix. -/
theorem decodeIsNeverSingular : Obligations.DecodeIsNeverSingular := by
  intro s t idx hstore h h5
  rcases execDecode_next h with ⟨e, he, rfl⟩ | ⟨hr, -, hb⟩
  · exact decodeCheck_ne_matrixOperation s (he.trans (congrArg some (code_inj (e' := .matrixOperation) h5)))
  rcases decodeBody_next hb with ⟨-, rfl⟩ | ⟨-, -, rfl⟩ | ⟨-, hl, hnone, -⟩ | ⟨-, -, -, sinv, -, rfl⟩
  · exact absurd h5 (show (0 : BitVec 4) ≠ 5 by decide)
  · exact absurd h5 (show ErrorKind.insufficientBlocks.code ≠ 5 by decide)
  · obtain ⟨sinv, hs, -⟩ := exists_solvedBy hr.1.1 hstore hl
    exact nomatch hnone.symm.trans hs
  · exact absurd h5 (show (if _ then ErrorKind.blockBuffer.code else 0 : BitVec 4) ≠ 5 by split <;> decide)

/-- Settles O57: the installs, read back byte by byte, with the rebuilt payloads as the sums of R208. -/
theorem decodeClosedForm : Obligations.DecodeClosedForm := by
  intro s idx c hr ha hi hw hstore hm hl hc
  subst hc
  obtain ⟨sinv, hs, hinv⟩ := exists_solvedBy hr.1.1 hstore hl
  refine ⟨sinv, _, hinv, exec_decode_installs hr ha hi hm hl hs, rfl, fun u hu => ?_, fun a h => read_decodeCells_outside sinv h⟩
  obtain ⟨hpayload, hrow, hflags⟩ := read_decodeCells sinv ha hw hu
  refine ⟨fun p hp => (hpayload p hp).trans ?_, hrow, hflags⟩
  exact rebuiltByte_eq hstore (le_antisymm (recovery_length_le s) hl) sinv u p

/-- Settles O58: with the installs apart, the loop reads the same payloads at every block; else DECODE is refused. -/
theorem decodeIsItsPseudocode : Obligations.DecodeIsItsPseudocode := by
  intro s sinv hr ha hw hm hl hs
  refine ⟨fun hi => ?_, fun hi => exec_decode_reaching hr ha hi hm hl hs⟩
  rw [exec_decode_installs hr ha hi hm hl hs, installLoop_all sinv ha hi]
  by_cases hfew : (emptySlots s.descriptors).length < s.missing.length
  · simp only [if_pos hfew, decide_eq_false (Nat.not_le.mpr hfew)]
    rfl
  · simp only [if_neg hfew, decide_eq_true (Nat.le_of_not_lt hfew)]
    rfl

/-- Settles O59: a missing row's block is the one install with that row, and the inverse of S undoes the sums that its bytes come
from. -/
theorem decodeRestoresTheData : Obligations.DecodeRestoresTheData := by
  intro s t idx data hw hstore hdata hrec h h0 i hi
  obtain ⟨hr, ha, ⟨hnone, -⟩ | ⟨hl, hcount, sinv, v, hs, rfl⟩⟩ := exec_decode_succeeds h h0
  · rw [hnone] at hi
    cases hi
  obtain ⟨F, _, φ, hφ⟩ := exists_fieldModel idx
  rw [← hstore] at hφ
  obtain ⟨sinv', hs', hinv⟩ := exists_solvedBy hr.1.1 hstore hl
  obtain rfl : sinv' = sinv := Option.some.inj (hs'.symm.trans hs)
  obtain ⟨u, hu, rfl⟩ := exists_getD_of_mem hi
  have hu' : u < installCount s.k.toNat s.descriptors := hcount ▸ hu
  obtain ⟨hslot, hempty⟩ := installSlot_mem hu'
  have hdesc := desc_installed sinv' v hr ha hw hu'
  refine ⟨installSlot s.descriptors u, hslot, hempty, by rw [hdesc], by rw [hdesc], by rw [hdesc], fun p hp => ?_,
    fun e' he' hpresent hrow => ?_⟩
  · rw [hdesc]
    refine ((read_decodeCells sinv' ha hw hu').1 p hp).trans ?_
    rw [rebuiltByte_eq hstore (le_antisymm (recovery_length_le s) hl), rebuiltClosed_eq hφ hdata hrec hl hinv hu hp]
  · rcases desc_kept_or_installed sinv' v ha hw he' with hkept | ⟨u', hu'', rfl⟩
    · rw [hkept] at hpresent hrow
      exact absurd ⟨e', he', hpresent, hrow⟩ (rowMissing_iff.mp (mem_missing.mp hi).2)
    · rw [desc_installed sinv' v hr ha hw hu''] at hrow
      have hin : ∀ w, w < s.missing.length → w ∈ (Finset.range s.missing.length : Set Nat) := fun w hw =>
        Finset.mem_coe.mpr (Finset.mem_range.mpr hw)
      rw [injOn_getD (missing_nodup s) (hin u' (hcount ▸ hu'')) (hin u hu) hrow]

/-- Settles O60: the installs fill a slot for every missing row and move no payload, so the checks pass again and nothing is
missing. -/
theorem decodeAgainChangesNothing : Obligations.DecodeAgainChangesNothing := by
  intro s t hw h h0
  obtain ⟨hr, ha, ⟨hnone, rfl⟩ | ⟨-, hcount, sinv, v, -, rfl⟩⟩ := exec_decode_succeeds h h0
  · exact nothingMissingWritesNothing (s.ended 0 0) hr ha (missing_eq_nil_iff.mp hnone)
  · exact nothingMissingWritesNothing _ (afterInstalls_ready sinv v hr ha hw) (afterInstalls_apart sinv v hr ha hw)
      (missing_eq_nil_iff.mp (afterInstalls_complete sinv v hr ha hw hcount))

end Sys2Proof.Proofs
end
